-- ==== Sys2Proof/Word.lean ====
section
/-! DEFINITION. The word types of the FCU (spec/00_scope.md R10): bytes and unsigned words of 16, 32 and 33 bits. -/

namespace Sys2Proof

/-- A byte: 8 bits (R10). -/
abbrev Byte := BitVec 8

/-- bits16: a sequence number, a CRC, a target address (R6). -/
abbrev Bits16 := BitVec 16

/-- bits32: a payload length (R6). -/
abbrev Bits32 := BitVec 32

/-- bits33: a frame length or a count of buffered bytes (R9, NEED_W). -/
abbrev Bits33 := BitVec 33

end Sys2Proof
end

