-- ==== Sys2Proof/Config.lean ====
section
/-! DEFINITION. What the spec fixes once for the block (spec/00_scope.md R6, R9), the OPEN parameters it leaves to the
implementation (R7, R8, and spec/92 "Named parameters left OPEN"), the shape of the transport's answers
(spec/20_memory.md R57, R58), and the free values: opaque constants without a body, of which nothing can be proved. -/

namespace Sys2Proof

/-! ### Fixed constants (R6, R9) -/

/-- START_BYTE (R6, R81). UNVERIFIED: the literal is unaudited (U12, log 16). -/
def startByte : Byte := 0x1B#8

/-- TOKEN_BYTE (R6, R84). UNVERIFIED: the literal is unaudited (U12, log 16). -/
def tokenByte : Byte := 0x0E#8

/-- HDR_LEN (R6): start 1, seqno 2, length 4, token 1. -/
def hdrLen : Nat := 8

/-- CRC_LEN (R6). -/
def crcLen : Nat := 2

/-- LEN_KNOWN_AT (R6): the least number of buffered bytes at which the payload length is known. -/
def lenKnownAt : Nat := 7

/-- One more than MAX_PAYLOAD (R6): a payload has fewer bytes than this. -/
def payloadLimit : Nat := 2 ^ 32

/-- BUF_CAP (R9): the bytes of RXBUF and of TXBUF; offsets at or past it do not exist. -/
def bufCap : Nat := 2 ^ 32 + 9

/-- SEQ_RESET (R9, D7). -/
def seqReset : Bits16 := 0x0000#16

/-- CMD_SIGN_ON (R8, R181). -/
def cmdSignOn : Byte := 0x01#8

/-- MEMTYPE_SRAM (R8, R182). -/
def memtypeSram : Byte := 0x20#8

/-! ### OPEN parameters -/

/-- CRCP (R7): polynomial, initial value, input and output reflection, final exclusive-or. -/
structure Crcp where
  poly : Bits16
  init : Bits16
  refin : Bool
  refout : Bool
  xorout : Bits16
  deriving DecidableEq, Repr, Inhabited

/-- The kinds of a success reply (R191). -/
inductive SuccessKind where
  | ok
  | parameter
  | memory
  | signOn
  deriving DecidableEq, Repr, Inhabited

/-- The kinds of a device-failure reply (R191); No-target-power may own several codes. -/
inductive FailureKind where
  | failed
  | illegalMcuState
  | noTargetPower
  deriving DecidableEq, Repr, Inhabited

/-- The class of a reply code (R191). -/
inductive ReplyClass where
  | success (k : SuccessKind)
  | deviceFailure (k : FailureKind)
  | unknown
  deriving DecidableEq, Repr, Inhabited

/-- The OPEN parameters (R7, R8, R182, R184 to R188; D3, D4, D29), held in State as plain data that no operation
changes (log 4). `replies` is REPLY_CLASS as a table; a code that it does not list is Unknown. -/
structure Params where
  crcp : Crcp
  replies : List (Byte × ReplyClass)
  cmdSetParameter : Byte
  cmdGetParameter : Byte
  cmdReadMemory : Byte
  cmdWriteMemory : Byte
  cmdReset : Byte
  cmdSetDeviceDescriptor : Byte
  cmdGetSync : Byte
  cmdEnterProgmode : Byte
  countBytes : Nat
  addrBytes : Nat
  expectSetParam : SuccessKind
  expectGetParam : SuccessKind
  expectEnterProgMode : SuccessKind
  expectReset : SuccessKind
  expectSetDeviceDescriptor : SuccessKind
  deriving DecidableEq, Repr, Inhabited

/-- The kinds that one reply code alone may have (R191: distinct kinds have distinct codes, and only No-target-power
may own several). -/
def singleKinds : List ReplyClass :=
  [.success .ok, .success .parameter, .success .memory, .success .signOn,
   .deviceFailure .failed, .deviceFailure .illegalMcuState]

/-- The constraints that a model may assume of the parameters: CRC_POLY is not 0 (R7), ADDR_BYTES is at least 2
(spec/92), and of REPLY_CLASS what R191 says: one class a code, each of the seven kinds present, and only
No-target-power with more than one code. -/
abbrev Params.legal (p : Params) : Prop :=
  p.crcp.poly ≠ 0#16 ∧ 2 ≤ p.addrBytes ∧ (p.replies.map Prod.fst).Nodup ∧
    (∀ c ∈ singleKinds, (p.replies.map Prod.snd).count c = 1) ∧
    0 < (p.replies.map Prod.snd).count (.deviceFailure .noTargetPower)

/-! ### The transport's answers -/

/-- What a TransportRead answers (R58): an error (a timeout included, R59) or a chunk of any length. -/
inductive ReadAnswer where
  | error
  | chunk (c : List Byte)
  deriving DecidableEq, Repr, Inhabited

/-- What a TransportWrite answers (R57): ok, or an error after `reached` bytes, or all where there are fewer, have
reached the line. -/
inductive WriteAnswer where
  | ok
  | error (reached : Nat)
  deriving DecidableEq, Repr, Inhabited

/-! ### Free values -/

namespace Config

/-- The answer to a TransportRead for which State lists none (R56, R58: any answer, under no law). -/
opaque transportRead : Nat → ReadAnswer

/-- The answer to a TransportWrite for which State lists none (R57). -/
opaque transportWrite : Nat → WriteAnswer

/-- The sizes of the chunks, but the last, in which arriving bytes will be delivered (R58: any). -/
opaque chunking : Nat → List Nat

/-- Whether the first of the arriving bytes will be delivered in one chunk with the last that wait (R58: any). -/
opaque joinsWaiting : Nat → Bool

/-- CRC where the spec leaves it unspecified (R36, at a later session's reset). -/
opaque freeCrc : Nat → Bits16

/-- MATCH where the spec leaves it unspecified (R36, at a later session's reset). -/
opaque freeMatch : Nat → Bool

/-- ERRINFO where the outcome does not define it (R33). -/
opaque freeErrInfo : Nat → Byte

/-- RX_SEQ where the outcome does not define it (R33). -/
opaque freeRxSeq : Nat → Bits16

/-- RX_LEN where the outcome does not define it (R33). -/
opaque freeRxLen : Nat → Bits32

/-- RX_CODE where the outcome does not define it (R33). -/
opaque freeRxCode : Nat → Byte

/-- RX_NEED between operations (R26). -/
opaque freeRxNeed : Nat → Bits33

/-- RX_CNT between operations (R26). -/
opaque freeRxCnt : Nat → Bits33

/-- The address READ_RANGE uses for byte i of a range from addr, where addr + i passes 0xFFFF (R193, N26). -/
opaque rangeAddrPast : Bits16 → Nat → Bits16

/-- Any parameter record. -/
opaque anyParams : Params

/-- A parameter record that is legal, so that one is known to exist. No value in it is asserted of the device, and no
theorem can tell whether `Config.params` is this one. -/
def someLegalParams : Params where
  crcp := ⟨1#16, 0#16, false, false, 0#16⟩
  replies := (singleKinds ++ [ReplyClass.deviceFailure .noTargetPower]).zipIdx.map fun (c, i) => (BitVec.ofNat 8 i, c)
  cmdSetParameter := 0#8
  cmdGetParameter := 0#8
  cmdReadMemory := 0#8
  cmdWriteMemory := 0#8
  cmdReset := 0#8
  cmdSetDeviceDescriptor := 0#8
  cmdGetSync := 0#8
  cmdEnterProgmode := 0#8
  countBytes := 0
  addrBytes := 2
  expectSetParam := .ok
  expectGetParam := .ok
  expectEnterProgMode := .ok
  expectReset := .ok
  expectSetDeviceDescriptor := .ok

/-- The parameters of the machine after reset: any legal record (`anyParams` where it is legal, which every legal
record may be), with no value chosen (R7, R8, R119). -/
def params : Params := if anyParams.legal then anyParams else someLegalParams

end Config

end Sys2Proof
end

