-- ==== Sys2Proof/Machine/Bytes.lean ====
section
/-! DEFINITION. Byte order (spec/00_scope.md R11, spec/20_memory.md R52, R54): little-endian assembly and splitting. A
source of bytes is a function from an offset to the byte there, if there is one: a buffer's read or a byte sequence's
index. -/

namespace Sys2Proof.Machine

/-- bytes_le16 (R11). -/
def bytesLe16 (v : Bits16) : List Byte :=
  [v.extractLsb' 0 8, v.extractLsb' 8 8]

/-- bytes_le32 (R11). -/
def bytesLe32 (v : Bits32) : List Byte :=
  [v.extractLsb' 0 8, v.extractLsb' 8 8, v.extractLsb' 16 8, v.extractLsb' 24 8]

/-- le(v, k) of R182, and the bytes that MemWrite stores (R53): the k low bytes of v, lowest first. -/
def leBytes : Nat → Nat → List Byte
  | 0, _ => []
  | k + 1, v => BitVec.ofNat 8 v :: leBytes k (v / 256)

/-- The bits16 whose low byte is b0 (R11). -/
def word16 (b0 b1 : Byte) : Bits16 := b1 ++ b0

/-- The bits32 whose lowest byte is b0 (R11). -/
def word32 (b0 b1 b2 b3 : Byte) : Bits32 := b3 ++ b2 ++ b1 ++ b0

/-- MemRead of one byte (R52). -/
def memRead1 (src : Nat → Option Byte) (o : Nat) : Option Byte := src o

/-- MemRead of two bytes, le16 (R52, R11). -/
def memRead2 (src : Nat → Option Byte) (o : Nat) : Option Bits16 :=
  match src o, src (o + 1) with
  | some b0, some b1 => some (word16 b0 b1)
  | _, _ => none

/-- MemRead of four bytes, le32 (R52, R11). -/
def memRead4 (src : Nat → Option Byte) (o : Nat) : Option Bits32 :=
  match src o, src (o + 1), src (o + 2), src (o + 3) with
  | some b0, some b1, some b2, some b3 => some (word32 b0 b1 b2 b3)
  | _, _, _, _ => none

/-- The bytes of the source at offsets o to o + k - 1, if all are there. -/
def readSpan (src : Nat → Option Byte) (o : Nat) : Nat → Option (List Byte)
  | 0 => some []
  | k + 1 =>
    match src o with
    | some b => (readSpan src (o + 1) k).map (b :: ·)
    | none => none

/-- A byte sequence as a source of bytes. -/
def ofList (s : List Byte) (o : Nat) : Option Byte := s[o]?

end Sys2Proof.Machine
end

