-- ==== Sys2Proof/Syntax.lean ====
section
/-! DEFINITION. The syntax: one constructor for each row of spec/opcode_table.json (the eleven operations of
spec/30_encoding.md R92, the wire frame of R80, the nine pseudo-operations of R96), what the host and the line may do
next, and why bytes at the operation port may be no operation. -/

namespace Sys2Proof

/-- The rows of the opcode table. -/
inductive Instr where
  /-- CRC.INIT (R112). -/
  | crcInit
  /-- CRC.UPD b (R113). -/
  | crcUpd (b : Byte)
  /-- CRC.GET (R114). -/
  | crcGet
  /-- CRC.CHK lo, hi (R115). -/
  | crcChk (lo hi : Byte)
  /-- ENCODE seqno, payload (R130). -/
  | encode (seqno : Bits16) (payload : List Byte)
  /-- FDEC n (R140). -/
  | fdec (n : Bits33)
  /-- DECODE n (R147). -/
  | decode (n : Bits33)
  /-- SEND data (R160). -/
  | send (data : List Byte)
  /-- RECEIVE (R163). -/
  | receive
  /-- SEQ.ADV (R171). -/
  | seqAdv
  /-- SEQ.RST (R172). -/
  | seqRst
  /-- FRAME (R80, R89): one frame on the inbound line, with whatever CRC field it carries. -/
  | frame (seqno : Bits16) (payload : List Byte) (crcField : Bits16)
  /-- SIGN_ON (R181). -/
  | signOn
  /-- READ_RAM_BYTE addr (R182). -/
  | readRamByte (addr : Bits16)
  /-- WRITE_RAM_BYTE addr, value (R183). -/
  | writeRamByte (addr : Bits16) (value : Byte)
  /-- SET_PARAM (R184), with the caller's argument bytes (OPEN, N13). -/
  | setParam (args : List Byte)
  /-- GET_PARAM (R185), with the caller's argument bytes. -/
  | getParam (args : List Byte)
  /-- ENTER_PROG_MODE (R186), with the caller's argument bytes, if any. -/
  | enterProgMode (args : List Byte)
  /-- DEV_RESET (R187), with the caller's argument bytes, if any. -/
  | devReset (args : List Byte)
  /-- SET_DEVICE_DESCRIPTOR (R188), with the caller's descriptor bytes. -/
  | setDeviceDescriptor (args : List Byte)
  /-- READ_RANGE addr, count (R193); `advance` is the host's policy: whether it issues SEQ.ADV between two bytes
  (R190, N26). -/
  | readRange (addr : Bits16) (count : Nat) (advance : Bool)
  deriving DecidableEq, Repr

/-- What the host or the environment does next. -/
inductive Event where
  /-- The host presents these bytes at the operation port: operations, each an OP byte and its operands (R92, R93). -/
  | port (bytes : List Byte)
  /-- The host places these bytes in RXBUF[0:n) (R50, R95, R234). -/
  | load (bytes : List Byte)
  /-- The host issues this operation or DeviceSession call by its name (R95, R96). -/
  | call (i : Instr)
  /-- The host creates a new session: the block's reset event (R230). -/
  | newSession
  /-- These bytes arrive on the inbound line (R58, R209). -/
  | wire (bytes : List Byte)
  /-- A read that finds no earlier answer will fail: an error, or the transport's deadline (R59). -/
  | timeout
  deriving DecidableEq, Repr

/-- Why the bytes at the operation port are no operation. -/
inductive DecodeError where
  /-- The OP value is none of R92's (R94). -/
  | reservedOp (op : Byte)
  /-- Bytes of the operation's operands are missing. -/
  | truncated
  /-- A bits33 operand has a bit above bit 32 set. -/
  | operandTooWide
  /-- The length of a `bytes` operand is over 2^32 - 1 (R92, R134). -/
  | lengthTooLong
  deriving DecidableEq, Repr

end Sys2Proof
end

