-- ==== Sys2Proof/WellFormed.lean ====
section
/-! DEFINITION. Which terms of Instr the operands of spec/30_encoding.md R92 admit: a byte sequence that goes into a
frame's payload has at most 2^32 - 1 bytes (R83, R130, R160). Every other operand is as wide as its type. -/

namespace Sys2Proof

/-- So many bytes fit the 32-bit length field of a frame (R83, MAX_PAYLOAD of R6). -/
def fitsPayload (len : Nat) : Bool := decide (len < payloadLimit)

/-- The instruction's operands are legal. A DeviceSession call's arguments follow its opcode byte in the payload
(R180), so they are shorter by one. -/
def Instr.wf : Instr → Bool
  | .crcInit => true
  | .crcUpd _ => true
  | .crcGet => true
  | .crcChk _ _ => true
  | .encode _ payload => fitsPayload payload.length
  | .fdec _ => true
  | .decode _ => true
  | .send data => fitsPayload data.length
  | .receive => true
  | .seqAdv => true
  | .seqRst => true
  | .frame _ payload _ => fitsPayload payload.length
  | .signOn => true
  | .readRamByte _ => true
  | .writeRamByte _ _ => true
  | .setParam args => fitsPayload (args.length + 1)
  | .getParam args => fitsPayload (args.length + 1)
  | .enterProgMode args => fitsPayload (args.length + 1)
  | .devReset args => fitsPayload (args.length + 1)
  | .setDeviceDescriptor args => fitsPayload (args.length + 1)
  | .readRange _ _ _ => true

end Sys2Proof
end

