-- ==== Sys2Proof/Decode.lean ====
section
/-! DEFINITION. Decoding, total on any bytes, and after it the encoder. Three encodings: the operation port (spec/30_encoding.md
R92 to R94: an OP byte, then the operands in the table's order), the wire frame (R80 to R89), and the pseudo-operations,
which have no OP code (R96) and are issued by name. DESIGN CHOICE (log 7): at the port a bits16 is 2 bytes and a bits33 is 5
bytes, little-endian as everywhere (R54), the 7 bits above bit 32 zero. -/

namespace Sys2Proof

open Sys2Proof.Machine

/-- A bits33 from its five bytes, if the bits above bit 32 are zero. -/
def takeBits33 : List Byte → Except DecodeError (Bits33 × List Byte)
  | b0 :: b1 :: b2 :: b3 :: b4 :: rest =>
    if b4.extractLsb' 1 7 = 0#7 then .ok (b4.extractLsb' 0 1 ++ word32 b0 b1 b2 b3, rest)
    else .error .operandTooWide
  | _ => .error .truncated

/-- A `bytes` operand: its length, bits33 and at most 2^32 - 1, then that many bytes (R92). -/
def takeBytes (s : List Byte) : Except DecodeError (List Byte × List Byte) :=
  match takeBits33 s with
  | .error e => .error e
  | .ok (n, rest) =>
    if payloadLimit ≤ n.toNat then .error .lengthTooLong
    else if rest.length < n.toNat then .error .truncated
    else .ok (rest.take n.toNat, rest.drop n.toNat)

/-- The operands of ENCODE. -/
def takeEncode : List Byte → Except DecodeError (Instr × List Byte)
  | s0 :: s1 :: rest =>
    match takeBytes rest with
    | .error e => .error e
    | .ok (payload, more) => .ok (.encode (word16 s0 s1) payload, more)
  | _ => .error .truncated

/-- The operand n of FDEC and DECODE. -/
def takeCount (f : Bits33 → Instr) (s : List Byte) : Except DecodeError (Instr × List Byte) :=
  match takeBits33 s with
  | .error e => .error e
  | .ok (n, more) => .ok (f n, more)

/-- The operand of SEND. -/
def takeSend (s : List Byte) : Except DecodeError (Instr × List Byte) :=
  match takeBytes s with
  | .error e => .error e
  | .ok (data, more) => .ok (.send data, more)

/-- The operand of CRC.UPD. -/
def takeUpd : List Byte → Except DecodeError (Instr × List Byte)
  | b :: more => .ok (.crcUpd b, more)
  | _ => .error .truncated

/-- The operands of CRC.CHK. -/
def takeChk : List Byte → Except DecodeError (Instr × List Byte)
  | lo :: hi :: more => .ok (.crcChk lo hi, more)
  | _ => .error .truncated

/-- The operation whose OP byte is `op` and whose operands begin `rest`: the table of R92 and nothing else (R93); every
other OP is reserved (R94). -/
def decodeOp (op : Byte) (rest : List Byte) : Except DecodeError (Instr × List Byte) :=
  match op.toNat with
  | 0x01 => .ok (.crcInit, rest)
  | 0x02 => takeUpd rest
  | 0x03 => .ok (.crcGet, rest)
  | 0x04 => takeChk rest
  | 0x08 => takeEncode rest
  | 0x09 => takeCount .fdec rest
  | 0x0A => takeCount .decode rest
  | 0x10 => takeSend rest
  | 0x11 => .ok (.receive, rest)
  | 0x12 => .ok (.seqAdv, rest)
  | 0x13 => .ok (.seqRst, rest)
  | _ => .error (.reservedOp op)

/-- The first operation among the bytes at the port, and the bytes after it. -/
def decodePort : List Byte → Except DecodeError (Instr × List Byte)
  | [] => .error .truncated
  | op :: rest => decodeOp op rest

/-- The frame at the start of the bytes on the line, and the bytes after it, where the header is well formed (R89) and
the whole frame is there (R87). The CRC field is taken as it stands: checking it is the decoder's business (R145). -/
def decodeWire : List Byte → Option (Instr × List Byte)
  | b0 :: s0 :: s1 :: l0 :: l1 :: l2 :: l3 :: t :: rest =>
    let n := (word32 l0 l1 l2 l3).toNat
    if b0 = startByte ∧ t = tokenByte then
      match rest.drop n with
      | c0 :: c1 :: more => some (.frame (word16 s0 s1) (rest.take n) (word16 c0 c1), more)
      | _ => none
    else none
  | _ => none

/-! ### The encoder -/

/-- A bits33 at the port: five bytes, the lowest first. -/
def bytesLe33 (v : Bits33) : List Byte := leBytes 5 v.toNat

/-- A `bytes` operand at the port (R92). -/
def encodeBytes (s : List Byte) : List Byte := bytesLe33 (BitVec.ofNat 33 s.length) ++ s

/-- The eight header bytes of a frame (R80, R131). -/
def frameHeader (seqno : Bits16) (len : Bits32) : List Byte :=
  [startByte] ++ bytesLe16 seqno ++ bytesLe32 len ++ [tokenByte]

/-- The bytes of a frame with the given CRC field (R80). -/
def frameBytes (seqno : Bits16) (payload : List Byte) (crcField : Bits16) : List Byte :=
  frameHeader seqno (BitVec.ofNat 32 payload.length) ++ payload ++ bytesLe16 crcField

/-- How an instruction is presented: an operation as bytes at the port, a frame as bytes on the line, a pseudo-operation
by name. -/
def encode : Instr → Event
  | .crcInit => .port [0x01#8]
  | .crcUpd b => .port [0x02#8, b]
  | .crcGet => .port [0x03#8]
  | .crcChk lo hi => .port [0x04#8, lo, hi]
  | .encode seqno payload => .port (0x08#8 :: bytesLe16 seqno ++ encodeBytes payload)
  | .fdec n => .port (0x09#8 :: bytesLe33 n)
  | .decode n => .port (0x0A#8 :: bytesLe33 n)
  | .send data => .port (0x10#8 :: encodeBytes data)
  | .receive => .port [0x11#8]
  | .seqAdv => .port [0x12#8]
  | .seqRst => .port [0x13#8]
  | .frame seqno payload crcField => .wire (frameBytes seqno payload crcField)
  | .signOn => .call .signOn
  | .readRamByte addr => .call (.readRamByte addr)
  | .writeRamByte addr value => .call (.writeRamByte addr value)
  | .setParam args => .call (.setParam args)
  | .getParam args => .call (.getParam args)
  | .enterProgMode args => .call (.enterProgMode args)
  | .devReset args => .call (.devReset args)
  | .setDeviceDescriptor args => .call (.setDeviceDescriptor args)
  | .readRange addr count advance => .call (.readRange addr count advance)

/-- The instruction an event presents, if it presents one, and what is left of the event after it. -/
def decodeEvent : Event → Option (Instr × Option Event)
  | .port bytes =>
    match decodePort bytes with
    | .ok (i, []) => some (i, none)
    | .ok (i, more) => some (i, some (.port more))
    | .error _ => none
  | .wire bytes =>
    match decodeWire bytes with
    | some (i, []) => some (i, none)
    | some (i, more) => some (i, some (.wire more))
    | none => none
  | .call i => some (i, none)
  | .load _ => none
  | .newSession => none
  | .timeout => none

/-! ### Words of the opcode table -/

/-- The header length field of a 64-bit header word H: H[55:24] (R89). -/
def tableFrameLen (w : Nat) : Nat := (w >>> 24) % 2 ^ 32

/-- The event that presents the word w of the opcode table: a row of 64 bits is a frame's header (R89), whose payload and
CRC bytes are above it and zero; every other row is read at the port, its operand bytes zero. A row of the format PSEUDO has
no OP code (R96), so its table word, the command opcode in the payload it sends, is no word of its own here (log 10). -/
def tableEvent (nbits w : Nat) : Event :=
  if nbits = 64 then .wire (leBytes 8 w ++ List.replicate (tableFrameLen w + crcLen) 0#8)
  else .port (leBytes (nbits / 8) w ++ List.replicate 8 0#8)

/-- The instruction that the decoder reads from a table word. -/
def decodeTableWord (nbits w : Nat) : Option Instr := (decodeEvent (tableEvent nbits w)).map Prod.fst

end Sys2Proof
end

