-- ==== Sys2Proof/Machine/State.lean ====
section
/-! DEFINITION. The state of the FCU as plain data: the tuple of spec/10_state.md R20, the value an operation returns
(R13, R33), the RECEIVE in progress (R27), the environment's and the host's part (R20, spec/20_memory.md R56 to R58), and the
reasons a step can stop. -/

namespace Sys2Proof.Machine

/-- A byte buffer: (offset, byte) pairs, offsets strictly rising. An offset it does not list has no value: nothing has
written it (R36, U11), and reading it faults (log 3). -/
abbrev Memory := List Host.Cell

/-- The canonical form: offsets strictly rising. No entry can equal what an unlisted offset reads as, since that is no
value. -/
abbrev Memory.wf (m : Memory) : Prop := m.Pairwise fun a b => a.1 < b.1

/-- Every listed offset exists in a buffer of `cap` bytes (R50). -/
abbrev Memory.within (cap : Nat) (m : Memory) : Prop := ∀ c ∈ m, c.1 < cap

/-- FrameError (R201); emptyPayload is the spec's own member (D9). -/
inductive FrameError where
  | badStart
  | badToken
  | incomplete
  | crcMismatch
  | unknownReply (code : Byte)
  | emptyPayload
  deriving DecidableEq, Repr

/-- What FDEC finds in a frame: the sequence number, the length field and the payload (R140). -/
structure FrameParts where
  seqno : Bits16
  len : Bits32
  payload : List Byte
  deriving DecidableEq, Repr

/-- A Reply: its code, the code's class, and the payload without the code (R147). -/
structure Reply where
  code : Byte
  cls : ReplyClass
  data : List Byte
  deriving DecidableEq, Repr

/-- The value with which an operation ends (R13, R33): `Ok(...)` with what the operation returns, or an error. -/
inductive Result where
  /-- Ok with no value: CRC.INIT, CRC.UPD, SEND, SEQ.ADV, SEQ.RST, WRITE_RAM_BYTE. -/
  | ok
  /-- Ok(v) of CRC.GET (R114). -/
  | crcValue (v : Bits16)
  /-- Ok(m) of CRC.CHK (R115). -/
  | checked (m : Bool)
  /-- Ok(frame) of ENCODE (R130). -/
  | encoded (frame : List Byte)
  /-- Ok(seqno, payload) of FDEC (R140). -/
  | framed (seqno : Bits16) (payload : List Byte)
  /-- Ok(seqno, Reply) of DECODE (R147). -/
  | decoded (seqno : Bits16) (reply : Reply)
  /-- Ok(Reply) of RECEIVE (R163) and of an exchange (R180). -/
  | received (reply : Reply)
  /-- Ok(reply.data[0]) of READ_RAM_BYTE (R182). -/
  | byteRead (b : Byte)
  /-- READ_RANGE has filled the caller's buffer (R193). -/
  | rangeRead
  /-- A FrameError of FDEC or DECODE (R201). -/
  | frameError (e : FrameError)
  /-- NoReply of RECEIVE (R169, R202). -/
  | noReply
  /-- Corrupt(e) of RECEIVE (R167, R202). -/
  | corrupt (e : FrameError)
  /-- SeqMismatch of RECEIVE (R168, R202). -/
  | seqMismatch
  /-- TransportError of SEND (R161, R203). -/
  | transportError
  /-- DeviceError(code) of a pseudo-operation (R192, R204). -/
  | deviceError (code : Byte)
  /-- UnexpectedReply(code) of a pseudo-operation (R180, R204). -/
  | unexpectedReply (code : Byte)
  deriving DecidableEq, Repr

/-- What a RECEIVE in progress is for: what is done when it has returned. -/
inductive Task where
  /-- The operation RECEIVE itself. -/
  | receive
  /-- An exchange that expects this kind and returns the reply (R180). -/
  | exchange (expect : SuccessKind)
  /-- WRITE_RAM_BYTE (R183). -/
  | writeByte
  /-- READ_RAM_BYTE (R182). -/
  | readByte
  /-- READ_RANGE at byte i, with `left` bytes after it (R193). -/
  | range (addr : Bits16) (i left : Nat) (advance : Bool)
  deriving DecidableEq, Repr

/-- The state of the machine. -/
structure State where
  /-- The OPEN parameters (R7, R8); no operation changes them. -/
  params : Params
  /-- SEQ (R21). -/
  seq : Bits16
  /-- CRC, the accumulator (R22). -/
  crc : Bits16
  /-- CRC_VALID (R22). -/
  crcValid : Bool
  /-- MATCH (R31). -/
  matchFlag : Bool
  /-- STATUS (R23). -/
  status : Byte
  /-- ERRINFO (R24). -/
  errInfo : Byte
  /-- RX_SEQ (R25). -/
  rxSeq : Bits16
  /-- RX_LEN (R25). -/
  rxLen : Bits32
  /-- RX_CODE (R25). -/
  rxCode : Byte
  /-- RX_NEED (R26). -/
  rxNeed : Bits33
  /-- RX_CNT (R26). -/
  rxCnt : Bits33
  /-- RXBUF (R28, R50). -/
  rxbuf : Memory
  /-- TX_LEN (R29). -/
  txLen : Bits33
  /-- TXBUF (R29, R50). -/
  txbuf : Memory
  /-- The value the last completed operation returned (R13). -/
  result : Result
  /-- The RECEIVE that waits for the transport's next answer, and what it is for (R163, R175). -/
  pending : Option Task
  /-- The caller-supplied buffer of READ_RANGE (R193). -/
  callerBuf : Memory
  /-- The transport's answers to the next TransportReads (R58). -/
  readAnswers : List ReadAnswer
  /-- The transport's answers to the next TransportWrites (R57). -/
  writeAnswers : List WriteAnswer
  /-- What each TransportWrite put on the line, oldest first (R57). -/
  sent : List (List Byte)
  /-- What the host and the line do next (R20). -/
  agenda : List Event
  /-- The MODEL's own: how many free values have been drawn. -/
  draws : Nat
  deriving DecidableEq, Repr

/-- Why the machine stops with a fault. -/
inductive Fault where
  /-- FDEC or DECODE read a byte of RXBUF that nothing has written (U11, R52). Safe: nothing is said of what follows. -/
  | unwrittenByte
  /-- The host loads bytes past BUF_CAP, where RXBUF has no offsets (R50). Safe. -/
  | noSuchOffset
  /-- READ_RAM_BYTE or READ_RANGE got a success reply without a data byte (U16: a fault, never a value). Safe. -/
  | noDataByte
  deriving DecidableEq, Repr

/-- Why an instruction has no meaning. -/
inductive Refusal where
  /-- The instruction of this mnemonic has no meaning yet. Raised by exec's refused arms; safe. -/
  | notModelled (mnemonic : String)
  /-- The bytes at the operation port are no operation (R92, R94, U7). Raised by step; safe. -/
  | notAnOperation (why : DecodeError)
  /-- CRC.UPD, CRC.GET or CRC.CHK before the first CRC.INIT since reset (R113 to R115, U6). Safe. -/
  | crcNotInitialised
  /-- A payload of 2^32 bytes or more, which the length field cannot express (R134, U14). Raised by ENCODE, SEND, FRAME
  and the pseudo-operations; safe. -/
  | payloadTooLong
  deriving DecidableEq, Repr

/-- The machine right after reset (R36, R230): the spec's values for SEQ, CRC_VALID, STATUS and TX_LEN; zero for the
registers R36 leaves unspecified (DESIGN CHOICE, log 1); the buffers unwritten; the OPEN parameters any legal record.
DESIGN CHOICE (log 26): R36 calls the transport's state at reset the platform's, and here nothing waits in it. -/
def State.reset : State where
  params := Config.params
  seq := seqReset
  crc := 0#16
  crcValid := false
  matchFlag := false
  status := 0x00#8
  errInfo := 0#8
  rxSeq := 0#16
  rxLen := 0#32
  rxCode := 0#8
  rxNeed := 0#33
  rxCnt := 0#33
  rxbuf := []
  txLen := 0#33
  txbuf := []
  result := .ok
  pending := none
  callerBuf := []
  readAnswers := []
  writeAnswers := []
  sent := []
  agenda := []
  draws := 0

end Sys2Proof.Machine
end

