-- ==== Sys2Proof/Machine/CrcAlgorithm.lean ====
section
/-! DEFINITION. The CRC computation (spec/40_crc.md R110, R111, R116, R121) for any parameter record CRCP. -/

namespace Sys2Proof.Machine

/-- reflect8 (R110). -/
def reflect8 (b : Byte) : Byte := b.reverse

/-- reflect16 (R110). -/
def reflect16 (v : Bits16) : Bits16 := v.reverse

/-- One of the eight shifts of crc_step (R111). -/
def crcShift (p : Crcp) (c : Bits16) : Bits16 :=
  if c.getLsbD 15 then (c <<< 1) ^^^ p.poly else c <<< 1

/-- `k` shifts. -/
def crcShifts (p : Crcp) : Nat → Bits16 → Bits16
  | 0, c => c
  | k + 1, c => crcShifts p k (crcShift p c)

/-- The byte as it enters the accumulator (R111). -/
def crcInput (p : Crcp) (b : Byte) : Byte := if p.refin then reflect8 b else b

/-- crc_step (R111). -/
def crcStep (p : Crcp) (c : Bits16) (b : Byte) : Bits16 :=
  crcShifts p 8 (c ^^^ (crcInput p b ++ 0x00#8))

/-- crc_final (R111). -/
def crcFinal (p : Crcp) (c : Bits16) : Bits16 :=
  (if p.refout then reflect16 c else c) ^^^ p.xorout

/-- The accumulator after the bytes s, from c. -/
def crcFold (p : Crcp) (c : Bits16) (s : List Byte) : Bits16 := s.foldl (crcStep p) c

/-- crc16 (R116). -/
def crc16 (p : Crcp) (s : List Byte) : Bits16 := crcFinal p (crcFold p p.init s)

/-! ### The least-significant-bit-first form (R121), a convenience that R111 is normative over -/

/-- One of its eight shifts. -/
def lsbShift (p : Crcp) (c : Bits16) : Bits16 :=
  if c.getLsbD 0 then (c >>> 1) ^^^ reflect16 p.poly else c >>> 1

/-- `k` of its shifts. -/
def lsbShifts (p : Crcp) : Nat → Bits16 → Bits16
  | 0, c => c
  | k + 1, c => lsbShifts p k (lsbShift p c)

/-- Its step by one byte. -/
def lsbStep (p : Crcp) (c : Bits16) (b : Byte) : Bits16 :=
  lsbShifts p 8 (c ^^^ b.zeroExtend 16)

/-- The CRC it computes; R121 gives it for CRC_REFIN = CRC_REFOUT = 1. -/
def lsbCrc16 (p : Crcp) (s : List Byte) : Bits16 :=
  s.foldl (lsbStep p) (reflect16 p.init) ^^^ p.xorout

end Sys2Proof.Machine
end

