-- ==== Sys2Proof/Machine/Flags.lean ====
section
/-! DEFINITION. The one flag, MATCH (spec/10_state.md R31), and the condition the host branches on, STATUS
(spec/60_exceptions.md R205). -/

namespace Sys2Proof.Machine

/-- The verifier's verdict m of CRC.CHK (R115): all 16 bits of the finalised accumulator against the pair {hi, lo}. -/
def crcMatches (p : Crcp) (c : Bits16) (lo hi : Byte) : Bool := crcFinal p c == word16 lo hi

/-- The STATUS code of a FrameError (R205). -/
def frameErrorCode : FrameError → Byte
  | .badStart => 0x01#8
  | .badToken => 0x02#8
  | .incomplete => 0x03#8
  | .crcMismatch => 0x04#8
  | .unknownReply _ => 0x05#8
  | .emptyPayload => 0x06#8

/-- The STATUS code of a result (R205); Corrupt(e) is 0x20 + the code of e. -/
def statusOf : Result → Byte
  | .ok => 0x00#8
  | .crcValue _ => 0x00#8
  | .checked _ => 0x00#8
  | .encoded _ => 0x00#8
  | .framed _ _ => 0x00#8
  | .decoded _ _ => 0x00#8
  | .received _ => 0x00#8
  | .byteRead _ => 0x00#8
  | .rangeRead => 0x00#8
  | .frameError e => frameErrorCode e
  | .noReply => 0x10#8
  | .transportError => 0x11#8
  | .seqMismatch => 0x12#8
  | .corrupt e => 0x20#8 + frameErrorCode e
  | .deviceError _ => 0x30#8
  | .unexpectedReply _ => 0x31#8

end Sys2Proof.Machine
end

