-- ==== Sys2Proof/Machine/Ops.lean ====
section
/-! DEFINITION. The shared operations over buffers, registers and the transport: MemRead and MemWrite (spec/20_memory.md R52,
R53), the return of a result, which is all that this block has of taking an exception (spec/10_state.md R33,
spec/60_exceptions.md R207; there is no return from one, R208), the transport's primitives (R57, R58) and the events of the
host and the line. -/

namespace Sys2Proof.Machine

/-! ### Buffers -/

/-- The byte at an offset, if something has written it. -/
def Memory.read : Memory → Nat → Option Byte
  | [], _ => none
  | (k, v) :: m, a => if k = a then some v else Memory.read m a

/-- Store one byte, keeping the canonical form. -/
def Memory.write : Memory → Nat → Byte → Memory
  | [], a, v => [(a, v)]
  | (k, w) :: m, a, v =>
    if a < k then (a, v) :: (k, w) :: m
    else if a = k then (a, v) :: m
    else (k, w) :: Memory.write m a v

/-- Store bytes at rising offsets from o. -/
def Memory.writeBytes (m : Memory) (o : Nat) : List Byte → Memory
  | [] => m
  | b :: s => Memory.writeBytes (m.write o b) (o + 1) s

/-- MemWrite(B + o, n, v) (R53). -/
def memWrite (m : Memory) (o n v : Nat) : Memory := m.writeBytes o (leBytes n v)

/-- The cells of bytes at rising offsets from o. -/
def cellsFrom (o : Nat) : List Byte → Memory
  | [] => []
  | b :: s => (o, b) :: cellsFrom (o + 1) s

/-- A buffer that holds exactly these bytes, from offset 0: `B <- s`. -/
def bufferOf (s : List Byte) : Memory := cellsFrom 0 s

/-! ### Returning a result -/

/-- `return X` (R12, R33, R207): STATUS gets the code of X, and X is the value returned. -/
def returnResult (x : Result) (s : State) : State :=
  { s with status := statusOf x, result := x }

/-- The values an outcome gives the four result registers of the decoder; none where it defines none (R33). -/
structure RxDefines where
  errInfo : Option Byte
  rxSeq : Option Bits16
  rxLen : Option Bits32
  rxCode : Option Byte
  deriving DecidableEq, Repr

/-- An outcome that defines nothing but STATUS (R33). -/
def definesNothing : RxDefines := ⟨none, none, none, none⟩

/-- Write ERRINFO, RX_SEQ, RX_LEN and RX_CODE as an outcome defines them; one it does not define becomes unspecified
(R33): a free value (log 2). -/
def defineRx (d : RxDefines) (s : State) : State :=
  { s with
    errInfo := d.errInfo.getD (Config.freeErrInfo s.draws)
    rxSeq := d.rxSeq.getD (Config.freeRxSeq s.draws)
    rxLen := d.rxLen.getD (Config.freeRxLen s.draws)
    rxCode := d.rxCode.getD (Config.freeRxCode s.draws)
    draws := s.draws + 1 }

/-- RX_NEED and RX_CNT between operations: unspecified (R26), free values (log 2). -/
def forgetCounts (s : State) : State :=
  { s with
    rxNeed := Config.freeRxNeed s.draws
    rxCnt := Config.freeRxCnt s.draws
    draws := s.draws + 1 }

/-! ### The transport -/

/-- The bytes that one TransportWrite of `bytes` puts on the line (R57): all of them, or a prefix on an error. -/
def reachedLine (bytes : List Byte) : WriteAnswer → List Byte
  | .ok => bytes
  | .error reached => bytes.take reached

/-- The answer to the next TransportWrite: the first that State lists, a free one where it lists none (log 5). -/
def nextWriteAnswer (s : State) : WriteAnswer :=
  match s.writeAnswers with
  | a :: _ => a
  | [] => Config.transportWrite s.draws

/-- TransportWrite (R57): one write of the bytes. -/
def transportWrite (bytes : List Byte) (s : State) : State :=
  { s with
    writeAnswers := s.writeAnswers.tail
    sent := s.sent ++ [reachedLine bytes (nextWriteAnswer s)]
    draws := s.draws + 1 }

/-- Where State lists no answer to the next TransportRead, a free one is drawn (R58, log 5). -/
def drawReadAnswer (s : State) : State :=
  match s.readAnswers with
  | [] => { s with readAnswers := [Config.transportRead s.draws], draws := s.draws + 1 }
  | _ :: _ => s

/-- Bytes cut into chunks of these sizes and a last one with the rest. -/
def chop : List Nat → List Byte → List (List Byte)
  | [], s => [s]
  | k :: ks, s => s.take k :: chop ks (s.drop k)

/-- What waits on the line once these chunks have arrived behind it. Where `join` is set the first of them is delivered
in one chunk with the last that waits: R58 lets a chunk end anywhere, beyond the frame or the arrival it begins in among it. -/
def appendChunks (join : Bool) (waiting : List ReadAnswer) (chunks : List (List Byte)) : List ReadAnswer :=
  match join, waiting.getLast?, chunks with
  | true, some (.chunk c), d :: later => waiting.dropLast ++ ((c ++ d) :: later).map .chunk
  | _, _, _ => waiting ++ chunks.map .chunk

/-- Bytes arrive on the inbound line and wait in the transport for later TransportReads, in order (R58, R209). Where the
chunks are cut is free, and so is whether one of them runs from the bytes that waited into the ones that arrive, so that
arrivals one after another may come in any chunks (log 9). Nothing else changes. -/
def arrive (bytes : List Byte) (s : State) : State :=
  { s with
    readAnswers :=
      appendChunks (Config.joinsWaiting s.draws) s.readAnswers (chop (Config.chunking s.draws) bytes)
    draws := s.draws + 1 }

/-- A later TransportRead will answer with an error: a read failure or a timeout (R59). -/
def readError (s : State) : State := { s with readAnswers := s.readAnswers ++ [.error] }

/-! ### Events of the host that are no operation -/

/-- The host places bytes in RXBUF[0:n) (R50, R234); the other bytes of RXBUF stay. Past BUF_CAP there are no offsets. -/
def loadRxbuf (bytes : List Byte) (s : State) : Host.Outcome State Fault Refusal :=
  if bytes.length ≤ bufCap then .next { s with rxbuf := s.rxbuf.writeBytes 0 bytes }
  else .fault .noSuchOffset

/-- The reset event, the creation of a session (R230): SEQ, CRC_VALID, STATUS and TX_LEN at their values, every other piece
of the block's state unspecified (R36), here a free value. It sends and reads nothing, and it is not DEV_RESET or SEQ.RST. -/
def newSession (s : State) : State :=
  { forgetCounts (defineRx definesNothing s) with
    seq := seqReset
    crc := Config.freeCrc s.draws
    crcValid := false
    matchFlag := Config.freeMatch s.draws
    status := 0x00#8
    rxbuf := []
    txLen := 0#33
    txbuf := []
    result := .ok
    pending := none }

end Sys2Proof.Machine
end

