-- ==== Sys2Proof/Machine/Codec.lean ====
section
/-! DEFINITION. The frame codec as pure functions: the encoder (spec/41_frame_encode.md R130, R135), the frame-level decoder
(spec/42_frame_decode.md R140) and the reply-code split (R147, R191). -/

namespace Sys2Proof.Machine

/-- The frame of ENCODE (R130). -/
def encodeFrame (p : Crcp) (seqno : Bits16) (payload : List Byte) : List Byte :=
  frameBytes seqno payload
    (crc16 p (frameHeader seqno (BitVec.ofNat 32 payload.length) ++ payload))

/-- Byte i of the frame as a streaming encoder emits it (R135), with the CRC field c. -/
def encByte (seqno : Bits16) (payload : List Byte) (c : Bits16) (i : Nat) : Byte :=
  let n : Bits32 := BitVec.ofNat 32 payload.length
  if i = 0 then startByte
  else if i = 1 then seqno.extractLsb' 0 8
  else if i = 2 then seqno.extractLsb' 8 8
  else if i ≤ 6 then n.extractLsb' (8 * (i - 3)) 8
  else if i = 7 then tokenByte
  else if i < 8 + payload.length then payload.getD (i - 8) 0#8
  else if i = 8 + payload.length then c.extractLsb' 0 8
  else c.extractLsb' 8 8

/-- The streaming encoder's internal accumulator a_i (R135). -/
def encAccumulator (p : Crcp) (seqno : Bits16) (payload : List Byte) : Nat → Bits16
  | 0 => p.init
  | i + 1 => crcStep p (encAccumulator p seqno payload i) (encByte seqno payload 0#16 i)

/-- The frame's length by its own length field: 8 + N + 2, exact (R87, R144, D14). -/
def frameTotal (len : Bits32) : Nat := hdrLen + len.toNat + crcLen

/-- FDEC of the n bytes of a source (R140), the six steps in order; none where a byte that it must read is not there. -/
def decodeFrame (p : Crcp) (src : Nat → Option Byte) (n : Nat) : Option (Except FrameError FrameParts) :=
  if n = 0 then some (.error .incomplete)
  else (memRead1 src 0).bind fun start =>
    if start ≠ startByte then some (.error .badStart)
    else if n < hdrLen then some (.error .incomplete)
    else (memRead2 src 1).bind fun seqno => (memRead4 src 3).bind fun len => (memRead1 src 7).bind fun token =>
      if token ≠ tokenByte then some (.error .badToken)
      else if n < frameTotal len then some (.error .incomplete)
      else (readSpan src 0 (frameTotal len - crcLen)).bind fun covered =>
        (memRead2 src (frameTotal len - crcLen)).bind fun field =>
          if crc16 p covered ≠ field then some (.error .crcMismatch)
          else some (.ok ⟨seqno, len, covered.drop hdrLen⟩)

/-- FDEC of a byte sequence. The sequence has every byte that decodeFrame reads (R151), so `Incomplete` stands for
nothing here (Laws/Codec.lean shows it). -/
def decodeBytes (p : Crcp) (raw : List Byte) : Except FrameError FrameParts :=
  (decodeFrame p (ofList raw) raw.length).getD (.error .incomplete)

/-- REPLY_CLASS (R8, R191). -/
def replyClass (p : Params) (code : Byte) : ReplyClass :=
  match p.replies.find? fun e => e.1 == code with
  | some e => e.2
  | none => .unknown

/-- What DECODE finds (R147): an error that defines nothing, an unknown reply code, or a reply. -/
inductive Decoded where
  | error (e : FrameError)
  | unknown (f : FrameParts) (code : Byte)
  | reply (f : FrameParts) (r : Reply)
  deriving DecidableEq, Repr

/-- DECODE after FDEC (R147 to R149). -/
def splitReply (p : Params) : Except FrameError FrameParts → Decoded
  | .error e => .error e
  | .ok f =>
    match f.payload with
    | [] => .error .emptyPayload
    | code :: data =>
      if replyClass p code = .unknown then .unknown f code
      else .reply f ⟨code, replyClass p code, data⟩

/-- The registers that DECODE's or RECEIVE's outcome defines (R33, R152). -/
def decodedDefines : Decoded → RxDefines
  | .error _ => definesNothing
  | .unknown f code => ⟨some code, some f.seqno, some f.len, some code⟩
  | .reply f r => ⟨none, some f.seqno, some f.len, some r.code⟩

/-- The result of DECODE (R147). -/
def decodeResult : Decoded → Result
  | .error e => .frameError e
  | .unknown _ code => .frameError (.unknownReply code)
  | .reply f r => .decoded f.seqno r

/-- The registers that FDEC's outcome defines (R33). -/
def framedDefines : Except FrameError FrameParts → RxDefines
  | .error _ => definesNothing
  | .ok f => ⟨none, some f.seqno, some f.len, none⟩

/-- The result of FDEC (R140). -/
def framedResult : Except FrameError FrameParts → Result
  | .error e => .frameError e
  | .ok f => .framed f.seqno f.payload

end Sys2Proof.Machine
end

