-- ==== Sys2Proof/Machine/Operands.lean ====
section
/-! DEFINITION. Operand forms: raw = RXBUF[0:n) of FDEC and DECODE (spec/30_encoding.md R92), and the command payloads of the
pseudo-operations (spec/44_session_pseudo_ops.md R181 to R188). -/

namespace Sys2Proof.Machine

/-- FDEC's reading of RXBUF[0:n); none where it must read a byte that nothing has written. -/
def decodeRxbuf (s : State) (n : Bits33) : Option (Except FrameError FrameParts) :=
  decodeFrame s.params.crcp s.rxbuf.read n.toNat

/-- MEMARGS(addr) (R182): memory type, count 1, address, the widths OPEN (D29). -/
def memArgs (p : Params) (addr : Bits16) : List Byte :=
  memtypeSram :: leBytes p.countBytes 1 ++ leBytes p.addrBytes addr.toNat

/-- The command payload of SIGN_ON (R181). -/
def signOnCommand : List Byte := [cmdSignOn]

/-- The command payload of READ_RAM_BYTE (R182). -/
def readCommand (p : Params) (addr : Bits16) : List Byte := p.cmdReadMemory :: memArgs p addr

/-- The command payload of WRITE_RAM_BYTE (R183). -/
def writeCommand (p : Params) (addr : Bits16) (value : Byte) : List Byte :=
  p.cmdWriteMemory :: memArgs p addr ++ [value]

/-- addr + i of READ_RANGE (R193); past 0xFFFF the spec does not say, and the address is free (N26, log 12). -/
def rangeAddr (addr : Bits16) (i : Nat) : Bits16 :=
  if addr.toNat + i < 2 ^ 16 then addr + BitVec.ofNat 16 i else Config.rangeAddrPast addr i

end Sys2Proof.Machine
end

