-- ==== Sys2Proof/Machine/Crc.lean ====
section
/-! DEFINITION. The CRC unit's operations (spec/40_crc.md R112 to R115). -/

namespace Sys2Proof.Machine

/-- CRC.INIT (R112). -/
def execCrcInit (s : State) : Host.Outcome State Fault Refusal :=
  .next (returnResult .ok { s with crc := s.params.crcp.init, crcValid := true })

/-- CRC.UPD b (R113). -/
def execCrcUpd (b : Byte) (s : State) : Host.Outcome State Fault Refusal :=
  if s.crcValid then .next (returnResult .ok { s with crc := crcStep s.params.crcp s.crc b })
  else .refused .crcNotInitialised

/-- CRC.GET (R114). -/
def execCrcGet (s : State) : Host.Outcome State Fault Refusal :=
  if s.crcValid then .next (returnResult (.crcValue (crcFinal s.params.crcp s.crc)) s)
  else .refused .crcNotInitialised

/-- CRC.CHK lo, hi (R115). -/
def execCrcChk (lo hi : Byte) (s : State) : Host.Outcome State Fault Refusal :=
  if s.crcValid then
    .next (returnResult (.checked (crcMatches s.params.crcp s.crc lo hi))
      { s with matchFlag := crcMatches s.params.crcp s.crc lo hi })
  else .refused .crcNotInitialised

end Sys2Proof.Machine
end

