-- ==== Sys2Proof/Machine/Decoder.lean ====
section
/-! DEFINITION. The DEC unit's operations (spec/42_frame_decode.md R140 to R152). RXBUF is read, never written (R152). -/

namespace Sys2Proof.Machine

/-- FDEC n (R140). -/
def execFdec (n : Bits33) (s : State) : Host.Outcome State Fault Refusal :=
  match decodeRxbuf s n with
  | none => .fault .unwrittenByte
  | some r => .next (returnResult (framedResult r) (defineRx (framedDefines r) s))

/-- DECODE n (R147). -/
def execDecode (n : Bits33) (s : State) : Host.Outcome State Fault Refusal :=
  match decodeRxbuf s n with
  | none => .fault .unwrittenByte
  | some r =>
    .next (returnResult (decodeResult (splitReply s.params r))
      (defineRx (decodedDefines (splitReply s.params r)) s))

end Sys2Proof.Machine
end

