-- ==== Sys2Proof/Machine/Encoder.lean ====
section
/-! DEFINITION. The ENC unit's operation (spec/41_frame_encode.md R130 to R136). -/

namespace Sys2Proof.Machine

/-- TXBUF[0 : TX_LEN) <- frame (R130). What TXBUF held before is no longer meaningful (R29): the buffer holds the frame
alone. -/
def writeTxbuf (frame : List Byte) (s : State) : State :=
  { s with txbuf := bufferOf frame, txLen := BitVec.ofNat 33 frame.length }

/-- ENCODE seqno, payload (R130); a payload over 2^32 - 1 bytes is refused (R134). -/
def execEncode (seqno : Bits16) (payload : List Byte) (s : State) : Host.Outcome State Fault Refusal :=
  if fitsPayload payload.length then
    .next (returnResult (.encoded (encodeFrame s.params.crcp seqno payload))
      (writeTxbuf (encodeFrame s.params.crcp seqno payload) s))
  else .refused .payloadTooLong

end Sys2Proof.Machine
end

