-- ==== Sys2Proof/Machine/Channel.lean ====
section
/-! DEFINITION. The CHN unit (spec/43_channel.md R160 to R176): SEND, the length-aware RECEIVE, the sequence number. -/

namespace Sys2Proof.Machine

/-! ### SEND -/

/-- The result of SEND (R160). -/
def sendResult : WriteAnswer → Result
  | .ok => .ok
  | .error _ => .transportError

/-- SEND data (R160): encode with SEQ, write the whole frame once. -/
def sendFrame (data : List Byte) (s : State) : State :=
  returnResult (sendResult (nextWriteAnswer s))
    (transportWrite (encodeFrame s.params.crcp s.seq data)
      (writeTxbuf (encodeFrame s.params.crcp s.seq data) s))

/-- SEND data; over 2^32 - 1 bytes it is refused (R134, U14). -/
def execSend (data : List Byte) (s : State) : Host.Outcome State Fault Refusal :=
  if fitsPayload data.length then .next (sendFrame data s) else .refused .payloadTooLong

/-! ### RECEIVE -/

/-- RX_NEED once the bytes `acc` are buffered (R163, R165): the frame's total as soon as 7 are there, before that the
estimate as it was. -/
def needAfter (acc : List Byte) (need : Nat) : Nat :=
  if lenKnownAt ≤ acc.length then
    match memRead4 (ofList acc) 3 with
    | some len => frameTotal len
    | none => need
  else need

/-- How far the loop of R163 gets with the answers at hand. -/
inductive Reassembly where
  /-- A read failed; the answers after it are left (R169). -/
  | noReply (rest : List ReadAnswer)
  /-- The whole frame is there, trimmed; the answers after its last chunk are left (R166). -/
  | complete (frame : List Byte) (rest : List ReadAnswer)
  /-- The answers ran out: RECEIVE waits in TransportRead (R175). -/
  | waiting (acc : List Byte) (need : Nat)
  deriving DecidableEq, Repr

/-- The loop of R163 (R164 to R166), one turn for each answer of the transport. -/
def reassemble : List ReadAnswer → List Byte → Nat → Reassembly
  | [], acc, need => .waiting acc need
  | .error :: rest, _, _ => .noReply rest
  | .chunk c :: rest, acc, need =>
    if lenKnownAt ≤ (acc ++ c).length ∧ needAfter (acc ++ c) need ≤ (acc ++ c).length then
      .complete ((acc ++ c).take (needAfter (acc ++ c) need)) rest
    else reassemble rest (acc ++ c) (needAfter (acc ++ c) need)

/-- The result of RECEIVE for a decoded frame (R163, R167, R168): the seqno is compared after all else. -/
def receiveResult (seq : Bits16) : Decoded → Result
  | .error e => .corrupt e
  | .unknown _ code => .corrupt (.unknownReply code)
  | .reply f r => if f.seqno = seq then .received r else .seqMismatch

/-- RXBUF after RECEIVE: the frame on Ok; on an error the outcome does not define it (R33), and it is unwritten
(log 22). -/
def receivedBuffer (frame : List Byte) : Result → Memory
  | .received _ => bufferOf frame
  | _ => []

/-- RECEIVE returns: RX_NEED and RX_CNT live only inside it (R26). -/
def endReceive (x : Result) (d : RxDefines) (buf : Memory) (s : State) : State :=
  returnResult x { forgetCounts (defineRx d s) with rxbuf := buf, pending := none }

/-- RECEIVE with the whole frame: DECODE of exactly that prefix, then the seqno check (R163, R166 to R168). -/
def receiveFrame (frame : List Byte) (s : State) : State :=
  let d := splitReply s.params (decodeBytes s.params.crcp frame)
  let x := receiveResult s.seq d
  endReceive x (decodedDefines d) (receivedBuffer frame x) s

/-- RECEIVE after a failed read (R169): the bytes accumulated are discarded. -/
def receiveNothing (s : State) : State := endReceive .noReply definesNothing [] s

/-- A RECEIVE that has returned, or waits with RXBUF, RX_CNT and RX_NEED as far as they are. -/
inductive Phase where
  | done (s : State)
  | waits (s : State)
  deriving DecidableEq, Repr

/-- RECEIVE from the bytes accumulated so far, through the answers at hand (R163). -/
def receiveFrom (acc : List Byte) (need : Nat) (s : State) : Phase :=
  match reassemble s.readAnswers acc need with
  | .noReply rest => .done (receiveNothing { s with readAnswers := rest })
  | .complete frame rest => .done (receiveFrame frame { s with readAnswers := rest })
  | .waiting acc need =>
    .waits { s with
      readAnswers := []
      rxbuf := bufferOf acc
      rxCnt := BitVec.ofNat 33 acc.length
      rxNeed := BitVec.ofNat 33 need }

/-- RECEIVE from its start: an empty buffer and the estimate 7 (R163, R164). -/
def receiveStart (s : State) : Phase := receiveFrom [] lenKnownAt s

/-- A RECEIVE that waits is resumed with the transport's next answer (R163). -/
def receiveResume (s : State) : Option Phase :=
  (readSpan s.rxbuf.read 0 s.rxCnt.toNat).map fun acc =>
    receiveFrom acc s.rxNeed.toNat (drawReadAnswer s)

/-- What follows a RECEIVE: the task's end when it has returned; else the machine waits, with the task noted. -/
def afterReceive (task : Task) (k : State → Host.Outcome State Fault Refusal) :
    Phase → Host.Outcome State Fault Refusal
  | .done s => k s
  | .waits s => .next { s with pending := some task }

/-- RECEIVE (R163). -/
def execReceive (s : State) : Host.Outcome State Fault Refusal :=
  afterReceive .receive .next (receiveStart s)

/-! ### The sequence number -/

/-- SEQ.ADV's effect (R171): 16 bits, 0xFFFF wraps to 0 (D8). -/
def advanceSeq (s : State) : State := returnResult .ok { s with seq := s.seq + 1#16 }

/-- SEQ.ADV (R171). -/
def execSeqAdv (s : State) : Host.Outcome State Fault Refusal := .next (advanceSeq s)

/-- SEQ.RST (R172). -/
def execSeqRst (s : State) : Host.Outcome State Fault Refusal :=
  .next (returnResult .ok { s with seq := seqReset })

end Sys2Proof.Machine
end

