-- ==== Sys2Proof/Machine/Session.lean ====
section
/-! DEFINITION. The pseudo-operations (spec/44_session_pseudo_ops.md R180 to R193): EXCHANGE and what each call makes of it.
SEQ is changed nowhere in an exchange (R180, R190). -/

namespace Sys2Proof.Machine

/-- The end of an exchange that expects the kind `expect` (R180): a device failure, then an unexpected kind, carries the
code; the host's software writes STATUS and ERRINFO (R205). -/
def classify (expect : SuccessKind) (s : State) : State :=
  match s.result with
  | .received r =>
    match r.cls with
    | .deviceFailure _ => returnResult (.deviceError r.code) { s with errInfo := r.code }
    | .success k =>
      if k = expect then s else returnResult (.unexpectedReply r.code) { s with errInfo := r.code }
    | .unknown => returnResult (.unexpectedReply r.code) { s with errInfo := r.code }
  | _ => s

/-- WRITE_RAM_BYTE's end (R183): Ok with no value. -/
def endWriteByte (s : State) : State :=
  match (classify .ok s).result with
  | .received _ => returnResult .ok (classify .ok s)
  | _ => classify .ok s

/-- READ_RAM_BYTE's end (R182): the first data byte, the rest dropped; none is a fault (U16). -/
def endReadByte (s : State) : Host.Outcome State Fault Refusal :=
  match (classify .memory s).result with
  | .received r =>
    match r.data with
    | b :: _ => .next (returnResult (.byteRead b) (classify .memory s))
    | [] => .fault .noDataByte
  | _ => .next (classify .memory s)

/-- EXCHANGE(cmd, ·) (R180): SEND; on Ok, RECEIVE; then the task's end. -/
def exchange (task : Task) (cmd : List Byte) (k : State → Host.Outcome State Fault Refusal) (s : State) :
    Host.Outcome State Fault Refusal :=
  if fitsPayload cmd.length then
    match nextWriteAnswer s with
    | .error _ => .next (sendFrame cmd s)
    | .ok => afterReceive task k (receiveStart (sendFrame cmd s))
  else .refused .payloadTooLong

/-- buf[i] <- READ_RAM_BYTE(...) (R193), then `k`. A byte that fails ends the range with its error (R207, log 12). -/
def endRangeByte (i : Nat) (k : State → Host.Outcome State Fault Refusal) (s : State) :
    Host.Outcome State Fault Refusal :=
  match endReadByte s with
  | .next t =>
    match t.result with
    | .byteRead b => k { t with callerBuf := t.callerBuf.write i b }
    | _ => .next t
  | .fault r => .fault r
  | .refused r => .refused r

/-- The host's SEQ.ADV between two bytes of a range, where it issues one (R190, N26). -/
def betweenBytes (advance : Bool) (left : Nat) (s : State) : State :=
  if advance && left != 0 then advanceSeq s else s

/-- READ_RANGE from byte i with `left` bytes to read (R193): one exchange a byte. -/
def rangeFrom (addr : Bits16) (advance : Bool) : Nat → Nat → State → Host.Outcome State Fault Refusal
  | 0, _, s => .next (returnResult .rangeRead s)
  | left + 1, i, s =>
    exchange (.range addr i left advance) (readCommand s.params (rangeAddr addr i))
      (endRangeByte i fun t => rangeFrom addr advance left (i + 1) (betweenBytes advance left t)) s

/-- What is done when the RECEIVE of a task has returned. -/
def endTask : Task → State → Host.Outcome State Fault Refusal
  | .receive, s => .next s
  | .exchange expect, s => .next (classify expect s)
  | .writeByte, s => .next (endWriteByte s)
  | .readByte, s => endReadByte s
  | .range addr i left advance, s =>
    endRangeByte i (fun t => rangeFrom addr advance left (i + 1) (betweenBytes advance left t)) s

/-- A step of the machine while a RECEIVE waits: the transport answers (R163). -/
def resume (task : Task) (s : State) : Host.Outcome State Fault Refusal :=
  match receiveResume s with
  | some phase => afterReceive task (endTask task) phase
  | none => .fault .unwrittenByte

/-- A call that is one exchange and returns the reply (R180). -/
def exchangeFor (expect : SuccessKind) (cmd : List Byte) (s : State) : Host.Outcome State Fault Refusal :=
  exchange (.exchange expect) cmd (endTask (.exchange expect)) s

/-- SIGN_ON (R181). -/
def execSignOn (s : State) : Host.Outcome State Fault Refusal := exchangeFor .signOn signOnCommand s

/-- READ_RAM_BYTE addr (R182). -/
def execReadRamByte (addr : Bits16) (s : State) : Host.Outcome State Fault Refusal :=
  exchange .readByte (readCommand s.params addr) (endTask .readByte) s

/-- WRITE_RAM_BYTE addr, value (R183). -/
def execWriteRamByte (addr : Bits16) (value : Byte) (s : State) : Host.Outcome State Fault Refusal :=
  exchange .writeByte (writeCommand s.params addr value) (endTask .writeByte) s

/-- SET_PARAM (R184). -/
def execSetParam (args : List Byte) (s : State) : Host.Outcome State Fault Refusal :=
  exchangeFor s.params.expectSetParam (s.params.cmdSetParameter :: args) s

/-- GET_PARAM (R185). -/
def execGetParam (args : List Byte) (s : State) : Host.Outcome State Fault Refusal :=
  exchangeFor s.params.expectGetParam (s.params.cmdGetParameter :: args) s

/-- ENTER_PROG_MODE (R186). -/
def execEnterProgMode (args : List Byte) (s : State) : Host.Outcome State Fault Refusal :=
  exchangeFor s.params.expectEnterProgMode (s.params.cmdEnterProgmode :: args) s

/-- DEV_RESET (R187): a command to the device; the block's own state is not reset. -/
def execDevReset (args : List Byte) (s : State) : Host.Outcome State Fault Refusal :=
  exchangeFor s.params.expectReset (s.params.cmdReset :: args) s

/-- SET_DEVICE_DESCRIPTOR (R188). -/
def execSetDeviceDescriptor (args : List Byte) (s : State) : Host.Outcome State Fault Refusal :=
  exchangeFor s.params.expectSetDeviceDescriptor (s.params.cmdSetDeviceDescriptor :: args) s

/-- READ_RANGE addr, count (R193). -/
def execReadRange (addr : Bits16) (count : Nat) (advance : Bool) (s : State) : Host.Outcome State Fault Refusal :=
  rangeFrom addr advance count 0 s

end Sys2Proof.Machine
end

