-- ==== Sys2Proof/Machine/Wire.lean ====
section
/-! DEFINITION. The wire frame of the opcode table (spec/30_encoding.md R80) as an instruction: the device puts one frame on
the inbound line, where its bytes wait until a RECEIVE reads them (spec/60_exceptions.md R209, spec/10_state.md R34). -/

namespace Sys2Proof.Machine

/-- FRAME (R80, R209): the frame's bytes join the inbound stream; the block's own state is unchanged. DEDUCED (log 9). -/
def execFrame (seqno : Bits16) (payload : List Byte) (crcField : Bits16) (s : State) :
    Host.Outcome State Fault Refusal :=
  if fitsPayload payload.length then .next (arrive (frameBytes seqno payload crcField) s)
  else .refused .payloadTooLong

end Sys2Proof.Machine
end

