-- ==== Sys2Proof/Machine/Dispatch.lean ====
section
/-! DEFINITION. One arm for each row of the opcode table. -/

namespace Sys2Proof.Machine

open Sys2Proof

def exec (i : Instr) (s : State) : Host.Outcome State Fault Refusal :=
  match i with
  | .crcInit => Sys2Proof.Machine.execCrcInit s
  | .crcUpd b => Sys2Proof.Machine.execCrcUpd b s
  | .crcGet => Sys2Proof.Machine.execCrcGet s
  | .crcChk lo hi => Sys2Proof.Machine.execCrcChk lo hi s
  | .encode seqno payload => Sys2Proof.Machine.execEncode seqno payload s
  | .fdec n => Sys2Proof.Machine.execFdec n s
  | .decode n => Sys2Proof.Machine.execDecode n s
  | .send data => Sys2Proof.Machine.execSend data s
  | .receive => Sys2Proof.Machine.execReceive s
  | .seqAdv => Sys2Proof.Machine.execSeqAdv s
  | .seqRst => Sys2Proof.Machine.execSeqRst s
  | .frame seqno payload crcField => Sys2Proof.Machine.execFrame seqno payload crcField s
  | .signOn => Sys2Proof.Machine.execSignOn s
  | .readRamByte addr => Sys2Proof.Machine.execReadRamByte addr s
  | .writeRamByte addr value => Sys2Proof.Machine.execWriteRamByte addr value s
  | .setParam args => Sys2Proof.Machine.execSetParam args s
  | .getParam args => Sys2Proof.Machine.execGetParam args s
  | .enterProgMode args => Sys2Proof.Machine.execEnterProgMode args s
  | .devReset args => Sys2Proof.Machine.execDevReset args s
  | .setDeviceDescriptor args => Sys2Proof.Machine.execSetDeviceDescriptor args s
  | .readRange addr count advance => Sys2Proof.Machine.execReadRange addr count advance s

end Sys2Proof.Machine
end

