-- ==== Sys2Proof/Machine/Fetch.lean ====
section
/-! DEFINITION. Fetching: the block has no program counter (spec/10_state.md R27), and what runs next is the agenda's first
event. Bytes that arrive do so whatever the block is at (spec/60_exceptions.md R209). While a RECEIVE waits the host can
issue nothing (spec/20_memory.md R61, R62), and what happens next is the transport's answer. With nothing to do the block
waits (spec/70_reset_and_hazards.md R230). -/

namespace Sys2Proof.Machine

/-- The agenda's first event is over, or what is left of it stands first. -/
def State.advance (s : State) (more : Option Event) : State :=
  { s with agenda := more.toList ++ s.agenda.tail }

/-- Bytes arrive on the line: a whole frame is the instruction FRAME, other bytes arrive as they are (R58). -/
def stepWire (bytes : List Byte) (s : State) : Host.Outcome State Fault Refusal :=
  match decodeEvent (.wire bytes) with
  | some (i, more) => exec i (s.advance more)
  | none => .next (arrive bytes (s.advance none))

/-- The host's next operation at the port: refused by name where the bytes are none (R94). -/
def stepPort (bytes : List Byte) (s : State) : Host.Outcome State Fault Refusal :=
  match decodePort bytes with
  | .ok (i, []) => exec i (s.advance none)
  | .ok (i, more) => exec i (s.advance (some (.port more)))
  | .error e => .refused (.notAnOperation e)

/-- The first event of the agenda happens, in the state s. -/
def stepEvent (e : Event) (s : State) : Host.Outcome State Fault Refusal :=
  match e with
  | .port [] => .next (s.advance none)
  | .port bytes => stepPort bytes s
  | .load bytes => loadRxbuf bytes (s.advance none)
  | .call i => exec i (s.advance none)
  | .newSession => .next (newSession (s.advance none))
  | .wire bytes => stepWire bytes s
  | .timeout => .next (readError (s.advance none))

/-- Whether an event is the environment's: it happens also while a RECEIVE waits. -/
def Event.ofLine : Event → Bool
  | .wire _ => true
  | .timeout => true
  | .port _ => false
  | .load _ => false
  | .call _ => false
  | .newSession => false

/-- What happens next. -/
def stepNext (s : State) : Host.Outcome State Fault Refusal :=
  match s.agenda, s.pending with
  | [], none => .next s
  | [], some task => resume task s
  | e :: _, none => stepEvent e s
  | e :: _, some task => if Event.ofLine e then stepEvent e s else resume task s

/-- The state with the table's word presented next, and no RECEIVE in progress. -/
def presentWord (s : State) (nbits w : Nat) : State :=
  { s with agenda := tableEvent nbits w :: s.agenda, pending := none }

end Sys2Proof.Machine
end

