-- ==== Sys2Proof/Machine/Step.lean ====
section
/-! DEFINITION. One step of the machine. -/

namespace Sys2Proof.Machine

/-- One step: what happens next (Machine/Fetch.lean). -/
def step (s : State) : Host.Outcome State Fault Refusal := stepNext s

/-- The state whose very next step runs the opcode table's word w of nbits bits. -/
def State.withFetchWord (s : State) (nbits w : Nat) : State := presentWord s nbits w

end Sys2Proof.Machine
end

