-- ==== Sys2Proof/Safety.lean ====
section
/-! DEFINITION. The invariant of the machine, in the terms the statements use, and what a safe run is. -/

namespace Sys2Proof.Machine

/-- The STATUS values of spec/60_exceptions.md R205; "All other STATUS values are never written". -/
def legalStatus : List Byte :=
  [0x00#8, 0x01#8, 0x02#8, 0x03#8, 0x04#8, 0x05#8, 0x06#8, 0x10#8, 0x11#8, 0x12#8, 0x21#8, 0x22#8, 0x24#8, 0x25#8,
   0x26#8, 0x30#8, 0x31#8]

/-- A RECEIVE that waits: RXBUF holds exactly the RX_CNT bytes accumulated, RX_NEED is the estimate they give, and the
frame is not complete (R163 to R166). -/
def waitingWell (s : State) : Prop :=
  ∃ acc : List Byte, s.rxbuf = bufferOf acc ∧ s.rxCnt.toNat = acc.length ∧
    s.rxNeed.toNat = needAfter acc lenKnownAt ∧
    ¬ (lenKnownAt ≤ acc.length ∧ needAfter acc lenKnownAt ≤ acc.length)

/-- A code that the value last returned carries is in ERRINFO (R24, R205). -/
def codeInErrInfo (s : State) : Prop :=
  match s.result with
  | .frameError (.unknownReply c) => s.errInfo = c
  | .corrupt (.unknownReply c) => s.errInfo = c
  | .deviceError c => s.errInfo = c
  | .unexpectedReply c => s.errInfo = c
  | _ => True

/-- What every step keeps, from whatever state has it. -/
structure Inv (s : State) : Prop where
  /-- RXBUF is in canonical form, inside its capacity (R50). -/
  rxbuf_wf : s.rxbuf.wf
  rxbuf_within : s.rxbuf.within bufCap
  /-- TXBUF is in canonical form and holds exactly the TX_LEN bytes of the last frame (R29). -/
  txbuf_wf : s.txbuf.wf
  txbuf_filled : ∃ frame : List Byte, s.txbuf = bufferOf frame ∧ s.txLen.toNat = frame.length ∧ frame.length ≤ bufCap
  /-- The caller's buffer is in canonical form. -/
  callerBuf_wf : s.callerBuf.wf
  /-- STATUS is the code of the value last returned (R33), and one of R205's values. -/
  status_eq : s.status = statusOf s.result
  status_legal : s.status ∈ legalStatus
  /-- A code that the result carries is in ERRINFO (R205). -/
  errInfo_eq : codeInErrInfo s
  /-- A RECEIVE in progress is well (R163). -/
  pending_ok : s.pending ≠ none → waitingWell s

/-- The operations of a program, one after another, stopping at the first that stops (spec/20_memory.md R62). -/
def execAll : List Instr → State → Host.Outcome State Fault Refusal
  | [], s => .next s
  | i :: rest, s =>
    match exec i s with
    | .next t => execAll rest t
    | .fault r => .fault r
    | .refused r => .refused r

/-- The OP byte selects exactly these operations, however their operands are laid out beside it (R92, R93). -/
def opSelects (op : Byte) (is : Instr → Prop) : Prop :=
  (∀ bytes i more, decodePort (op :: bytes) = .ok (i, more) → is i) ∧
    ∀ i, is i → ∃ bytes, decodePort (op :: bytes) = .ok (i, [])

/-- The payload of the first command that a call sends (R181 to R188, R193); none for an instruction that is no call, and
for a range of no bytes. -/
def firstCommand (p : Params) : Instr → Option (List Byte)
  | .signOn => some [0x01#8]
  | .readRamByte addr => some (p.cmdReadMemory :: memArgs p addr)
  | .writeRamByte addr value => some (p.cmdWriteMemory :: memArgs p addr ++ [value])
  | .setParam args => some (p.cmdSetParameter :: args)
  | .getParam args => some (p.cmdGetParameter :: args)
  | .enterProgMode args => some (p.cmdEnterProgmode :: args)
  | .devReset args => some (p.cmdReset :: args)
  | .setDeviceDescriptor args => some (p.cmdSetDeviceDescriptor :: args)
  | .readRange addr count _ => if count = 0 then none else some (p.cmdReadMemory :: memArgs p addr)
  | .crcInit => none
  | .crcUpd _ => none
  | .crcGet => none
  | .crcChk _ _ => none
  | .encode _ _ => none
  | .fdec _ => none
  | .decode _ => none
  | .send _ => none
  | .receive => none
  | .seqAdv => none
  | .seqRst => none
  | .frame _ _ _ => none

/-- What the first RECEIVE of a call is for (R180 to R188, R193); none where firstCommand has none. -/
def firstTask (p : Params) : Instr → Option Task
  | .signOn => some (.exchange .signOn)
  | .readRamByte _ => some .readByte
  | .writeRamByte _ _ => some .writeByte
  | .setParam _ => some (.exchange p.expectSetParam)
  | .getParam _ => some (.exchange p.expectGetParam)
  | .enterProgMode _ => some (.exchange p.expectEnterProgMode)
  | .devReset _ => some (.exchange p.expectReset)
  | .setDeviceDescriptor _ => some (.exchange p.expectSetDeviceDescriptor)
  | .readRange addr count advance => if count = 0 then none else some (.range addr 0 (count - 1) advance)
  | .crcInit => none
  | .crcUpd _ => none
  | .crcGet => none
  | .crcChk _ _ => none
  | .encode _ _ => none
  | .fdec _ => none
  | .decode _ => none
  | .send _ => none
  | .receive => none
  | .seqAdv => none
  | .seqRst => none
  | .frame _ _ _ => none

/-- RXBUF[0:n) holds exactly the byte sequence raw, of length n. -/
def holdsRaw (s : State) (n : Bits33) (raw : List Byte) : Prop :=
  n.toNat = raw.length ∧ ∀ i < raw.length, s.rxbuf.read i = raw[i]?

/-- The transport answers the next TransportReads with these chunks (R58). -/
def delivers (s : State) (chunks : List (List Byte)) (later : List ReadAnswer) : Prop :=
  s.readAnswers = chunks.map ReadAnswer.chunk ++ later

/-- t is s but for STATUS, the value returned and the decoder's result registers (R32, rows FDEC and DECODE). -/
def changesOnlyRx (s t : State) : Prop :=
  t = { s with
    status := t.status, result := t.result, errInfo := t.errInfo, rxSeq := t.rxSeq, rxLen := t.rxLen,
    rxCode := t.rxCode, draws := t.draws }

/-- t is s but for what RECEIVE writes and the answers it took (R32, row RECEIVE). -/
def changesOnlyReceive (s t : State) : Prop :=
  t = { s with
    status := t.status, result := t.result, errInfo := t.errInfo, rxSeq := t.rxSeq, rxLen := t.rxLen,
    rxCode := t.rxCode, rxNeed := t.rxNeed, rxCnt := t.rxCnt, rxbuf := t.rxbuf, pending := t.pending,
    readAnswers := t.readAnswers, draws := t.draws }

/-- t is s but for what SEND and RECEIVE write (R32) and the answers they took: what an exchange changes (R180). -/
def changesOnlyExchange (s t : State) : Prop :=
  t = { s with
    status := t.status, result := t.result, errInfo := t.errInfo, rxSeq := t.rxSeq, rxLen := t.rxLen,
    rxCode := t.rxCode, rxNeed := t.rxNeed, rxCnt := t.rxCnt, rxbuf := t.rxbuf, txLen := t.txLen, txbuf := t.txbuf,
    pending := t.pending, readAnswers := t.readAnswers, writeAnswers := t.writeAnswers, sent := t.sent,
    draws := t.draws }

/-- k steps from s do not end in a fault. -/
def SafeFor (k : Nat) (s : State) : Prop :=
  ∀ r, Host.Core.run Sys2Proof.core k s ≠ .fault r

end Sys2Proof.Machine
end

