-- ==== Sys2Proof/Certificates/Slice0/Obligations.lean ====
section
/-! DEFINITION. The statements for the provers, from the numbered rules of spec/. -/

open Sys2Proof Sys2Proof.Machine

/-! ### Reset and the step -/

/-- R36: the values the spec gives after reset. -/
def Obligations.ResetValues : Prop :=
  State.reset.seq = 0x0000#16 ∧ State.reset.crcValid = false ∧ State.reset.status = 0x00#8 ∧ State.reset.txLen = 0#33

/-- The invariant holds after reset. -/
def Obligations.ResetHasTheInvariant : Prop := Inv State.reset

/-- R7, R8, R191, spec/92: the OPEN parameters after reset are legal, and REPLY_CLASS is the table `replies`: a code that it
lists with a class has that class, any other is Unknown. That they are any legal record, and no chosen one, and that
REPLY_CLASS is held as a table, is the model's (log 4). -/
def Obligations.ResetParametersAreLegal : Prop :=
  State.reset.params.legal ∧
    (∀ (p : Params) (code : Byte) (cls : ReplyClass), (p.replies.map Prod.fst).Nodup → (code, cls) ∈ p.replies →
      replyClass p code = cls) ∧
    ∀ (p : Params) (code : Byte), code ∉ p.replies.map Prod.fst → replyClass p code = .unknown

/-- Every step keeps the invariant: the buffers keep their form, TXBUF holds the TX_LEN bytes of one frame, STATUS is the
code of the result and one of R205's values, an error that carries a code has it in ERRINFO, and a waiting RECEIVE stays
well. -/
def Obligations.StepKeepsTheInvariant : Prop :=
  ∀ s t : State, Inv s → step s = .next t → Inv t

/-- R205: the STATUS codes; no instruction writes another value, and a code that an error carries is in ERRINFO. -/
def Obligations.StatusCodes : Prop :=
  (statusOf (.frameError .badStart) = 0x01#8 ∧ statusOf (.frameError .badToken) = 0x02#8 ∧
    statusOf (.frameError .incomplete) = 0x03#8 ∧ statusOf (.frameError .crcMismatch) = 0x04#8 ∧
    (∀ c, statusOf (.frameError (.unknownReply c)) = 0x05#8) ∧ statusOf (.frameError .emptyPayload) = 0x06#8 ∧
    statusOf .noReply = 0x10#8 ∧ statusOf .transportError = 0x11#8 ∧ statusOf .seqMismatch = 0x12#8 ∧
    (∀ e, statusOf (.corrupt e) = 0x20#8 + statusOf (.frameError e)) ∧
    (∀ c, statusOf (.deviceError c) = 0x30#8) ∧ (∀ c, statusOf (.unexpectedReply c) = 0x31#8) ∧
    statusOf .ok = 0x00#8) ∧
  ∀ (s t : State) (i : Instr), exec i s = .next t →
    s.status = statusOf s.result → s.status ∈ legalStatus → codeInErrInfo s →
    t.status = statusOf t.result ∧ t.status ∈ legalStatus ∧ codeInErrInfo t

/-- The event the agenda begins with presents an instruction; when no RECEIVE waits, or the event is the line's, the step
is that instruction's, with the event taken off the agenda. -/
def Obligations.StepRunsTheDecodedInstruction : Prop :=
  ∀ (s : State) (e : Event) (later : List Event) (i : Instr) (more : Option Event),
    s.agenda = e :: later → decodeEvent e = some (i, more) → i.wf = true →
    (s.pending = none ∨ Event.ofLine e = true) →
    step s = exec i { s with agenda := more.toList ++ later }

/-- R230: after reset, and whenever nothing is presented and no RECEIVE waits, the block waits. -/
def Obligations.BlockWaitsForTheHost : Prop :=
  ∀ s : State, s.agenda = [] → s.pending = none → step s = .next s

/-- R61, R62: while a RECEIVE waits, the host's next operation does not start: the agenda stands as it is, and what
happens is the transport's next answer. -/
def Obligations.HostWaitsForReceive : Prop :=
  ∀ (s t : State) (e : Event) (later : List Event) (task : Task),
    s.agenda = e :: later → Event.ofLine e = false → s.pending = some task → step s = .next t →
    t.agenda = s.agenda ∧ t.params = s.params ∧ t.crc = s.crc ∧ t.crcValid = s.crcValid ∧ t.matchFlag = s.matchFlag

/-- A waiting RECEIVE, whatever it is for and however many answers are at hand, takes the transport's answers, a free one
where none waits, in a state that keeps the invariant (that it waits over steps is the model's, log 6). It is RECEIVE with the
bytes accumulated as its first chunk, and then the task's end, or the task waits on (R163, R173). In particular: an error
ends it with NoReply, which is the end of a call too (R169, R180; RXBUF: log 22); a chunk that completes the frame ends it
with the frame's result and the registers that it defines (R33), the answers after it left (R166); a chunk that does not is
appended, and it takes the answer after it or waits on. The second part is the task's end for a reply: R180, R182, R183, R193
(the fault of a reply without data: U16, log 13; a range's policy: log 12; STATUS and ERRINFO: log 21; the Memory-reply: D25,
log 25). -/
def Obligations.WaitingReceiveTakesTheNextAnswer : Prop :=
  (∀ (s : State) (task : Task) (a : ReadAnswer) (later : List ReadAnswer), Inv s →
    (∀ e, s.agenda.head? = some e → Event.ofLine e = false) → s.pending = some task →
    (s.readAnswers = a :: later ∨ (s.readAnswers = [] ∧ Config.transportRead s.draws = a ∧ later = [])) →
    ∃ (acc : List Byte) (d : Nat) (u : State), s.rxbuf = bufferOf acc ∧
      exec .receive { s with readAnswers := .chunk acc :: a :: later, draws := d } = .next u ∧
      changesOnlyReceive s u ∧
      step s = (if u.pending = none then endTask task u else .next { u with pending := some task }) ∧
      match a with
      | .error =>
        step s = .next u ∧ u.pending = none ∧ u.result = .noReply ∧ u.status = 0x10#8 ∧ u.rxbuf = [] ∧
          u.readAnswers = later
      | .chunk c =>
        if 7 ≤ (acc ++ c).length ∧ needAfter (acc ++ c) 7 ≤ (acc ++ c).length then
          let frame := (acc ++ c).take (needAfter (acc ++ c) 7)
          let decoded := splitReply s.params (decodeBytes s.params.crcp frame)
          step s = endTask task u ∧ ((∀ r, u.result ≠ .received r) → step s = .next u) ∧ u.pending = none ∧
            u.status = statusOf u.result ∧ u.result = receiveResult s.seq decoded ∧ u.readAnswers = later ∧
            match decoded with
            | .error _ => True
            | .unknown f code => u.errInfo = code ∧ u.rxSeq = f.seqno ∧ u.rxLen = f.len ∧ u.rxCode = code
            | .reply f r =>
              u.rxSeq = f.seqno ∧ u.rxLen = f.len ∧ u.rxCode = r.code ∧ (f.seqno = s.seq → u.rxbuf = bufferOf frame)
        else if later = [] then
          step s = .next { u with pending := some task } ∧ u.pending = some .receive ∧ u.rxbuf = bufferOf (acc ++ c) ∧
            u.rxCnt.toNat = (acc ++ c).length ∧ u.rxNeed.toNat = needAfter (acc ++ c) 7 ∧ u.result = s.result ∧
            u.status = s.status ∧ u.readAnswers = []
        else
          ∃ v : State, step s = step v ∧ v = { s with
            rxbuf := bufferOf (acc ++ c), rxCnt := v.rxCnt, rxNeed := v.rxNeed, readAnswers := later } ∧
            v.rxCnt.toNat = (acc ++ c).length ∧ v.rxNeed.toNat = needAfter (acc ++ c) 7) ∧
  ∀ (u : State) (r : Reply), u.result = .received r →
    let unexpected : State := { u with errInfo := r.code, status := 0x31#8, result := .unexpectedReply r.code }
    endTask .receive u = .next u ∧
    (∀ (task : Task) (k : FailureKind), task ≠ .receive → r.cls = .deviceFailure k →
      endTask task u = .next { u with errInfo := r.code, status := 0x30#8, result := .deviceError r.code }) ∧
    ∀ k : SuccessKind, r.cls = .success k →
      (∀ expect, endTask (.exchange expect) u = .next (if k = expect then u else unexpected)) ∧
      endTask .writeByte u = .next (if k = .ok then { u with status := 0x00#8, result := .ok } else unexpected) ∧
      ∀ (addr : Bits16) (i left : Nat) (advance : Bool),
        if k = .memory then
          match r.data with
          | [] => endTask .readByte u = .fault .noDataByte ∧ endTask (.range addr i left advance) u = .fault .noDataByte
          | b :: _ =>
            endTask .readByte u = .next { u with status := 0x00#8, result := .byteRead b } ∧
              endTask (.range addr i left advance) u =
                rangeFrom addr advance left (i + 1) (betweenBytes advance left
                  { u with status := 0x00#8, result := .byteRead b, callerBuf := u.callerBuf.write i b })
        else endTask .readByte u = .next unexpected ∧ endTask (.range addr i left advance) u = .next unexpected

/-- R94: every OP value that is none of R92's is refused. -/
def Obligations.ReservedOpIsRefused : Prop :=
  ∀ (s : State) (op : Byte) (rest : List Byte) (later : List Event),
    op ∉ [0x01#8, 0x02#8, 0x03#8, 0x04#8, 0x08#8, 0x09#8, 0x0A#8, 0x10#8, 0x11#8, 0x12#8, 0x13#8] →
    s.agenda = .port (op :: rest) :: later → s.pending = none →
    step s = .refused (.notAnOperation (.reservedOp op))

/-- R230: the reset event of a later session. -/
def Obligations.NewSessionResetsTheBlock : Prop :=
  ∀ (s : State) (later : List Event), s.agenda = .newSession :: later → s.pending = none →
    ∃ t : State, step s = .next t ∧ t.seq = 0x0000#16 ∧ t.crcValid = false ∧ t.status = 0x00#8 ∧ t.txLen = 0#33 ∧
      t.sent = s.sent ∧ t.readAnswers = s.readAnswers ∧ t.writeAnswers = s.writeAnswers ∧ t.params = s.params ∧
      t.agenda = later

/-- The host places raw in RXBUF, and FDEC or DECODE finds exactly it there (R50, R234, R95). That every other byte of
RXBUF stays as it was, and that nothing else changes, is the model's choice (log 17). -/
def Obligations.LoadedBytesAreInRxbuf : Prop :=
  ∀ (s : State) (raw : List Byte) (later : List Event), s.agenda = .load raw :: later → s.pending = none →
    raw.length ≤ 2 ^ 32 + 9 →
    ∃ t : State, step s = .next t ∧ t = { s with agenda := later, rxbuf := t.rxbuf } ∧
      (∀ i < raw.length, t.rxbuf.read i = raw[i]?) ∧
      ∀ o, raw.length ≤ o → t.rxbuf.read o = s.rxbuf.read o

/-! ### Encoding -/

/-- Decoding what the encoder writes gives the instruction back, with every operand at every value. -/
def Obligations.DecodeOfEncodeIsTheInstruction : Prop :=
  ∀ i : Instr, i.wf = true → decodeEvent (encode i) = some (i, none)

/-- R92: words of the operation table decode to their operations. -/
def Obligations.TableWordsDecode : Prop :=
  decodeTableWord 8 0x01 = some .crcInit ∧ decodeTableWord 8 0x03 = some .crcGet ∧
    decodeTableWord 8 0x08 = some (.encode 0#16 []) ∧ decodeTableWord 8 0x0A = some (.decode 0#33) ∧
    decodeTableWord 8 0x11 = some .receive ∧ decodeTableWord 8 0x13 = some .seqRst ∧
    decodeTableWord 8 0x14 = none ∧
    decodeTableWord 64 0x0E0000000012341B = some (.frame 0x1234#16 [] 0#16)

/-- R92's table: the operation each OP byte selects, and its operands beside it in the table's order. The bytes they take at the port, little-endian, a bits33
in five, and that the bytes after them are the next operation's, are the model's choice (logs 7 and 20). -/
def Obligations.PortOperandsFollowTheOp : Prop :=
  ∀ rest : List Byte,
    decodePort (0x01#8 :: rest) = .ok (.crcInit, rest) ∧ decodePort (0x03#8 :: rest) = .ok (.crcGet, rest) ∧
    decodePort (0x11#8 :: rest) = .ok (.receive, rest) ∧ decodePort (0x12#8 :: rest) = .ok (.seqAdv, rest) ∧
    decodePort (0x13#8 :: rest) = .ok (.seqRst, rest) ∧
    (∀ b, decodePort (0x02#8 :: b :: rest) = .ok (.crcUpd b, rest)) ∧
    (∀ lo hi, decodePort (0x04#8 :: lo :: hi :: rest) = .ok (.crcChk lo hi, rest)) ∧
    (∀ (seqno : Bits16) (payload : List Byte), payload.length < 2 ^ 32 →
      decodePort (0x08#8 :: bytesLe16 seqno ++ bytesLe33 (BitVec.ofNat 33 payload.length) ++ payload ++ rest) =
        .ok (.encode seqno payload, rest)) ∧
    (∀ n, decodePort (0x09#8 :: bytesLe33 n ++ rest) = .ok (.fdec n, rest)) ∧
    (∀ n, decodePort (0x0A#8 :: bytesLe33 n ++ rest) = .ok (.decode n, rest)) ∧
    ∀ data : List Byte, data.length < 2 ^ 32 →
      decodePort (0x10#8 :: bytesLe33 (BitVec.ofNat 33 data.length) ++ data ++ rest) = .ok (.send data, rest)

/-- R89: the header as one match/mask pair over the 64-bit little-endian word H. -/
def Obligations.FrameHeaderIsOneMatchMaskPair : Prop :=
  ∀ b0 b1 b2 b3 b4 b5 b6 b7 : Byte,
    let h : BitVec 64 := b7 ++ b6 ++ b5 ++ b4 ++ b3 ++ b2 ++ b1 ++ b0
    (h &&& 0xFF000000000000FF#64 = 0x0E0000000000001B#64 ↔ b0 = startByte ∧ b7 = tokenByte) ∧
      h.extractLsb' 8 16 = word16 b1 b2 ∧ h.extractLsb' 24 32 = word32 b3 b4 b5 b6 ∧
      ∀ rest : List Byte,
        (h &&& 0xFF000000000000FF#64 ≠ 0x0E0000000000001B#64 →
          decodeWire (b0 :: b1 :: b2 :: b3 :: b4 :: b5 :: b6 :: b7 :: rest) = none) ∧
        ∀ payload c0 c1 more, h &&& 0xFF000000000000FF#64 = 0x0E0000000000001B#64 →
          rest = payload ++ c0 :: c1 :: more → payload.length = (h.extractLsb' 24 32).toNat →
          decodeWire (b0 :: b1 :: b2 :: b3 :: b4 :: b5 :: b6 :: b7 :: rest) =
            some (.frame (h.extractLsb' 8 16) payload (word16 c0 c1), more)

/-! ### Buffers -/

/-- R52, R53: MemRead after MemWrite of 2 and of 4 bytes gives the value; every other byte is as it was. -/
def Obligations.MemReadAfterMemWrite : Prop :=
  ∀ (m : Memory) (o : Nat) (v : Bits16) (w : Bits32) (b : Byte), m.wf →
    memRead1 (memWrite m o 1 b.toNat).read o = some b ∧
    memRead2 (memWrite m o 2 v.toNat).read o = some v ∧
    memRead4 (memWrite m o 4 w.toNat).read o = some w ∧
    (∀ a, a < o ∨ o + 1 ≤ a → (memWrite m o 1 b.toNat).read a = m.read a) ∧
    (∀ a, a < o ∨ o + 2 ≤ a → (memWrite m o 2 v.toNat).read a = m.read a) ∧
    (∀ a, a < o ∨ o + 4 ≤ a → (memWrite m o 4 w.toNat).read a = m.read a) ∧
    (memWrite m o 1 b.toNat).wf ∧ (memWrite m o 2 v.toNat).wf ∧ (memWrite m o 4 w.toNat).wf

/-- R131 to R133: the frame in TXBUF, after ENCODE and after SEND, is what the MemWrites of the header, the payload's copy and
the MemWrite of the CRC make. That they start from an empty buffer, so that no older byte of TXBUF is left past the frame, is
the model's choice (log 3). -/
def Obligations.TxbufByMemWrites : Prop :=
  ∀ (s t : State) (seqno : Bits16) (payload : List Byte),
    (exec (.encode seqno payload) s = .next t ∨ (exec (.send payload) s = .next t ∧ seqno = s.seq)) →
    (∀ o, 10 + payload.length ≤ o → t.txbuf.read o = none) ∧
    t.txbuf =
      memWrite
        ((memWrite (memWrite (memWrite (memWrite [] 0 1 startByte.toNat) 1 2 seqno.toNat) 3 4 payload.length) 7 1
          tokenByte.toNat).writeBytes 8 payload)
        (8 + payload.length) 2
        (crc16 s.params.crcp ([startByte] ++ bytesLe16 seqno ++ bytesLe32 (BitVec.ofNat 32 payload.length) ++
          [tokenByte] ++ payload)).toNat

/-! ### The CRC unit -/

/-- R110, with its examples. -/
def Obligations.ReflectReversesBits : Prop :=
  (∀ (b : Byte) (i : Nat), i < 8 → (reflect8 b).getLsbD i = b.getLsbD (7 - i)) ∧
    (∀ (v : Bits16) (i : Nat), i < 16 → (reflect16 v).getLsbD i = v.getLsbD (15 - i)) ∧
    reflect8 0x01#8 = 0x80#8 ∧ reflect8 0x1B#8 = 0xD8#8 ∧ reflect16 0x1021#16 = 0x8408#16 ∧
    reflect16 0xFFFF#16 = 0xFFFF#16

/-- R112: CRC.INIT, its encoding, its effect and no other, and that twice is the same as once. -/
def Obligations.CrcInitLoadsTheInitialValue : Prop :=
  opSelects 0x01#8 (fun i => i = .crcInit) ∧
    ∀ s : State, ∃ t : State, exec .crcInit s = .next t ∧ exec .crcInit t = .next t ∧
      t = { s with crc := s.params.crcp.init, crcValid := true, status := 0x00#8, result := .ok }

/-- R113: CRC.UPD b, refused until a CRC.INIT. -/
def Obligations.CrcUpdFeedsOneByte : Prop :=
  opSelects 0x02#8 (fun i => ∃ b, i = .crcUpd b) ∧
    (∀ (s : State) (b : Byte), s.crcValid = false → exec (.crcUpd b) s = .refused .crcNotInitialised) ∧
    (∀ (s : State) (b : Byte), s.crcValid = true →
      exec (.crcUpd b) s = .next { s with
        crc := crcStep s.params.crcp s.crc b, status := 0x00#8, result := .ok }) ∧
    crcStep ⟨0x1021#16, 0x0000#16, false, false, 0x0000#16⟩ 0x0000#16 0x01#8 = 0x1021#16

/-- R114: CRC.GET, refused until a CRC.INIT; straight after one it gives the CRC of the empty sequence. -/
def Obligations.CrcGetReturnsTheFinalisedValue : Prop :=
  opSelects 0x03#8 (fun i => i = .crcGet) ∧
    (∀ s : State, s.crcValid = false → exec .crcGet s = .refused .crcNotInitialised) ∧
    (∀ s : State, s.crcValid = true →
      exec .crcGet s = .next { s with status := 0x00#8, result := .crcValue (crcFinal s.params.crcp s.crc) }) ∧
    (∀ s t : State, exec .crcInit s = .next t → ∃ u : State, exec .crcGet t = .next u ∧
      u.result = .crcValue (crc16 s.params.crcp []) ∧
      u.result = .crcValue (crcFinal s.params.crcp s.params.crcp.init)) ∧
    crc16 ⟨0x1021#16, 0xFFFF#16, true, true, 0x0000#16⟩ [] = 0xFFFF#16

/-- R115: CRC.CHK lo, hi sets MATCH to the comparison of all 16 bits; swapping lo and hi fails unless they are equal. -/
def Obligations.CrcChkComparesAllBits : Prop :=
  opSelects 0x04#8 (fun i => ∃ lo hi, i = .crcChk lo hi) ∧
    (∀ (s : State) (lo hi : Byte), s.crcValid = false → exec (.crcChk lo hi) s = .refused .crcNotInitialised) ∧
    (∀ (s : State) (lo hi : Byte), s.crcValid = true → ∃ m : Bool,
      (m = true ↔ crcFinal s.params.crcp s.crc = hi ++ lo) ∧
      exec (.crcChk lo hi) s = .next { s with matchFlag := m, status := 0x00#8, result := .checked m }) ∧
    (∀ (s t u : State) (lo hi : Byte), lo ≠ hi → exec (.crcChk lo hi) s = .next t → t.matchFlag = true →
      exec (.crcChk hi lo) s = .next u → u.matchFlag = false) ∧
    (∀ s : State, s.crcValid = true → crcFinal s.params.crcp s.crc = 0x97F3#16 →
      (∃ t : State, exec (.crcChk 0xF3#8 0x97#8) s = .next t ∧ t.matchFlag = true) ∧
      ∃ t : State, exec (.crcChk 0x97#8 0xF3#8) s = .next t ∧ t.matchFlag = false)

/-- R116: crc16, and that it is what CRC.INIT, then CRC.UPD of each byte, then CRC.GET returns; the codec's operations leave
CRC and CRC_VALID alone. -/
def Obligations.CrcUnitComputesCrc16 : Prop :=
  (∀ (p : Crcp) (bytes : List Byte), crc16 p bytes = crcFinal p (bytes.foldl (crcStep p) p.init)) ∧
  (∀ (s : State) (bytes : List Byte), ∃ t : State,
    execAll (.crcInit :: bytes.map Instr.crcUpd ++ [.crcGet]) s = .next t ∧
      t.result = .crcValue (crc16 s.params.crcp bytes) ∧ t.crc = crcFold s.params.crcp s.params.crcp.init bytes) ∧
    ∀ (s t : State) (i : Instr), exec i s = .next t →
      (i matches .encode _ _ | .fdec _ | .decode _ | .send _ | .receive) →
      t.crc = s.crc ∧ t.crcValid = s.crcValid

/-- R120 (b): the step is affine over GF(2), and a bijection exactly when CRC_POLY's bit 0 is set. -/
def Obligations.CrcStepIsAffine : Prop :=
  ∀ p : Crcp, p.poly ≠ 0#16 →
    (∀ (b : Byte) (c d : Bits16),
      crcStep p (c ^^^ d) b ^^^ crcStep p 0#16 b =
        (crcStep p c b ^^^ crcStep p 0#16 b) ^^^ (crcStep p d b ^^^ crcStep p 0#16 b)) ∧
    ∀ b : Byte, Function.Bijective (fun c => crcStep p c b) ↔ p.poly.getLsbD 0 = true

/-- R120 (c): two byte sequences of equal length that differ in exactly one bit have different crc16, and a sequence
followed by its own CRC bytes no longer verifies if exactly one bit of the whole is flipped. -/
def Obligations.OneBitChangesTheCrc : Prop :=
  ∀ (p : Crcp), p.poly ≠ 0#16 →
    (∀ (a z : List Byte) (b : Byte) (k : Nat), k < 8 →
      crc16 p (a ++ (b ^^^ (1#8 <<< k)) :: z) ≠ crc16 p (a ++ b :: z)) ∧
    ∀ (body : List Byte) (j k : Nat), j < body.length + 2 → k < 8 →
      let f := body ++ bytesLe16 (crc16 p body)
      let g := f.set j (f.getD j 0#8 ^^^ (1#8 <<< k))
      crc16 p (g.take body.length) ≠ g.getD (body.length + 1) 0#8 ++ g.getD body.length 0#8

/-- R121: the least-significant-bit-first form computes crc16 when both reflections are on. -/
def Obligations.LsbFirstFormIsEquivalent : Prop :=
  ∀ (p : Crcp) (bytes : List Byte), p.refin = true → p.refout = true → lsbCrc16 p bytes = crc16 p bytes

/-! ### The ENC unit -/

/-- R130: ENCODE writes the frame to TXBUF and its length to TX_LEN, and nothing else but STATUS and the result. -/
def Obligations.EncodeWritesTheFrame : Prop :=
  opSelects 0x08#8 (fun i => ∃ (seqno : Bits16) (payload : List Byte), payload.length < 2 ^ 32 ∧
    i = .encode seqno payload) ∧
  ∀ (s : State) (seqno : Bits16) (payload : List Byte), payload.length < 2 ^ 32 →
    let body := [startByte] ++ bytesLe16 seqno ++ bytesLe32 (BitVec.ofNat 32 payload.length) ++ [tokenByte] ++ payload
    let frame := body ++ bytesLe16 (crc16 s.params.crcp body)
    ∃ t : State, exec (.encode seqno payload) s = .next t ∧
      t = { s with txbuf := t.txbuf, txLen := t.txLen, status := 0x00#8, result := .encoded frame } ∧
      t.txLen.toNat = 10 + payload.length ∧ frame.length = 10 + payload.length ∧
      ∀ o < frame.length, t.txbuf.read o = frame[o]?

/-- R134, U14: a payload of 2^32 bytes or more is refused, by ENCODE and by SEND. -/
def Obligations.TooLongPayloadIsRefused : Prop :=
  ∀ (s : State) (seqno : Bits16) (payload : List Byte), 2 ^ 32 ≤ payload.length →
    exec (.encode seqno payload) s = .refused .payloadTooLong ∧ exec (.send payload) s = .refused .payloadTooLong

/-- R135: the streaming encoder's bytes are the frame, with its accumulator's CRC. -/
def Obligations.StreamingEncoderIsTheFrame : Prop :=
  ∀ (s t : State) (seqno : Bits16) (payload : List Byte), exec (.encode seqno payload) s = .next t →
    ∀ i < 10 + payload.length,
      t.txbuf.read i = some (encByte seqno payload
        (crcFinal s.params.crcp (encAccumulator s.params.crcp seqno payload (8 + payload.length))) i)

/-! ### The DEC unit -/

/-- R140: FDEC, its encoding, its checks in order, and its result, that of the first check that fails. -/
def Obligations.FdecChecksInOrder : Prop :=
  opSelects 0x09#8 (fun i => ∃ n, i = .fdec n) ∧
  ∀ (s : State) (n : Bits33) (raw : List Byte), holdsRaw s n raw →
    ∃ t : State, exec (.fdec n) s = .next t ∧ changesOnlyRx s t ∧ t.status = statusOf t.result ∧
      (if raw.length = 0 then t.result = .frameError .incomplete
      else if raw.getD 0 0#8 ≠ startByte then t.result = .frameError .badStart
      else if raw.length < 8 then t.result = .frameError .incomplete
      else if raw.getD 7 0#8 ≠ tokenByte then t.result = .frameError .badToken
      else
        let len : Bits32 := raw.getD 6 0#8 ++ raw.getD 5 0#8 ++ raw.getD 4 0#8 ++ raw.getD 3 0#8
        let total := 8 + len.toNat + 2
        if raw.length < total then t.result = .frameError .incomplete
        else if crc16 s.params.crcp (raw.take (total - 2)) ≠ raw.getD (total - 1) 0#8 ++ raw.getD (total - 2) 0#8 then
          t.result = .frameError .crcMismatch
        else
          t.result = .framed (raw.getD 2 0#8 ++ raw.getD 1 0#8) ((raw.take (total - 2)).drop 8) ∧
            t.rxSeq = raw.getD 2 0#8 ++ raw.getD 1 0#8 ∧ t.rxLen = len)

/-- R147: DECODE, its encoding, and that it is FDEC and then the reply-code split (R148, R149). -/
def Obligations.DecodeSplitsTheReplyCode : Prop :=
  opSelects 0x0A#8 (fun i => ∃ n, i = .decode n) ∧
  ∀ (s : State) (n : Bits33) (raw : List Byte), holdsRaw s n raw →
    ∃ u t : State, exec (.fdec n) s = .next u ∧ exec (.decode n) s = .next t ∧ changesOnlyRx s t ∧
      t.status = statusOf t.result ∧ t.result = decodeResult (splitReply s.params (decodeBytes s.params.crcp raw)) ∧
      match u.result with
      | .frameError e => t.result = .frameError e
      | .framed _ [] => t.result = .frameError .emptyPayload
      | .framed seqno (code :: data) =>
        t.rxSeq = seqno ∧ t.rxLen = u.rxLen ∧ t.rxCode = code ∧
          (if replyClass s.params code = .unknown then
            t.result = .frameError (.unknownReply code) ∧ t.errInfo = code
          else t.result = .decoded seqno ⟨code, replyClass s.params code, data⟩)
      | _ => False

/-- A byte that FDEC or DECODE needs and that nothing has written is a fault, and that is the only stop (U11): with all of
RXBUF[0:n) written there is none (R151). -/
def Obligations.DecodersStopOnlyOnUnwrittenBytes : Prop :=
  ∀ (s : State) (n : Bits33),
    ((∃ t, exec (.fdec n) s = .next t) ∧ ∃ t, exec (.decode n) s = .next t) ∨
      (exec (.fdec n) s = .fault .unwrittenByte ∧ exec (.decode n) s = .fault .unwrittenByte ∧
        ∃ o < n.toNat, s.rxbuf.read o = none)

/-- R151: what FDEC and DECODE return depends on RXBUF[0:n) alone, and every truncation of a valid frame is Incomplete. -/
def Obligations.TruncatedFrameIsIncomplete : Prop :=
  (∀ (s u : State) (n : Bits33), s.params = u.params → (∀ i < n.toNat, u.rxbuf.read i = s.rxbuf.read i) →
    (∀ t, exec (.fdec n) s = .next t → ∃ v, exec (.fdec n) u = .next v ∧ v.result = t.result) ∧
    ∀ t, exec (.decode n) s = .next t → ∃ v, exec (.decode n) u = .next v ∧ v.result = t.result) ∧
  ∀ (s : State) (n : Bits33) (seqno : Bits16) (payload : List Byte), payload.length < 2 ^ 32 →
    n.toNat < 10 + payload.length →
    holdsRaw s n ((encodeFrame s.params.crcp seqno payload).take n.toNat) →
    ∃ t u : State, exec (.fdec n) s = .next t ∧ exec (.decode n) s = .next u ∧
      t.result = .frameError .incomplete ∧ u.result = .frameError .incomplete ∧ t.status = 0x03#8 ∧ u.status = 0x03#8

/-- R150: bytes of raw past the frame's own length are ignored by FDEC and DECODE. -/
def Obligations.ExcessBytesAreIgnored : Prop :=
  ∀ (s u : State) (n m : Bits33) (raw excess : List Byte) (len : Bits32), s.params = u.params →
    holdsRaw s n raw → holdsRaw u m (raw ++ excess) →
    memRead4 (ofList raw) 3 = some len → raw.length = 10 + len.toNat →
    (∃ t v : State, exec (.fdec n) s = .next t ∧ exec (.fdec m) u = .next v ∧ v.result = t.result) ∧
    ∃ t v : State, exec (.decode n) s = .next t ∧ exec (.decode m) u = .next v ∧ v.result = t.result

/-- R153: the round trip. FDEC of an encoded frame gives back the seqno and the payload; DECODE of it is Ok with the reply
exactly when the payload is not empty and its first byte is a known code. -/
def Obligations.RoundTripOfAFrame : Prop :=
  ∀ (s : State) (n : Bits33) (seqno : Bits16) (payload : List Byte), payload.length < 2 ^ 32 →
    holdsRaw s n (encodeFrame s.params.crcp seqno payload) →
    (∃ t : State, exec (.fdec n) s = .next t ∧ changesOnlyRx s t ∧ t.result = .framed seqno payload ∧
      t.status = 0x00#8 ∧ t.rxSeq = seqno ∧ t.rxLen.toNat = payload.length) ∧
    ∃ t : State, exec (.decode n) s = .next t ∧ changesOnlyRx s t ∧ t.status = statusOf t.result ∧
      match payload with
      | [] => t.result = .frameError .emptyPayload
      | code :: data =>
        if replyClass s.params code = .unknown then t.result = .frameError (.unknownReply code)
        else t.result = .decoded seqno ⟨code, replyClass s.params code, data⟩

/-- R154: what FDEC and DECODE return for an encoded frame with one flipped bit, byte position by byte position. -/
def Obligations.OneFlippedBit : Prop :=
  ∀ (s : State) (n : Bits33) (seqno : Bits16) (payload : List Byte) (j k : Nat),
    payload.length < 2 ^ 32 → s.params.crcp.poly ≠ 0#16 → k < 8 →
    let f := encodeFrame s.params.crcp seqno payload
    let g := f.set j (f.getD j 0#8 ^^^ (1#8 <<< k))
    let shorter := payload.length - 2 ^ (8 * (j - 3) + k)
    j < f.length → holdsRaw s n g →
    ∃ t u : State, exec (.fdec n) s = .next t ∧ exec (.decode n) s = .next u ∧
      (if 3 ≤ j ∧ j ≤ 6 ∧ (f.getD j 0#8).getLsbD k = true ∧
          crc16 s.params.crcp (g.take (8 + shorter)) = g.getD (9 + shorter) 0#8 ++ g.getD (8 + shorter) 0#8 then
        t.result = .framed seqno (payload.take shorter)
      else
        let e : FrameError :=
          if j = 0 then .badStart
          else if j = 7 then .badToken
          else if 3 ≤ j ∧ j ≤ 6 ∧ (f.getD j 0#8).getLsbD k = false then .incomplete
          else .crcMismatch
        t.result = .frameError e ∧ u.result = .frameError e)

/-! ### The CHN unit -/

/-- R160, R161: SEND, its encoding; it writes the frame of SEQ and the data to TXBUF and, once, to the line; a failed write
is TransportError, with a prefix on the line; nothing else changes, SEQ and the inbound bytes among it. -/
def Obligations.SendWritesOneFrame : Prop :=
  opSelects 0x10#8 (fun i => ∃ data : List Byte, data.length < 2 ^ 32 ∧ i = .send data) ∧
  ∀ (s : State) (data : List Byte), data.length < 2 ^ 32 →
    let frame := encodeFrame s.params.crcp s.seq data
    ∃ t : State, exec (.send data) s = .next t ∧
      t = { s with
        txbuf := t.txbuf, txLen := t.txLen, status := t.status, result := t.result,
        sent := t.sent, writeAnswers := s.writeAnswers.tail, draws := t.draws } ∧
      t.txLen.toNat = frame.length ∧ (∀ o < frame.length, t.txbuf.read o = frame[o]?) ∧
      (∀ later, s.writeAnswers = .ok :: later →
        t.result = .ok ∧ t.status = 0x00#8 ∧ t.sent = s.sent ++ [frame]) ∧
      (∀ k later, s.writeAnswers = .error k :: later →
        t.result = .transportError ∧ t.status = 0x11#8 ∧ t.sent = s.sent ++ [frame.take k]) ∧
      ∃ reached, reached <+: frame ∧ t.sent = s.sent ++ [reached] ∧
        (t.result = .ok ∧ reached = frame ∨ t.result = .transportError)

/-- R162: two SENDs of the same data without a SEQ.ADV between them put the same frame on the line twice. -/
def Obligations.TwoSendsCarryTheSameSeqno : Prop :=
  ∀ (s t u : State) (data : List Byte) (later : List WriteAnswer), s.writeAnswers = .ok :: .ok :: later →
    exec (.send data) s = .next t → exec (.send data) t = .next u →
    u.sent = s.sent ++ [encodeFrame s.params.crcp s.seq data, encodeFrame s.params.crcp s.seq data] ∧ u.seq = s.seq

/-- R163 to R168, R173: for every cut of the inbound bytes into chunks, RECEIVE's result is that of DECODE of the first
`need` bytes, as exec runs it wherever RXBUF holds them, followed by the seqno check; the chunks it took end with the one
that completes the frame. -/
def Obligations.ReceiveIsIndependentOfChunking : Prop :=
  ∀ (s : State) (chunks : List (List Byte)) (later : List ReadAnswer) (len : Bits32),
    delivers s chunks later → memRead4 (ofList chunks.flatten) 3 = some len →
    10 + len.toNat ≤ chunks.flatten.length →
    let frame := chunks.flatten.take (10 + len.toNat)
    let d := splitReply s.params (decodeBytes s.params.crcp frame)
    ∃ t : State, exec .receive s = .next t ∧ changesOnlyReceive s t ∧ t.pending = none ∧ t.status = statusOf t.result ∧
      (match d with
      | .error e => t.result = .corrupt e
      | .unknown f code =>
        t.result = .corrupt (.unknownReply code) ∧ t.errInfo = code ∧ t.rxSeq = f.seqno ∧ t.rxLen = f.len ∧ t.rxCode = code
      | .reply f r =>
        t.rxSeq = f.seqno ∧ t.rxLen = f.len ∧ t.rxCode = r.code ∧
          (if f.seqno = s.seq then t.result = .received r ∧ t.rxbuf = bufferOf frame
          else t.result = .seqMismatch)) ∧
      (∀ (v : State) (n : Bits33), v.params = s.params → holdsRaw v n frame →
        ∃ w : State, exec (.decode n) v = .next w ∧
          match w.result with
          | .frameError e => t.result = .corrupt e
          | .decoded seqno r =>
            t.rxSeq = seqno ∧ t.rxLen = w.rxLen ∧ t.rxCode = r.code ∧
              t.result = if seqno = s.seq then .received r else .seqMismatch
          | _ => False) ∧
      ∃ taken rest, chunks = taken ++ rest ∧ 10 + len.toNat ≤ taken.flatten.length ∧
        taken.dropLast.flatten.length < 10 + len.toNat ∧ t.readAnswers = rest.map ReadAnswer.chunk ++ later

/-- R168: a well-formed reply with another seqno is SeqMismatch, never an accepted reply; RX_SEQ holds its seqno. -/
def Obligations.WrongSeqnoIsSeqMismatch : Prop :=
  ∀ (s : State) (seqno : Bits16) (code : Byte) (data : List Byte) (later : List ReadAnswer),
    seqno ≠ s.seq → data.length + 1 < 2 ^ 32 → replyClass s.params code ≠ .unknown →
    s.readAnswers = .chunk (encodeFrame s.params.crcp seqno (code :: data)) :: later →
    ∃ t : State, exec .receive s = .next t ∧ t.result = .seqMismatch ∧ t.status = 0x12#8 ∧ t.rxSeq = seqno ∧
      t.seq = s.seq ∧ t.readAnswers = later

/-- R169: a failed read before a whole frame has arrived ends RECEIVE with NoReply and discards what was accumulated. -/
def Obligations.FailedReadIsNoReply : Prop :=
  ∀ (s : State) (chunks : List (List Byte)) (later : List ReadAnswer),
    delivers s chunks (.error :: later) →
    (∀ len, memRead4 (ofList chunks.flatten) 3 = some len → chunks.flatten.length < 10 + len.toNat) →
    ∃ t : State, exec .receive s = .next t ∧ changesOnlyReceive s t ∧ t.result = .noReply ∧ t.status = 0x10#8 ∧
      t.pending = none ∧ t.rxbuf = [] ∧ t.readAnswers = later

/-- R163 to R165, R175: with less than a frame delivered, RECEIVE goes on waiting, with the bytes accumulated in RXBUF,
their number in RX_CNT and the estimate in RX_NEED. -/
def Obligations.ReceiveWaitsForTheFrame : Prop :=
  ∀ (s : State) (chunks : List (List Byte)), delivers s chunks [] →
    (∀ len, memRead4 (ofList chunks.flatten) 3 = some len → chunks.flatten.length < 10 + len.toNat) →
    ∃ t : State, exec .receive s = .next t ∧ changesOnlyReceive s t ∧ t.pending = some .receive ∧
      t.rxbuf = bufferOf chunks.flatten ∧ t.rxCnt.toNat = chunks.flatten.length ∧
      (if chunks.flatten.length < 7 then t.rxNeed = 7#33
      else ∃ len : Bits32, memRead4 (ofList chunks.flatten) 3 = some len ∧ t.rxNeed.toNat = 10 + len.toNat) ∧
      t.result = s.result ∧ t.status = s.status

/-- R175: an empty chunk changes nothing. -/
def Obligations.EmptyChunkChangesNothing : Prop :=
  ∀ (s : State) (before : List (List Byte)) (later : List ReadAnswer),
    (∀ len, memRead4 (ofList before.flatten) 3 = some len → before.flatten.length < 10 + len.toNat) →
    exec .receive { s with readAnswers := before.map ReadAnswer.chunk ++ .chunk [] :: later } =
      exec .receive { s with readAnswers := before.map ReadAnswer.chunk ++ later }

/-- R174: RECEIVE never returns Corrupt(Incomplete). -/
def Obligations.ReceiveNeverReturnsCorruptIncomplete : Prop :=
  ∀ s t : State, exec .receive s = .next t → t.pending = none →
    t.result ≠ .corrupt .incomplete ∧ t.status ≠ 0x23#8

/-- R171: SEQ.ADV adds one, modulo 2^16, and changes nothing else. -/
def Obligations.SeqAdvIncrementsModulo : Prop :=
  opSelects 0x12#8 (fun i => i = .seqAdv) ∧
    ∀ s : State, ∃ t : State, exec .seqAdv s = .next t ∧
      t = { s with seq := t.seq, status := 0x00#8, result := .ok } ∧ t.seq.toNat = (s.seq.toNat + 1) % 2 ^ 16

/-- R172: SEQ.RST sets SEQ to SEQ_RESET and changes nothing else; it sends nothing. -/
def Obligations.SeqRstClearsSeq : Prop :=
  opSelects 0x13#8 (fun i => i = .seqRst) ∧
    ∀ s : State, exec .seqRst s = .next { s with seq := 0x0000#16, status := 0x00#8, result := .ok }

/-! ### Whole-machine rules -/

/-- R21, R162, R170, R180, R190: SEQ changes only by SEQ.ADV and SEQ.RST (READ_RANGE with the host's SEQ.ADV between its
bytes among them: that policy is the model's, log 12), also in the steps that follow while a RECEIVE waits (log 6). -/
def Obligations.SeqChangesOnlyByTheCaller : Prop :=
  (∀ (s t : State) (i : Instr), exec i s = .next t → i ≠ .seqAdv → i ≠ .seqRst →
    (∀ addr count, i ≠ .readRange addr count true) → t.seq = s.seq) ∧
  ∀ (s t : State) (task : Task), s.pending = some task → step s = .next t →
    (∀ addr i left, task ≠ .range addr i left true) → t.seq = s.seq

/-- R22, R31, R32: CRC and CRC_VALID change only by CRC.INIT and CRC.UPD, MATCH only by CRC.CHK; the parameters and the
agenda by no instruction. -/
def Obligations.CrcRegistersHaveTheirWriters : Prop :=
  ∀ (s t : State) (i : Instr), exec i s = .next t →
    ((∀ b, i ≠ .crcUpd b) → i ≠ .crcInit → t.crc = s.crc ∧ t.crcValid = s.crcValid) ∧
    ((∀ lo hi, i ≠ .crcChk lo hi) → t.matchFlag = s.matchFlag) ∧ t.params = s.params ∧ t.agenda = s.agenda

/-- R28, R29, R32, R152: TXBUF and TX_LEN change only by ENCODE, SEND and the calls that send; RXBUF only by RECEIVE and
those calls; the line only by SEND and those calls. -/
def Obligations.BuffersHaveTheirWriters : Prop :=
  ∀ (s t : State) (i : Instr), exec i s = .next t →
    (i matches .crcInit | .crcUpd _ | .crcGet | .crcChk _ _ | .fdec _ | .decode _ | .receive | .seqAdv | .seqRst |
        .frame _ _ _ → t.txbuf = s.txbuf ∧ t.txLen = s.txLen ∧ t.sent = s.sent ∧ t.writeAnswers = s.writeAnswers) ∧
    (i matches .crcInit | .crcUpd _ | .crcGet | .crcChk _ _ | .encode _ _ | .fdec _ | .decode _ | .send _ | .seqAdv |
        .seqRst | .frame _ _ _ → t.rxbuf = s.rxbuf ∧ t.rxNeed = s.rxNeed ∧ t.rxCnt = s.rxCnt ∧ t.pending = s.pending) ∧
    ((∀ addr count advance, i ≠ .readRange addr count advance) → t.callerBuf = s.callerBuf)

/-! ### The wire frame -/

/-- R209, R34, R58, R59: what arrives on the line waits there, its bytes in order and in some chunks, behind what waits
already; their first may be delivered in one chunk with the last of those. So does a frame from the device (that FRAME is this
arrival is the model's choice, log 9), and, with a RECEIVE waiting or not, the bytes of a wire event, whatever they are; what
a step leaves of that event stands first on the agenda (a whole frame at its start arrives by itself, log 9). A read error or
timeout is put behind what waits. Nothing of the block's own state changes. -/
def Obligations.ArrivalsWaitOnTheInboundLine : Prop :=
  let joins (s : State) (bytes : List Byte) (before : List ReadAnswer) (chunks : List (List Byte)) : Prop :=
    (s.readAnswers = before ∧ chunks.flatten = bytes) ∨
      ∃ c, s.readAnswers = before ++ [.chunk c] ∧ chunks.flatten = c ++ bytes
  (∀ (s : State) (seqno : Bits16) (payload : List Byte) (crcField : Bits16), payload.length < 2 ^ 32 →
    let bytes := [startByte] ++ bytesLe16 seqno ++ bytesLe32 (BitVec.ofNat 32 payload.length) ++ [tokenByte] ++
      payload ++ bytesLe16 crcField
    ∃ (t : State) (before : List ReadAnswer) (chunks : List (List Byte)),
      exec (.frame seqno payload crcField) s = .next t ∧
      t = { s with readAnswers := before ++ chunks.map ReadAnswer.chunk, draws := t.draws } ∧
      joins s bytes before chunks) ∧
  (∀ (s : State) (bytes : List Byte) (later : List Event), s.agenda = .wire bytes :: later →
    ∃ (t : State) (arrived more : List Byte) (before : List ReadAnswer) (chunks : List (List Byte)),
      step s = .next t ∧ bytes = arrived ++ more ∧ (arrived = [] → bytes = []) ∧
      (decodeEvent (.wire bytes) = none → more = []) ∧
      t = { s with
        agenda := (if more = [] then later else .wire more :: later)
        readAnswers := before ++ chunks.map ReadAnswer.chunk, draws := t.draws } ∧
      joins s arrived before chunks) ∧
  ∀ (s : State) (later : List Event), s.agenda = .timeout :: later →
    step s = .next { s with agenda := later, readAnswers := s.readAnswers ++ [.error] }

/-! ### The pseudo-operations -/

/-- R180, R181, R184 to R188: a call whose reply is of the expected kind returns that reply: the command went out as one
frame with SEQ, and SEQ is unchanged. -/
def Obligations.ExchangeReturnsTheExpectedReply : Prop :=
  ∀ (s : State) (i : Instr) (cmd : List Byte) (expect : SuccessKind),
    (i = .signOn ∧ cmd = [0x01#8] ∧ expect = .signOn) ∨
      (∃ args, i = .setParam args ∧ cmd = s.params.cmdSetParameter :: args ∧ expect = s.params.expectSetParam) ∨
      (∃ args, i = .getParam args ∧ cmd = s.params.cmdGetParameter :: args ∧ expect = s.params.expectGetParam) ∨
      (∃ args, i = .enterProgMode args ∧ cmd = s.params.cmdEnterProgmode :: args ∧
        expect = s.params.expectEnterProgMode) ∨
      (∃ args, i = .devReset args ∧ cmd = s.params.cmdReset :: args ∧ expect = s.params.expectReset) ∨
      (∃ args, i = .setDeviceDescriptor args ∧ cmd = s.params.cmdSetDeviceDescriptor :: args ∧
        expect = s.params.expectSetDeviceDescriptor) →
    cmd.length < 2 ^ 32 →
    ∀ (sends : List WriteAnswer) (chunks : List (List Byte)) (later : List ReadAnswer) (code : Byte)
      (data excess : List Byte),
      s.writeAnswers = .ok :: sends → delivers s chunks later →
      chunks.flatten = encodeFrame s.params.crcp s.seq (code :: data) ++ excess → data.length + 1 < 2 ^ 32 →
      replyClass s.params code = .success expect →
      ∃ t : State, exec i s = .next t ∧ changesOnlyExchange s t ∧
        t.result = .received ⟨code, .success expect, data⟩ ∧ t.status = 0x00#8 ∧
        t.sent = s.sent ++ [encodeFrame s.params.crcp s.seq cmd] ∧ t.rxSeq = s.seq ∧ t.rxCode = code ∧ t.pending = none

/-- R182: READ_RAM_BYTE returns the first data byte of a Memory-reply and drops the rest; without one it faults (U16,
log 13). That it expects a Memory-reply is inferred and not stated (R182 says so, D25): the model's choice in log 25. -/
def Obligations.ReadRamByteReturnsTheFirstByte : Prop :=
  ∀ (s : State) (addr : Bits16) (sends : List WriteAnswer) (chunks : List (List Byte)) (later : List ReadAnswer)
    (code : Byte) (data excess : List Byte),
    s.params.countBytes + s.params.addrBytes + 2 < 2 ^ 32 →
    s.writeAnswers = .ok :: sends → delivers s chunks later →
    chunks.flatten = encodeFrame s.params.crcp s.seq (code :: data) ++ excess → data.length + 1 < 2 ^ 32 →
    replyClass s.params code = .success .memory →
    match data with
    | [] => exec (.readRamByte addr) s = .fault .noDataByte
    | b :: _ =>
      ∃ t : State, exec (.readRamByte addr) s = .next t ∧ changesOnlyExchange s t ∧ t.result = .byteRead b ∧
        t.status = 0x00#8 ∧ t.pending = none ∧
        t.sent = s.sent ++ [encodeFrame s.params.crcp s.seq
          (s.params.cmdReadMemory :: 0x20#8 :: (leBytes s.params.countBytes 1 ++ leBytes s.params.addrBytes addr.toNat))]

/-- R183: WRITE_RAM_BYTE sends the same address bytes and the value, and succeeds with no value on the generic Ok. -/
def Obligations.WriteRamByteSucceedsOnOk : Prop :=
  ∀ (s : State) (addr : Bits16) (value : Byte) (sends : List WriteAnswer) (chunks : List (List Byte))
    (later : List ReadAnswer) (code : Byte) (data excess : List Byte),
    s.params.countBytes + s.params.addrBytes + 3 < 2 ^ 32 →
    s.writeAnswers = .ok :: sends → delivers s chunks later →
    chunks.flatten = encodeFrame s.params.crcp s.seq (code :: data) ++ excess → data.length + 1 < 2 ^ 32 →
    replyClass s.params code = .success .ok →
    ∃ t : State, exec (.writeRamByte addr value) s = .next t ∧ changesOnlyExchange s t ∧ t.result = .ok ∧
      t.status = 0x00#8 ∧ t.pending = none ∧
      t.sent = s.sent ++ [encodeFrame s.params.crcp s.seq
        (s.params.cmdWriteMemory :: 0x20#8 ::
          (leBytes s.params.countBytes 1 ++ leBytes s.params.addrBytes addr.toNat ++ [value]))]

/-- R180, R192, R205: a device-failure reply is DeviceError(code); a success reply of another kind is
UnexpectedReply(code); the code is in ERRINFO, and SEQ is unchanged. That these calls write STATUS and ERRINFO is the
model's (log 21), and that READ_RAM_BYTE expects a Memory-reply is inferred (D25, log 25). -/
def Obligations.ExchangeCarriesTheObservedCode : Prop :=
  ∀ (s : State) (i : Instr) (expect : SuccessKind),
    (i = .signOn ∧ expect = .signOn) ∨
      (∃ addr, i = .readRamByte addr ∧ expect = .memory ∧ s.params.countBytes + s.params.addrBytes + 2 < 2 ^ 32) ∨
      (∃ addr value, i = .writeRamByte addr value ∧ expect = .ok ∧
        s.params.countBytes + s.params.addrBytes + 3 < 2 ^ 32) ∨
      (∃ args, i = .setParam args ∧ expect = s.params.expectSetParam ∧ args.length + 1 < 2 ^ 32) ∨
      (∃ args, i = .getParam args ∧ expect = s.params.expectGetParam ∧ args.length + 1 < 2 ^ 32) ∨
      (∃ args, i = .enterProgMode args ∧ expect = s.params.expectEnterProgMode ∧ args.length + 1 < 2 ^ 32) ∨
      (∃ args, i = .devReset args ∧ expect = s.params.expectReset ∧ args.length + 1 < 2 ^ 32) ∨
      (∃ args, i = .setDeviceDescriptor args ∧ expect = s.params.expectSetDeviceDescriptor ∧
        args.length + 1 < 2 ^ 32) →
    ∀ (sends : List WriteAnswer) (chunks : List (List Byte)) (later : List ReadAnswer) (code : Byte)
      (data excess : List Byte),
      s.writeAnswers = .ok :: sends → delivers s chunks later →
      chunks.flatten = encodeFrame s.params.crcp s.seq (code :: data) ++ excess → data.length + 1 < 2 ^ 32 →
      replyClass s.params code ≠ .unknown → replyClass s.params code ≠ .success expect →
      ∃ t : State, exec i s = .next t ∧ changesOnlyExchange s t ∧ t.errInfo = code ∧ t.pending = none ∧
        ((∃ k, replyClass s.params code = .deviceFailure k) → t.result = .deviceError code ∧ t.status = 0x30#8) ∧
        ((∃ k, replyClass s.params code = .success k) → t.result = .unexpectedReply code ∧ t.status = 0x31#8)

/-- R180: when the SEND of a call fails, the call ends with TransportError and no RECEIVE is made. For READ_RANGE it is the
first byte's SEND; that the range then ends is the model's choice (log 12). -/
def Obligations.ExchangeEndsOnTransportError : Prop :=
  ∀ (s : State) (i : Instr) (cmd : List Byte) (k : Nat) (sends : List WriteAnswer),
    firstCommand s.params i = some cmd → cmd.length < 2 ^ 32 → s.writeAnswers = .error k :: sends →
    ∃ t : State, exec i s = .next t ∧ changesOnlyExchange s t ∧ t.result = .transportError ∧ t.status = 0x11#8 ∧
      t.sent = s.sent ++ [(encodeFrame s.params.crcp s.seq cmd).take k] ∧ t.seq = s.seq ∧
      t.readAnswers = s.readAnswers ∧ t.rxbuf = s.rxbuf ∧ t.pending = s.pending

/-- R180: each of the nine calls is SEND of its command, then RECEIVE, then the end of its own task, which
WaitingReceiveTakesTheNextAnswer spells out. Where RECEIVE waits, the call waits in the same state as that task (the wait is
the model's, log 6). When RECEIVE returns NoReply, Corrupt or SeqMismatch, the call returns that with its STATUS, in exactly
the state that RECEIVE leaves; SEQ is unchanged. For READ_RANGE it is the first byte's exchange; that the range ends with a
failing byte is the model's choice (log 12). -/
def Obligations.CallIsSendThenReceive : Prop :=
  ∀ (s m u : State) (i : Instr) (cmd : List Byte),
    firstCommand s.params i = some cmd → exec (.send cmd) s = .next m → m.result = .ok → exec .receive m = .next u →
    (u.pending = none ∨ u.pending = some .receive) ∧
    (∃ task, firstTask s.params i = some task ∧
      exec i s = if u.pending = none then endTask task u else .next { u with pending := some task }) ∧
    (u.pending = none → (∀ r, u.result ≠ .received r) →
      exec i s = .next u ∧ changesOnlyExchange s u ∧ u.seq = s.seq ∧ u.status = statusOf u.result ∧
        (u.result = .noReply ∨ u.result = .seqMismatch ∨ ∃ e, u.result = .corrupt e))

/-- R193, R182: READ_RANGE is, byte after byte, READ_RAM_BYTE of that byte's address: its byte goes to the caller's buffer at
the byte's offset, and the range goes on with the next, from the state that is left, or after the host's SEQ.ADV where it
issues one between two bytes (R190); where READ_RAM_BYTE waits the range waits, and where it ends in another way the range
does. The end at a failing byte, the policy operand and an address past 0xFFFF are the model's choice (log 12), the wait too
(log 6). -/
def Obligations.RangeIsOneExchangeAByte : Prop :=
  (∀ (s : State) (addr : Bits16) (count : Nat) (advance : Bool),
    exec (.readRange addr count advance) s = rangeFrom addr advance count 0 s) ∧
  (∀ (m : State) (addr : Bits16) (i : Nat) (advance : Bool),
    rangeFrom addr advance 0 i m = .next { m with status := 0x00#8, result := .rangeRead }) ∧
  ∀ (m : State) (addr : Bits16) (i left : Nat) (advance : Bool), m.pending = none →
    (addr.toNat + i < 2 ^ 16 → rangeAddr addr i = addr + BitVec.ofNat 16 i) ∧
    rangeFrom addr advance (left + 1) i m =
      match exec (.readRamByte (rangeAddr addr i)) m with
      | .next u =>
        if u.pending = none then
          match u.result with
          | .byteRead b =>
            let w : State := { u with callerBuf := u.callerBuf.write i b }
            rangeFrom addr advance left (i + 1)
              (if advance = true ∧ left ≠ 0 then
                { w with seq := w.seq + 1#16, status := 0x00#8, result := .ok } else w)
          | _ => .next u
        else .next { u with pending := some (.range addr i left advance) }
      | .fault f => .fault f
      | .refused r => .refused r

/-- R193: READ_RANGE is one READ_RAM_BYTE exchange a byte, each byte put in the caller's buffer; SEQ advances between two
bytes only where the host advances it (R190): that this policy is an operand of the call is the model's choice (log 12), and
that each byte expects a Memory-reply is inferred (D25, log 25). -/
def Obligations.ReadRangeFillsTheBuffer : Prop :=
  ∀ (s : State) (addr : Bits16) (advance : Bool) (bytes : List Byte) (code : Byte)
    (sends : List WriteAnswer) (later : List ReadAnswer),
    s.params.countBytes + s.params.addrBytes + 2 < 2 ^ 32 → addr.toNat + bytes.length ≤ 2 ^ 16 →
    replyClass s.params code = .success .memory →
    let seqAt (i : Nat) : Bits16 := if advance then s.seq + BitVec.ofNat 16 i else s.seq
    s.writeAnswers = bytes.map (fun _ => WriteAnswer.ok) ++ sends →
    s.readAnswers = bytes.mapIdx (fun i b => ReadAnswer.chunk (encodeFrame s.params.crcp (seqAt i) [code, b])) ++ later →
    ∃ t : State, exec (.readRange addr bytes.length advance) s = .next t ∧ t.result = .rangeRead ∧ t.status = 0x00#8 ∧
      (∀ i < bytes.length, t.callerBuf.read i = bytes[i]?) ∧
      (∀ i, bytes.length ≤ i → t.callerBuf.read i = s.callerBuf.read i) ∧
      t.seq = seqAt (bytes.length - 1) ∧ t.readAnswers = later ∧
      t.sent = s.sent ++ bytes.mapIdx (fun i _ => encodeFrame s.params.crcp (seqAt i)
        (readCommand s.params (addr + BitVec.ofNat 16 i))) ∧
      t.crc = s.crc ∧ t.crcValid = s.crcValid ∧ t.matchFlag = s.matchFlag ∧ t.params = s.params ∧ t.agenda = s.agenda


/-- The model's choice (log 12; R193 leaves it open, N26): a range whose first n bytes have succeeded, and whose next byte's
READ_RAM_BYTE ends in an error or stops, ends there in the same way, with the bytes read before it kept in the caller's
buffer. -/
def Obligations.ReadRangeEndsAtTheFirstError : Prop :=
  ∀ (s t m : State) (addr : Bits16) (n left : Nat) (advance : Bool),
    exec (.readRange addr n advance) s = .next t → t.result = .rangeRead → t.pending = none →
    (if advance = true ∧ n ≠ 0 then exec .seqAdv t = .next m else m = t) →
    (∀ u : State, exec (.readRamByte (rangeAddr addr n)) m = .next u → u.pending = none →
      (∀ b, u.result ≠ .byteRead b) →
      exec (.readRange addr (n + 1 + left) advance) s = .next u ∧ u.callerBuf = t.callerBuf ∧ u.seq = m.seq) ∧
    ∀ f : Fault, exec (.readRamByte (rangeAddr addr n)) m = .fault f →
      exec (.readRange addr (n + 1 + left) advance) s = .fault f
end

