-- ==== Sys2Proof/Laws/Bytes.lean ====
section
/-! SUPPORT. Laws of byte order (spec/00_scope.md R11): assembling what was split gives the value back, and what MemRead reads
from a list. -/

namespace Sys2Proof.Machine

@[simp] theorem word16_bytesLe16 (v : Bits16) : word16 (v.extractLsb' 0 8) (v.extractLsb' 8 8) = v := by
  unfold word16
  ext i hi
  simp only [BitVec.getElem_append, BitVec.getElem_extractLsb']
  split
  · simp [BitVec.getLsbD_eq_getElem, hi]
  · rw [BitVec.getLsbD_eq_getElem (by omega)]; congr 1; omega

@[simp] theorem word32_bytesLe32 (v : Bits32) :
    word32 (v.extractLsb' 0 8) (v.extractLsb' 8 8) (v.extractLsb' 16 8) (v.extractLsb' 24 8) = v := by
  unfold word32
  ext i hi
  simp only [BitVec.getElem_append, BitVec.getElem_extractLsb']
  split
  · simp [BitVec.getLsbD_eq_getElem, hi]
  · split
    · rw [BitVec.getLsbD_eq_getElem (by omega)]; congr 1; omega
    · split <;> (rw [BitVec.getLsbD_eq_getElem (by omega)]; congr 1; omega)

theorem bytesLe16_word16 (b0 b1 : Byte) : bytesLe16 (word16 b0 b1) = [b0, b1] := by
  have h0 : (b1 ++ b0 : BitVec (8 + 8)).extractLsb' 0 8 = b0 := by
    apply BitVec.eq_of_getLsbD_eq
    intro i hi
    rw [BitVec.getLsbD_extractLsb', BitVec.getLsbD_append]
    simp [hi]
  have h1 : (b1 ++ b0 : BitVec (8 + 8)).extractLsb' 8 8 = b1 := by
    apply BitVec.eq_of_getLsbD_eq
    intro i hi
    rw [BitVec.getLsbD_extractLsb', BitVec.getLsbD_append]
    simp [hi]
  exact congr (congrArg _ h0) (congrArg (fun b => [b]) h1)

theorem bytesLe32_word32 (b0 b1 b2 b3 : Byte) : bytesLe32 (word32 b0 b1 b2 b3) = [b0, b1, b2, b3] := by
  have h (k : Nat) (b : Byte)
      (hb : ∀ i < 8, (word32 b0 b1 b2 b3).getLsbD (k + i) = b.getLsbD i) :
      (word32 b0 b1 b2 b3).extractLsb' k 8 = b := by
    apply BitVec.eq_of_getLsbD_eq
    intro i hi
    rw [BitVec.getLsbD_extractLsb', hb i hi]
    simp [hi]
  have bit (i : Nat) : (word32 b0 b1 b2 b3).getLsbD i =
      if i < 8 then b0.getLsbD i else if i - 8 < 8 then b1.getLsbD (i - 8)
      else if i - 8 - 8 < 8 then b2.getLsbD (i - 8 - 8) else b3.getLsbD (i - 8 - 8 - 8) := by
    change (b3 ++ b2 ++ b1 ++ b0 : BitVec (8 + 8 + 8 + 8)).getLsbD i = _
    rw [BitVec.getLsbD_append, BitVec.getLsbD_append, BitVec.getLsbD_append]
  rw [bytesLe32, h 0 b0, h 8 b1, h 16 b2, h 24 b3]
  · intro i hi
    rw [bit, if_neg (by omega), if_neg (by omega), if_neg (by omega)]
    congr 1
    omega
  · intro i hi
    rw [bit, if_neg (by omega), if_neg (by omega), if_pos (by omega)]
    congr 1
    omega
  · intro i hi
    rw [bit, if_neg (by omega), if_pos (by omega)]
    congr 1
    omega
  · intro i hi
    rw [bit, if_pos (by omega)]
    congr 1
    omega

@[simp] theorem length_bytesLe16 (v : Bits16) : (bytesLe16 v).length = 2 := rfl

@[simp] theorem length_bytesLe32 (v : Bits32) : (bytesLe32 v).length = 4 := rfl

@[simp] theorem length_leBytes (k v : Nat) : (leBytes k v).length = k := by
  induction k generalizing v with
  | zero => rfl
  | succ k ih => simp [leBytes, ih]

/-- The low byte of a wider word, as leBytes splits it. -/
theorem ofNat_div_extract {w : Nat} (v : BitVec w) (i : Nat) :
    BitVec.ofNat 8 (v.toNat / 2 ^ i) = v.extractLsb' i 8 := by
  apply BitVec.eq_of_toNat_eq
  simp [BitVec.extractLsb'_toNat, Nat.shiftRight_eq_div_pow]

theorem leBytes_one (v : Byte) : leBytes 1 v.toNat = [v] := by
  simp [leBytes]

theorem leBytes_two (v : Bits16) : leBytes 2 v.toNat = bytesLe16 v := by
  have h := ofNat_div_extract v 8
  simp only [leBytes, bytesLe16]
  rw [show (256 : Nat) = 2 ^ 8 from rfl, h, ← ofNat_div_extract v 0]
  simp

theorem leBytes_four (v : Bits32) : leBytes 4 v.toNat = bytesLe32 v := by
  simp only [leBytes, bytesLe32, ← ofNat_div_extract, Nat.div_div_eq_div_mul]
  norm_num

/-! ### MemRead on a list -/

theorem memRead1_ofList (s : List Byte) (o : Nat) : memRead1 (ofList s) o = s[o]? := rfl

theorem memRead2_of_some {f : Nat → Option Byte} {o : Nat} {b0 b1 : Byte} (h0 : f o = some b0)
    (h1 : f (o + 1) = some b1) : memRead2 f o = some (word16 b0 b1) := by
  simp [memRead2, h0, h1]

theorem memRead4_of_some {f : Nat → Option Byte} {o : Nat} {b0 b1 b2 b3 : Byte} (h0 : f o = some b0)
    (h1 : f (o + 1) = some b1) (h2 : f (o + 2) = some b2) (h3 : f (o + 3) = some b3) :
    memRead4 f o = some (word32 b0 b1 b2 b3) := by
  simp [memRead4, h0, h1, h2, h3]

/-- MemRead of two bytes that are there. -/
theorem memRead2_isSome {f : Nat → Option Byte} {o : Nat} :
    (memRead2 f o).isSome ↔ (f o).isSome ∧ (f (o + 1)).isSome := by
  cases h0 : f o <;> cases h1 : f (o + 1) <;> simp [memRead2, h0, h1]

/-- MemRead of four bytes that are there. -/
theorem memRead4_isSome {f : Nat → Option Byte} {o : Nat} :
    (memRead4 f o).isSome ↔
      (f o).isSome ∧ (f (o + 1)).isSome ∧ (f (o + 2)).isSome ∧ (f (o + 3)).isSome := by
  cases h0 : f o <;> cases h1 : f (o + 1) <;> cases h2 : f (o + 2) <;> cases h3 : f (o + 3) <;>
    simp [memRead4, h0, h1, h2, h3]

/-- The length field of a list can be read as soon as 7 bytes are there (R165). -/
theorem memRead4_length_field (s : List Byte) : (memRead4 (ofList s) 3).isSome ↔ 7 ≤ s.length := by
  rw [memRead4_isSome]
  simp [ofList]
  omega

theorem memRead2_congr {f g : Nat → Option Byte} {o : Nat} (h : ∀ i, o ≤ i → i < o + 2 → f i = g i) :
    memRead2 f o = memRead2 g o := by
  simp only [memRead2, h o (by omega) (by omega), h (o + 1) (by omega) (by omega)]

theorem memRead4_congr {f g : Nat → Option Byte} {o : Nat} (h : ∀ i, o ≤ i → i < o + 4 → f i = g i) :
    memRead4 f o = memRead4 g o := by
  simp only [memRead4, h o (by omega) (by omega), h (o + 1) (by omega) (by omega), h (o + 2) (by omega) (by omega),
    h (o + 3) (by omega) (by omega)]

/-- The length field of a list is read from its first 7 bytes alone. -/
theorem memRead4_append {s : List Byte} (h : 7 ≤ s.length) (u : List Byte) :
    memRead4 (ofList (s ++ u)) 3 = memRead4 (ofList s) 3 :=
  memRead4_congr fun i _ h2 => by simp [ofList, List.getElem?_append_left (show i < s.length by omega)]

end Sys2Proof.Machine
end

