-- ==== Sys2Proof/Laws/Memory.lean ====
section
/-! SUPPORT. Laws of the byte buffers (spec/20_memory.md R52, R53): a read after a write, the other bytes, the canonical form,
and what a buffer made of a byte sequence holds. -/

namespace Sys2Proof.Machine

/-! ### One byte -/

@[simp] theorem read_nil (a : Nat) : Memory.read [] a = none := rfl

theorem read_cons (k : Nat) (v : Byte) (m : Memory) (a : Nat) :
    Memory.read ((k, v) :: m) a = if k = a then some v else Memory.read m a := rfl

@[simp] theorem read_write_same (m : Memory) (a : Nat) (v : Byte) : (m.write a v).read a = some v := by
  induction m with
  | nil => simp [Memory.write, Memory.read]
  | cons c m ih =>
    simp only [Memory.write]
    split
    · simp [Memory.read]
    · split
      · simp [Memory.read]
      · rename_i h
        simp [Memory.read, Ne.symm h, ih]

theorem read_write_other (m : Memory) (a b : Nat) (v : Byte) (h : b ≠ a) : (m.write a v).read b = m.read b := by
  induction m with
  | nil => simp [Memory.write, Memory.read, Ne.symm h]
  | cons c m ih =>
    simp only [Memory.write]
    split
    · simp [Memory.read, Ne.symm h]
    · split
      · rename_i e
        simp [Memory.read, ← e, Ne.symm h]
      · simp [Memory.read, ih]

/-- A write adds at most its own offset. -/
theorem mem_write {m : Memory} {a : Nat} {v : Byte} {c : Host.Cell} (h : c ∈ m.write a v) : c = (a, v) ∨ c ∈ m := by
  induction m with
  | nil => simpa [Memory.write] using h
  | cons d m ih =>
    simp only [Memory.write] at h
    split at h
    · simpa using h
    · split at h <;> simp only [List.mem_cons] at h ⊢
      · tauto
      · rcases h with h | h
        · exact .inr (.inl h)
        · rcases ih h with h | h
          · exact .inl h
          · exact .inr (.inr h)

/-- A write keeps the canonical form. -/
theorem write_wf {m : Memory} (h : m.wf) (a : Nat) (v : Byte) : (m.write a v).wf := by
  induction m with
  | nil => simp [Memory.write]
  | cons d m ih =>
    obtain ⟨hd, hm⟩ := List.pairwise_cons.1 h
    simp only [Memory.write]
    split
    · rename_i hlt
      refine List.pairwise_cons.2 ⟨fun c hc => ?_, h⟩
      rcases List.mem_cons.1 hc with rfl | hc
      · exact hlt
      · exact hlt.trans (hd c hc)
    · split
      · rename_i e
        exact List.pairwise_cons.2 ⟨fun c hc => by simpa [e] using hd c hc, hm⟩
      · rename_i h1 h2
        refine List.pairwise_cons.2 ⟨fun c hc => ?_, ih hm⟩
        rcases mem_write hc with rfl | hc
        · exact (show d.1 < a by omega)
        · exact hd c hc

theorem write_within {m : Memory} {cap a : Nat} (h : m.within cap) (ha : a < cap) (v : Byte) :
    (m.write a v).within cap := by
  intro c hc
  rcases mem_write hc with rfl | hc
  · exact ha
  · exact h c hc

/-! ### Several bytes -/

theorem read_writeBytes_lt (m : Memory) (o : Nat) (s : List Byte) (a : Nat) (h : a < o) :
    (m.writeBytes o s).read a = m.read a := by
  induction s generalizing m o with
  | nil => rfl
  | cons b s ih => rw [Memory.writeBytes, ih _ _ (by omega), read_write_other _ _ _ _ (by omega)]

/-- What a stored sequence reads as, at its own offsets and elsewhere. -/
theorem read_writeBytes (m : Memory) (o : Nat) (s : List Byte) (a : Nat) :
    (m.writeBytes o s).read a = if o ≤ a ∧ a < o + s.length then s[a - o]? else m.read a := by
  induction s generalizing m o with
  | nil => simp [Memory.writeBytes]
  | cons b s ih =>
    rw [Memory.writeBytes]
    by_cases h0 : a = o
    · subst h0
      simp [read_writeBytes_lt _ _ _ _ (Nat.lt_succ_self a)]
    · rw [ih, read_write_other _ _ _ _ h0]
      by_cases h : o + 1 ≤ a ∧ a < o + 1 + s.length
      · have e : a - o = (a - (o + 1)) + 1 := by omega
        rw [if_pos h, if_pos (by simp; omega), e, List.getElem?_cons_succ]
      · rw [if_neg h, if_neg (by simp; omega)]

theorem writeBytes_wf {m : Memory} (h : m.wf) (o : Nat) (s : List Byte) : (m.writeBytes o s).wf := by
  induction s generalizing m o with
  | nil => exact h
  | cons b s ih => exact ih (write_wf h o b) (o + 1)

theorem writeBytes_within {m : Memory} {cap : Nat} (h : m.within cap) (o : Nat) (s : List Byte)
    (hs : o + s.length ≤ cap) : (m.writeBytes o s).within cap := by
  induction s generalizing m o with
  | nil => exact h
  | cons b s ih =>
    simp only [List.length_cons] at hs
    exact ih (write_within h (by omega) b) (o + 1) (by omega)

theorem writeBytes_append (m : Memory) (o : Nat) (s u : List Byte) :
    m.writeBytes o (s ++ u) = (m.writeBytes o s).writeBytes (o + s.length) u := by
  induction s generalizing m o with
  | nil => rfl
  | cons b s ih => simp [Memory.writeBytes, ih, show o + 1 + s.length = o + (s.length + 1) by omega]

/-! ### A buffer made of a sequence -/

theorem read_cellsFrom (o : Nat) (s : List Byte) (a : Nat) :
    (cellsFrom o s).read a = if o ≤ a then s[a - o]? else none := by
  induction s generalizing o with
  | nil => simp [cellsFrom]
  | cons b s ih =>
    rw [cellsFrom, read_cons]
    by_cases h : o = a
    · subst h; simp
    · rw [if_neg h, ih]
      by_cases h1 : o + 1 ≤ a
      · have e : a - o = (a - (o + 1)) + 1 := by omega
        rw [if_pos h1, if_pos (by omega), e, List.getElem?_cons_succ]
      · rw [if_neg h1, if_neg (by omega)]

@[simp] theorem read_bufferOf (s : List Byte) (a : Nat) : (bufferOf s).read a = s[a]? := by
  simp [bufferOf, read_cellsFrom]

theorem read_bufferOf_eq (s : List Byte) : (bufferOf s).read = ofList s := by
  funext a; simp [ofList]

theorem mem_cellsFrom {o : Nat} {s : List Byte} {c : Host.Cell} (h : c ∈ cellsFrom o s) :
    o ≤ c.1 ∧ c.1 < o + s.length := by
  induction s generalizing o with
  | nil => simp [cellsFrom] at h
  | cons b s ih =>
    simp only [cellsFrom, List.mem_cons] at h
    rcases h with rfl | h
    · simp
    · have := ih h
      simp only [List.length_cons]
      omega

theorem cellsFrom_wf (o : Nat) (s : List Byte) : (cellsFrom o s).wf := by
  induction s generalizing o with
  | nil => exact List.Pairwise.nil
  | cons b s ih => exact List.pairwise_cons.2 ⟨fun c hc => (mem_cellsFrom hc).1, ih (o + 1)⟩

theorem bufferOf_wf (s : List Byte) : (bufferOf s).wf := cellsFrom_wf 0 s

theorem bufferOf_within {s : List Byte} {cap : Nat} (h : s.length ≤ cap) : (bufferOf s).within cap := fun c hc => by
  have := mem_cellsFrom hc
  omega

theorem write_cellsFrom_end (o : Nat) (s : List Byte) (b : Byte) :
    (cellsFrom o s).write (o + s.length) b = cellsFrom o (s ++ [b]) := by
  induction s generalizing o with
  | nil => rfl
  | cons c s ih =>
    have e : o + (c :: s).length = o + 1 + s.length := by simp; omega
    simp only [cellsFrom, List.cons_append, Memory.write, e]
    rw [if_neg (by omega), if_neg (by omega), ih]

/-- Storing bytes after a sequence's own extends the sequence. -/
theorem writeBytes_bufferOf (s u : List Byte) : (bufferOf s).writeBytes s.length u = bufferOf (s ++ u) := by
  induction u generalizing s with
  | nil => simp [Memory.writeBytes]
  | cons b u ih =>
    have h := write_cellsFrom_end 0 s b
    rw [Nat.zero_add] at h
    have e : s.length + 1 = (s ++ [b]).length := by simp
    rw [Memory.writeBytes, bufferOf, h, e, ← bufferOf, ih, List.append_assoc]
    rfl

theorem writeBytes_nil_eq_bufferOf (s : List Byte) : Memory.writeBytes [] 0 s = bufferOf s :=
  writeBytes_bufferOf [] s

/-! ### Reading a span -/

/-- A span of a list that the list has. -/
theorem readSpan_ofList (s : List Byte) (o k : Nat) (h : o + k ≤ s.length) :
    readSpan (ofList s) o k = some ((s.drop o).take k) := by
  induction k generalizing o with
  | zero => simp [readSpan]
  | succ k ih =>
    have ho : o < s.length := by omega
    have e : ofList s o = some s[o] := List.getElem?_eq_getElem ho
    simp only [readSpan, e, ih (o + 1) (by omega), Option.map_some]
    rw [List.drop_eq_getElem_cons ho, List.take_succ_cons]

/-- readSpan depends on the source at its own offsets alone. -/
theorem readSpan_congr {f g : Nat → Option Byte} (o k : Nat) (h : ∀ i, o ≤ i → i < o + k → f i = g i) :
    readSpan f o k = readSpan g o k := by
  induction k generalizing o with
  | zero => rfl
  | succ k ih =>
    simp only [readSpan, h o (by omega) (by omega)]
    rw [ih (o + 1) fun i h1 h2 => h i (by omega) (by omega)]

/-- A span that cannot be read has a byte that is not there. -/
theorem readSpan_eq_none {f : Nat → Option Byte} {o k : Nat} (h : readSpan f o k = none) :
    ∃ i, o ≤ i ∧ i < o + k ∧ f i = none := by
  induction k generalizing o with
  | zero => simp [readSpan] at h
  | succ k ih =>
    cases hf : f o with
    | none => exact ⟨o, le_refl o, by omega, hf⟩
    | some b =>
      simp only [readSpan, hf, Option.map_eq_none_iff] at h
      obtain ⟨i, h1, h2, h3⟩ := ih h
      exact ⟨i, by omega, by omega, h3⟩

end Sys2Proof.Machine
end

