-- ==== Sys2Proof/Laws/Codec.lean ====
section
/-! SUPPORT. Laws of the frame codec: what decodeFrame answers on a byte sequence (spec/42_frame_decode.md R140), that it
reads its own n bytes and no other (R151), and the shape of an encoded frame (spec/41_frame_encode.md R130). -/

namespace Sys2Proof.Machine

/-- The checks of R140 on a byte sequence, as one chain. -/
def checkChain (p : Crcp) (raw : List Byte) : Except FrameError FrameParts :=
  if raw.length = 0 then .error .incomplete
  else if raw.getD 0 0#8 ≠ startByte then .error .badStart
  else if raw.length < 8 then .error .incomplete
  else if raw.getD 7 0#8 ≠ tokenByte then .error .badToken
  else
    let len := word32 (raw.getD 3 0#8) (raw.getD 4 0#8) (raw.getD 5 0#8) (raw.getD 6 0#8)
    if raw.length < frameTotal len then .error .incomplete
    else if crc16 p (raw.take (8 + len.toNat)) ≠
        word16 (raw.getD (8 + len.toNat) 0#8) (raw.getD (8 + len.toNat + 1) 0#8) then .error .crcMismatch
    else .ok ⟨word16 (raw.getD 1 0#8) (raw.getD 2 0#8), len, (raw.take (8 + len.toNat)).drop 8⟩

theorem ofList_eq_some_getD {s : List Byte} {i : Nat} (h : i < s.length) : ofList s i = some (s.getD i 0#8) := by
  simp [ofList, List.getD, h]

theorem frameTotal_eq (len : Bits32) : frameTotal len = 10 + len.toNat := by
  simp [frameTotal, hdrLen, crcLen]; omega

theorem frameTotal_sub (len : Bits32) : frameTotal len - crcLen = 8 + len.toNat := by
  simp [frameTotal, hdrLen, crcLen]

/-- FDEC of a whole byte sequence is the chain of checks; no read falls outside it (R151). -/
theorem decodeFrame_ofList (p : Crcp) (raw : List Byte) :
    decodeFrame p (ofList raw) raw.length = some (checkChain p raw) := by
  unfold decodeFrame checkChain
  by_cases h0 : raw.length = 0
  · rw [if_pos h0, if_pos h0]
  rw [if_neg h0, if_neg h0, memRead1, ofList_eq_some_getD (by omega), Option.bind_some]
  by_cases h1 : raw.getD 0 0#8 ≠ startByte
  · rw [if_pos h1, if_pos h1]
  rw [if_neg h1, if_neg h1]
  by_cases h8 : raw.length < 8
  · rw [if_pos h8, if_pos (show raw.length < hdrLen from h8)]
  rw [if_neg h8, if_neg (show ¬ raw.length < hdrLen from h8),
    memRead2_of_some (ofList_eq_some_getD (by omega)) (ofList_eq_some_getD (by omega)), Option.bind_some,
    memRead4_of_some (ofList_eq_some_getD (by omega)) (ofList_eq_some_getD (by omega))
      (ofList_eq_some_getD (by omega)) (ofList_eq_some_getD (by omega)),
    Option.bind_some, memRead1, ofList_eq_some_getD (by omega), Option.bind_some]
  by_cases h7 : raw.getD 7 0#8 ≠ tokenByte
  · rw [if_pos h7, if_pos h7]
  rw [if_neg h7, if_neg h7]
  dsimp only
  generalize word32 (raw.getD 3 0#8) (raw.getD 4 0#8) (raw.getD 5 0#8) (raw.getD 6 0#8) = len
  by_cases hn : raw.length < frameTotal len
  · rw [if_pos hn, if_pos hn]
  rw [if_neg hn, if_neg hn]
  rw [frameTotal_eq] at hn
  rw [frameTotal_sub, readSpan_ofList _ _ _ (by omega), Option.bind_some,
    memRead2_of_some (ofList_eq_some_getD (by omega)) (ofList_eq_some_getD (by omega)), Option.bind_some,
    List.drop_zero]
  generalize word16 (raw.getD (8 + len.toNat) 0#8) (raw.getD (8 + len.toNat + 1) 0#8) = field
  by_cases hc : crc16 p (raw.take (8 + len.toNat)) ≠ field
  · rw [if_pos hc, if_pos hc]
  · rw [if_neg hc, if_neg hc]
    rfl

/-- FDEC of a byte sequence, as RECEIVE uses it. -/
theorem decodeBytes_eq (p : Crcp) (raw : List Byte) : decodeBytes p raw = checkChain p raw := by
  simp [decodeBytes, decodeFrame_ofList]

/-- FDEC reads its n bytes and no other (R151). -/
theorem decodeFrame_congr {p : Crcp} {f g : Nat → Option Byte} {n : Nat} (h : ∀ i < n, f i = g i) :
    decodeFrame p f n = decodeFrame p g n := by
  unfold decodeFrame
  by_cases h0 : n = 0
  · simp [h0]
  rw [if_neg h0, if_neg h0, show memRead1 f 0 = memRead1 g 0 from h 0 (by omega)]
  congr 1
  funext start
  by_cases h1 : start ≠ startByte
  · rw [if_pos h1, if_pos h1]
  rw [if_neg h1, if_neg h1]
  by_cases h8 : n < hdrLen
  · rw [if_pos h8, if_pos h8]
  rw [if_neg h8, if_neg h8]
  simp only [hdrLen] at h8
  rw [memRead2_congr (g := g) fun i _ _ => h i (by omega), memRead4_congr (g := g) fun i _ _ => h i (by omega),
    show memRead1 f 7 = memRead1 g 7 from h 7 (by omega)]
  congr 1
  funext seqno
  congr 1
  funext len
  congr 1
  funext token
  by_cases h7 : token ≠ tokenByte
  · rw [if_pos h7, if_pos h7]
  rw [if_neg h7, if_neg h7]
  by_cases hn : n < frameTotal len
  · rw [if_pos hn, if_pos hn]
  rw [if_neg hn, if_neg hn]
  rw [frameTotal_eq] at hn
  rw [frameTotal_sub, readSpan_congr (g := g) 0 _ fun i _ _ => h i (by omega),
    memRead2_congr (g := g) fun i _ _ => h i (by omega)]

/-- FDEC of a source that holds the sequence raw, as FDEC of raw. -/
theorem decodeFrame_of_holds {p : Crcp} {f : Nat → Option Byte} {raw : List Byte}
    (h : ∀ i < raw.length, f i = raw[i]?) : decodeFrame p f raw.length = some (checkChain p raw) := by
  rw [decodeFrame_congr (g := ofList raw) h, decodeFrame_ofList]

/-- The bytes of a source whose first n offsets are all written. -/
theorem exists_list_of_isSome (f : Nat → Option Byte) (n : Nat) (h : ∀ i < n, (f i).isSome) :
    ∃ raw : List Byte, raw.length = n ∧ ∀ i < n, f i = raw[i]? :=
  ⟨(List.range n).map fun i => (f i).getD 0#8, by simp, fun i hi => by
    obtain ⟨b, hb⟩ := Option.isSome_iff_exists.1 (h i hi)
    simp [hi, hb]⟩

/-- FDEC stops only for want of a byte (U11). -/
theorem decodeFrame_eq_none {p : Crcp} {f : Nat → Option Byte} {n : Nat} (h : decodeFrame p f n = none) :
    ∃ o < n, f o = none := by
  by_contra hc
  push Not at hc
  obtain ⟨raw, rfl, hr⟩ := exists_list_of_isSome f n fun i hi => Option.isSome_iff_ne_none.2 (hc i hi)
  rw [decodeFrame_of_holds hr] at h
  exact absurd h (by simp)

/-- The errors of FDEC (R140, R201). -/
theorem decodeFrame_error {p : Crcp} {f : Nat → Option Byte} {n : Nat} {e : FrameError}
    (h : decodeFrame p f n = some (.error e)) :
    e = .incomplete ∨ e = .badStart ∨ e = .badToken ∨ e = .crcMismatch := by
  have hs : ∀ e', (some (.error e') : Option (Except FrameError FrameParts)) = some (.error e) → e' = e := by
    intro e' h
    simpa using h
  unfold decodeFrame at h
  by_cases h0 : n = 0
  · rw [if_pos h0] at h
    exact .inl (hs _ h).symm
  rw [if_neg h0] at h
  obtain ⟨start, -, h⟩ := Option.bind_eq_some_iff.1 h
  by_cases h1 : start ≠ startByte
  · rw [if_pos h1] at h
    exact .inr (.inl (hs _ h).symm)
  rw [if_neg h1] at h
  by_cases h2 : n < hdrLen
  · rw [if_pos h2] at h
    exact .inl (hs _ h).symm
  rw [if_neg h2] at h
  obtain ⟨seqno, -, h⟩ := Option.bind_eq_some_iff.1 h
  obtain ⟨len, -, h⟩ := Option.bind_eq_some_iff.1 h
  obtain ⟨token, -, h⟩ := Option.bind_eq_some_iff.1 h
  by_cases h3 : token ≠ tokenByte
  · rw [if_pos h3] at h
    exact .inr (.inr (.inl (hs _ h).symm))
  rw [if_neg h3] at h
  by_cases h4 : n < frameTotal len
  · rw [if_pos h4] at h
    exact .inl (hs _ h).symm
  rw [if_neg h4] at h
  obtain ⟨covered, -, h⟩ := Option.bind_eq_some_iff.1 h
  obtain ⟨field, -, h⟩ := Option.bind_eq_some_iff.1 h
  by_cases h5 : crc16 p covered ≠ field
  · rw [if_pos h5] at h
    exact .inr (.inr (.inr (hs _ h).symm))
  · rw [if_neg h5] at h
    simp at h

/-- The errors of FDEC of a byte sequence. -/
theorem checkChain_error {p : Crcp} {raw : List Byte} {e : FrameError} (h : checkChain p raw = .error e) :
    e = .incomplete ∨ e = .badStart ∨ e = .badToken ∨ e = .crcMismatch :=
  decodeFrame_error (by rw [decodeFrame_ofList, h])

/-! ### The encoded frame -/

theorem fitsPayload_iff {n : Nat} : fitsPayload n = true ↔ n < 2 ^ 32 := by
  rw [fitsPayload, decide_eq_true_iff, payloadLimit]

/-- A payload that fits has its length in the length field (R83). -/
theorem toNat_ofNat_length {n : Nat} (h : n < 2 ^ 32) : (BitVec.ofNat 32 n).toNat = n := by
  simpa using h

@[simp] theorem length_frameHeader (seqno : Bits16) (len : Bits32) : (frameHeader seqno len).length = 8 := rfl

@[simp] theorem length_frameBytes (seqno : Bits16) (payload : List Byte) (c : Bits16) :
    (frameBytes seqno payload c).length = 10 + payload.length := by
  simp [frameBytes]; omega

@[simp] theorem length_encodeFrame (p : Crcp) (seqno : Bits16) (payload : List Byte) :
    (encodeFrame p seqno payload).length = 10 + payload.length := by
  simp [encodeFrame]

theorem frameBytes_cons (seqno : Bits16) (payload : List Byte) (c : Bits16) :
    frameBytes seqno payload c =
      startByte :: seqno.extractLsb' 0 8 :: seqno.extractLsb' 8 8 ::
        (BitVec.ofNat 32 payload.length).extractLsb' 0 8 :: (BitVec.ofNat 32 payload.length).extractLsb' 8 8 ::
        (BitVec.ofNat 32 payload.length).extractLsb' 16 8 :: (BitVec.ofNat 32 payload.length).extractLsb' 24 8 ::
        tokenByte :: (payload ++ bytesLe16 c) := rfl

/-- The chain of checks of a sequence whose header is spelled out. -/
theorem checkChain_header (p : Crcp) (b0 s0 s1 l0 l1 l2 l3 t : Byte) (rest : List Byte) :
    checkChain p (b0 :: s0 :: s1 :: l0 :: l1 :: l2 :: l3 :: t :: rest) =
      if b0 ≠ startByte then .error .badStart
      else if t ≠ tokenByte then .error .badToken
      else if rest.length < (word32 l0 l1 l2 l3).toNat + 2 then .error .incomplete
      else if crc16 p (b0 :: s0 :: s1 :: l0 :: l1 :: l2 :: l3 :: t :: rest.take (word32 l0 l1 l2 l3).toNat) ≠
          word16 (rest.getD (word32 l0 l1 l2 l3).toNat 0#8) (rest.getD ((word32 l0 l1 l2 l3).toNat + 1) 0#8) then
        .error .crcMismatch
      else .ok ⟨word16 s0 s1, word32 l0 l1 l2 l3, rest.take (word32 l0 l1 l2 l3).toNat⟩ := by
  have e8 (n : Nat) : 8 + n = n + 1 + 1 + 1 + 1 + 1 + 1 + 1 + 1 := by omega
  have hl (n : Nat) : (rest.length + 8 < 10 + n) = (rest.length < n + 2) := by
    apply propext; omega
  simp only [checkChain, List.length_cons, List.getD_cons_zero, List.getD_cons_succ, frameTotal_eq, e8,
    List.take_succ_cons, List.drop_succ_cons, List.drop_zero]
  simp [hl, show ¬ rest.length + 1 + 1 + 1 + 1 + 1 + 1 + 1 + 1 < 8 by omega]

/-- FDEC accepts an encoded frame, whatever follows it (R150, R153). -/
theorem checkChain_encodeFrame (p : Crcp) (seqno : Bits16) (payload excess : List Byte)
    (h : payload.length < 2 ^ 32) :
    checkChain p (encodeFrame p seqno payload ++ excess) =
      .ok ⟨seqno, BitVec.ofNat 32 payload.length, payload⟩ := by
  have hn : (BitVec.ofNat 32 payload.length).toNat = payload.length := by
    simpa using h
  rw [encodeFrame, frameBytes_cons]
  simp only [List.cons_append, List.append_assoc, checkChain_header, word16_bytesLe16, word32_bytesLe32, hn,
    List.take_left]
  rw [if_neg (by simp), if_neg (by simp), if_neg (by simp; omega), if_neg]
  rw [List.getD_append_right _ _ _ _ (le_refl _), List.getD_append_right _ _ _ _ (Nat.le_succ _),
    Nat.sub_self, show payload.length.succ - payload.length = 1 by omega]
  simp [bytesLe16, frameHeader, bytesLe32]

/-! ### The operations -/

/-- ENCODE of a payload that fits (R130). -/
theorem exec_encode (s : State) (seqno : Bits16) (payload : List Byte) (h : payload.length < 2 ^ 32) :
    exec (.encode seqno payload) s =
      .next (returnResult (.encoded (encodeFrame s.params.crcp seqno payload))
        (writeTxbuf (encodeFrame s.params.crcp seqno payload) s)) := by
  simp only [exec, execEncode, fitsPayload_iff.2 h, if_true]

/-- What FDEC and DECODE find where RXBUF holds a byte sequence. -/
theorem decodeRxbuf_of_holds {s : State} {n : Bits33} {raw : List Byte} (h : holdsRaw s n raw) :
    decodeRxbuf s n = some (checkChain s.params.crcp raw) := by
  rw [decodeRxbuf, h.1, decodeFrame_of_holds h.2]

/-- FDEC where RXBUF holds a byte sequence (R140). -/
theorem exec_fdec_of_holds {s : State} {n : Bits33} {raw : List Byte} (h : holdsRaw s n raw) :
    exec (.fdec n) s = .next (returnResult (framedResult (checkChain s.params.crcp raw))
      (defineRx (framedDefines (checkChain s.params.crcp raw)) s)) := by
  simp only [exec, execFdec, decodeRxbuf_of_holds h]

/-- DECODE where RXBUF holds a byte sequence (R147). -/
theorem exec_decode_of_holds {s : State} {n : Bits33} {raw : List Byte} (h : holdsRaw s n raw) :
    exec (.decode n) s = .next (returnResult (decodeResult (splitReply s.params (checkChain s.params.crcp raw)))
      (defineRx (decodedDefines (splitReply s.params (checkChain s.params.crcp raw))) s)) := by
  simp only [exec, execDecode, decodeRxbuf_of_holds h]

end Sys2Proof.Machine
end

