-- ==== Sys2Proof/Laws/State.lean ====
section
/-! SUPPORT. One lemma per field per update of State, true by rfl, so that no proof unfolds a record update. -/

namespace Sys2Proof.Machine

/-! ### returnResult -/

@[simp] theorem returnResult_params (x : Result) (s : State) : (returnResult x s).params = s.params := rfl
@[simp] theorem returnResult_seq (x : Result) (s : State) : (returnResult x s).seq = s.seq := rfl
@[simp] theorem returnResult_crc (x : Result) (s : State) : (returnResult x s).crc = s.crc := rfl
@[simp] theorem returnResult_crcValid (x : Result) (s : State) : (returnResult x s).crcValid = s.crcValid := rfl
@[simp] theorem returnResult_matchFlag (x : Result) (s : State) : (returnResult x s).matchFlag = s.matchFlag := rfl
@[simp] theorem returnResult_status (x : Result) (s : State) : (returnResult x s).status = statusOf x := rfl
@[simp] theorem returnResult_errInfo (x : Result) (s : State) : (returnResult x s).errInfo = s.errInfo := rfl
@[simp] theorem returnResult_rxSeq (x : Result) (s : State) : (returnResult x s).rxSeq = s.rxSeq := rfl
@[simp] theorem returnResult_rxLen (x : Result) (s : State) : (returnResult x s).rxLen = s.rxLen := rfl
@[simp] theorem returnResult_rxCode (x : Result) (s : State) : (returnResult x s).rxCode = s.rxCode := rfl
@[simp] theorem returnResult_rxNeed (x : Result) (s : State) : (returnResult x s).rxNeed = s.rxNeed := rfl
@[simp] theorem returnResult_rxCnt (x : Result) (s : State) : (returnResult x s).rxCnt = s.rxCnt := rfl
@[simp] theorem returnResult_rxbuf (x : Result) (s : State) : (returnResult x s).rxbuf = s.rxbuf := rfl
@[simp] theorem returnResult_txLen (x : Result) (s : State) : (returnResult x s).txLen = s.txLen := rfl
@[simp] theorem returnResult_txbuf (x : Result) (s : State) : (returnResult x s).txbuf = s.txbuf := rfl
@[simp] theorem returnResult_result (x : Result) (s : State) : (returnResult x s).result = x := rfl
@[simp] theorem returnResult_pending (x : Result) (s : State) : (returnResult x s).pending = s.pending := rfl
@[simp] theorem returnResult_callerBuf (x : Result) (s : State) : (returnResult x s).callerBuf = s.callerBuf := rfl
@[simp] theorem returnResult_readAnswers (x : Result) (s : State) :
    (returnResult x s).readAnswers = s.readAnswers := rfl
@[simp] theorem returnResult_writeAnswers (x : Result) (s : State) :
    (returnResult x s).writeAnswers = s.writeAnswers := rfl
@[simp] theorem returnResult_sent (x : Result) (s : State) : (returnResult x s).sent = s.sent := rfl
@[simp] theorem returnResult_agenda (x : Result) (s : State) : (returnResult x s).agenda = s.agenda := rfl
@[simp] theorem returnResult_draws (x : Result) (s : State) : (returnResult x s).draws = s.draws := rfl

/-! ### defineRx -/

@[simp] theorem defineRx_params (d : RxDefines) (s : State) : (defineRx d s).params = s.params := rfl
@[simp] theorem defineRx_seq (d : RxDefines) (s : State) : (defineRx d s).seq = s.seq := rfl
@[simp] theorem defineRx_crc (d : RxDefines) (s : State) : (defineRx d s).crc = s.crc := rfl
@[simp] theorem defineRx_crcValid (d : RxDefines) (s : State) : (defineRx d s).crcValid = s.crcValid := rfl
@[simp] theorem defineRx_matchFlag (d : RxDefines) (s : State) : (defineRx d s).matchFlag = s.matchFlag := rfl
@[simp] theorem defineRx_status (d : RxDefines) (s : State) : (defineRx d s).status = s.status := rfl
@[simp] theorem defineRx_errInfo (d : RxDefines) (s : State) :
    (defineRx d s).errInfo = d.errInfo.getD (Config.freeErrInfo s.draws) := rfl
@[simp] theorem defineRx_rxSeq (d : RxDefines) (s : State) :
    (defineRx d s).rxSeq = d.rxSeq.getD (Config.freeRxSeq s.draws) := rfl
@[simp] theorem defineRx_rxLen (d : RxDefines) (s : State) :
    (defineRx d s).rxLen = d.rxLen.getD (Config.freeRxLen s.draws) := rfl
@[simp] theorem defineRx_rxCode (d : RxDefines) (s : State) :
    (defineRx d s).rxCode = d.rxCode.getD (Config.freeRxCode s.draws) := rfl
@[simp] theorem defineRx_rxNeed (d : RxDefines) (s : State) : (defineRx d s).rxNeed = s.rxNeed := rfl
@[simp] theorem defineRx_rxCnt (d : RxDefines) (s : State) : (defineRx d s).rxCnt = s.rxCnt := rfl
@[simp] theorem defineRx_rxbuf (d : RxDefines) (s : State) : (defineRx d s).rxbuf = s.rxbuf := rfl
@[simp] theorem defineRx_txLen (d : RxDefines) (s : State) : (defineRx d s).txLen = s.txLen := rfl
@[simp] theorem defineRx_txbuf (d : RxDefines) (s : State) : (defineRx d s).txbuf = s.txbuf := rfl
@[simp] theorem defineRx_result (d : RxDefines) (s : State) : (defineRx d s).result = s.result := rfl
@[simp] theorem defineRx_pending (d : RxDefines) (s : State) : (defineRx d s).pending = s.pending := rfl
@[simp] theorem defineRx_callerBuf (d : RxDefines) (s : State) : (defineRx d s).callerBuf = s.callerBuf := rfl
@[simp] theorem defineRx_readAnswers (d : RxDefines) (s : State) : (defineRx d s).readAnswers = s.readAnswers := rfl
@[simp] theorem defineRx_writeAnswers (d : RxDefines) (s : State) :
    (defineRx d s).writeAnswers = s.writeAnswers := rfl
@[simp] theorem defineRx_sent (d : RxDefines) (s : State) : (defineRx d s).sent = s.sent := rfl
@[simp] theorem defineRx_agenda (d : RxDefines) (s : State) : (defineRx d s).agenda = s.agenda := rfl
@[simp] theorem defineRx_draws (d : RxDefines) (s : State) : (defineRx d s).draws = s.draws + 1 := rfl

/-! ### forgetCounts -/

@[simp] theorem forgetCounts_params (s : State) : (forgetCounts s).params = s.params := rfl
@[simp] theorem forgetCounts_seq (s : State) : (forgetCounts s).seq = s.seq := rfl
@[simp] theorem forgetCounts_crc (s : State) : (forgetCounts s).crc = s.crc := rfl
@[simp] theorem forgetCounts_crcValid (s : State) : (forgetCounts s).crcValid = s.crcValid := rfl
@[simp] theorem forgetCounts_matchFlag (s : State) : (forgetCounts s).matchFlag = s.matchFlag := rfl
@[simp] theorem forgetCounts_status (s : State) : (forgetCounts s).status = s.status := rfl
@[simp] theorem forgetCounts_errInfo (s : State) : (forgetCounts s).errInfo = s.errInfo := rfl
@[simp] theorem forgetCounts_rxSeq (s : State) : (forgetCounts s).rxSeq = s.rxSeq := rfl
@[simp] theorem forgetCounts_rxLen (s : State) : (forgetCounts s).rxLen = s.rxLen := rfl
@[simp] theorem forgetCounts_rxCode (s : State) : (forgetCounts s).rxCode = s.rxCode := rfl
@[simp] theorem forgetCounts_rxNeed (s : State) : (forgetCounts s).rxNeed = Config.freeRxNeed s.draws := rfl
@[simp] theorem forgetCounts_rxCnt (s : State) : (forgetCounts s).rxCnt = Config.freeRxCnt s.draws := rfl
@[simp] theorem forgetCounts_rxbuf (s : State) : (forgetCounts s).rxbuf = s.rxbuf := rfl
@[simp] theorem forgetCounts_txLen (s : State) : (forgetCounts s).txLen = s.txLen := rfl
@[simp] theorem forgetCounts_txbuf (s : State) : (forgetCounts s).txbuf = s.txbuf := rfl
@[simp] theorem forgetCounts_result (s : State) : (forgetCounts s).result = s.result := rfl
@[simp] theorem forgetCounts_pending (s : State) : (forgetCounts s).pending = s.pending := rfl
@[simp] theorem forgetCounts_callerBuf (s : State) : (forgetCounts s).callerBuf = s.callerBuf := rfl
@[simp] theorem forgetCounts_readAnswers (s : State) : (forgetCounts s).readAnswers = s.readAnswers := rfl
@[simp] theorem forgetCounts_writeAnswers (s : State) : (forgetCounts s).writeAnswers = s.writeAnswers := rfl
@[simp] theorem forgetCounts_sent (s : State) : (forgetCounts s).sent = s.sent := rfl
@[simp] theorem forgetCounts_agenda (s : State) : (forgetCounts s).agenda = s.agenda := rfl
@[simp] theorem forgetCounts_draws (s : State) : (forgetCounts s).draws = s.draws + 1 := rfl

/-! ### transportWrite -/

@[simp] theorem transportWrite_params (bytes : List Byte) (s : State) :
    (transportWrite bytes s).params = s.params := rfl
@[simp] theorem transportWrite_seq (bytes : List Byte) (s : State) : (transportWrite bytes s).seq = s.seq := rfl
@[simp] theorem transportWrite_crc (bytes : List Byte) (s : State) : (transportWrite bytes s).crc = s.crc := rfl
@[simp] theorem transportWrite_crcValid (bytes : List Byte) (s : State) :
    (transportWrite bytes s).crcValid = s.crcValid := rfl
@[simp] theorem transportWrite_matchFlag (bytes : List Byte) (s : State) :
    (transportWrite bytes s).matchFlag = s.matchFlag := rfl
@[simp] theorem transportWrite_status (bytes : List Byte) (s : State) :
    (transportWrite bytes s).status = s.status := rfl
@[simp] theorem transportWrite_errInfo (bytes : List Byte) (s : State) :
    (transportWrite bytes s).errInfo = s.errInfo := rfl
@[simp] theorem transportWrite_rxSeq (bytes : List Byte) (s : State) : (transportWrite bytes s).rxSeq = s.rxSeq := rfl
@[simp] theorem transportWrite_rxLen (bytes : List Byte) (s : State) : (transportWrite bytes s).rxLen = s.rxLen := rfl
@[simp] theorem transportWrite_rxCode (bytes : List Byte) (s : State) :
    (transportWrite bytes s).rxCode = s.rxCode := rfl
@[simp] theorem transportWrite_rxNeed (bytes : List Byte) (s : State) :
    (transportWrite bytes s).rxNeed = s.rxNeed := rfl
@[simp] theorem transportWrite_rxCnt (bytes : List Byte) (s : State) : (transportWrite bytes s).rxCnt = s.rxCnt := rfl
@[simp] theorem transportWrite_rxbuf (bytes : List Byte) (s : State) : (transportWrite bytes s).rxbuf = s.rxbuf := rfl
@[simp] theorem transportWrite_txLen (bytes : List Byte) (s : State) : (transportWrite bytes s).txLen = s.txLen := rfl
@[simp] theorem transportWrite_txbuf (bytes : List Byte) (s : State) : (transportWrite bytes s).txbuf = s.txbuf := rfl
@[simp] theorem transportWrite_result (bytes : List Byte) (s : State) :
    (transportWrite bytes s).result = s.result := rfl
@[simp] theorem transportWrite_pending (bytes : List Byte) (s : State) :
    (transportWrite bytes s).pending = s.pending := rfl
@[simp] theorem transportWrite_callerBuf (bytes : List Byte) (s : State) :
    (transportWrite bytes s).callerBuf = s.callerBuf := rfl
@[simp] theorem transportWrite_readAnswers (bytes : List Byte) (s : State) :
    (transportWrite bytes s).readAnswers = s.readAnswers := rfl
@[simp] theorem transportWrite_writeAnswers (bytes : List Byte) (s : State) :
    (transportWrite bytes s).writeAnswers = s.writeAnswers.tail := rfl
@[simp] theorem transportWrite_sent (bytes : List Byte) (s : State) :
    (transportWrite bytes s).sent = s.sent ++ [reachedLine bytes (nextWriteAnswer s)] := rfl
@[simp] theorem transportWrite_agenda (bytes : List Byte) (s : State) :
    (transportWrite bytes s).agenda = s.agenda := rfl
@[simp] theorem transportWrite_draws (bytes : List Byte) (s : State) :
    (transportWrite bytes s).draws = s.draws + 1 := rfl

/-! ### writeTxbuf -/

@[simp] theorem writeTxbuf_params (frame : List Byte) (s : State) : (writeTxbuf frame s).params = s.params := rfl
@[simp] theorem writeTxbuf_seq (frame : List Byte) (s : State) : (writeTxbuf frame s).seq = s.seq := rfl
@[simp] theorem writeTxbuf_crc (frame : List Byte) (s : State) : (writeTxbuf frame s).crc = s.crc := rfl
@[simp] theorem writeTxbuf_crcValid (frame : List Byte) (s : State) :
    (writeTxbuf frame s).crcValid = s.crcValid := rfl
@[simp] theorem writeTxbuf_matchFlag (frame : List Byte) (s : State) :
    (writeTxbuf frame s).matchFlag = s.matchFlag := rfl
@[simp] theorem writeTxbuf_status (frame : List Byte) (s : State) : (writeTxbuf frame s).status = s.status := rfl
@[simp] theorem writeTxbuf_errInfo (frame : List Byte) (s : State) : (writeTxbuf frame s).errInfo = s.errInfo := rfl
@[simp] theorem writeTxbuf_rxSeq (frame : List Byte) (s : State) : (writeTxbuf frame s).rxSeq = s.rxSeq := rfl
@[simp] theorem writeTxbuf_rxLen (frame : List Byte) (s : State) : (writeTxbuf frame s).rxLen = s.rxLen := rfl
@[simp] theorem writeTxbuf_rxCode (frame : List Byte) (s : State) : (writeTxbuf frame s).rxCode = s.rxCode := rfl
@[simp] theorem writeTxbuf_rxNeed (frame : List Byte) (s : State) : (writeTxbuf frame s).rxNeed = s.rxNeed := rfl
@[simp] theorem writeTxbuf_rxCnt (frame : List Byte) (s : State) : (writeTxbuf frame s).rxCnt = s.rxCnt := rfl
@[simp] theorem writeTxbuf_rxbuf (frame : List Byte) (s : State) : (writeTxbuf frame s).rxbuf = s.rxbuf := rfl
@[simp] theorem writeTxbuf_txLen (frame : List Byte) (s : State) :
    (writeTxbuf frame s).txLen = BitVec.ofNat 33 frame.length := rfl
@[simp] theorem writeTxbuf_txbuf (frame : List Byte) (s : State) : (writeTxbuf frame s).txbuf = bufferOf frame := rfl
@[simp] theorem writeTxbuf_result (frame : List Byte) (s : State) : (writeTxbuf frame s).result = s.result := rfl
@[simp] theorem writeTxbuf_pending (frame : List Byte) (s : State) : (writeTxbuf frame s).pending = s.pending := rfl
@[simp] theorem writeTxbuf_callerBuf (frame : List Byte) (s : State) :
    (writeTxbuf frame s).callerBuf = s.callerBuf := rfl
@[simp] theorem writeTxbuf_readAnswers (frame : List Byte) (s : State) :
    (writeTxbuf frame s).readAnswers = s.readAnswers := rfl
@[simp] theorem writeTxbuf_writeAnswers (frame : List Byte) (s : State) :
    (writeTxbuf frame s).writeAnswers = s.writeAnswers := rfl
@[simp] theorem writeTxbuf_sent (frame : List Byte) (s : State) : (writeTxbuf frame s).sent = s.sent := rfl
@[simp] theorem writeTxbuf_agenda (frame : List Byte) (s : State) : (writeTxbuf frame s).agenda = s.agenda := rfl
@[simp] theorem writeTxbuf_draws (frame : List Byte) (s : State) : (writeTxbuf frame s).draws = s.draws := rfl

/-! ### arrive -/

@[simp] theorem arrive_params (bytes : List Byte) (s : State) : (arrive bytes s).params = s.params := rfl
@[simp] theorem arrive_seq (bytes : List Byte) (s : State) : (arrive bytes s).seq = s.seq := rfl
@[simp] theorem arrive_crc (bytes : List Byte) (s : State) : (arrive bytes s).crc = s.crc := rfl
@[simp] theorem arrive_crcValid (bytes : List Byte) (s : State) : (arrive bytes s).crcValid = s.crcValid := rfl
@[simp] theorem arrive_matchFlag (bytes : List Byte) (s : State) : (arrive bytes s).matchFlag = s.matchFlag := rfl
@[simp] theorem arrive_status (bytes : List Byte) (s : State) : (arrive bytes s).status = s.status := rfl
@[simp] theorem arrive_errInfo (bytes : List Byte) (s : State) : (arrive bytes s).errInfo = s.errInfo := rfl
@[simp] theorem arrive_rxSeq (bytes : List Byte) (s : State) : (arrive bytes s).rxSeq = s.rxSeq := rfl
@[simp] theorem arrive_rxLen (bytes : List Byte) (s : State) : (arrive bytes s).rxLen = s.rxLen := rfl
@[simp] theorem arrive_rxCode (bytes : List Byte) (s : State) : (arrive bytes s).rxCode = s.rxCode := rfl
@[simp] theorem arrive_rxNeed (bytes : List Byte) (s : State) : (arrive bytes s).rxNeed = s.rxNeed := rfl
@[simp] theorem arrive_rxCnt (bytes : List Byte) (s : State) : (arrive bytes s).rxCnt = s.rxCnt := rfl
@[simp] theorem arrive_rxbuf (bytes : List Byte) (s : State) : (arrive bytes s).rxbuf = s.rxbuf := rfl
@[simp] theorem arrive_txLen (bytes : List Byte) (s : State) : (arrive bytes s).txLen = s.txLen := rfl
@[simp] theorem arrive_txbuf (bytes : List Byte) (s : State) : (arrive bytes s).txbuf = s.txbuf := rfl
@[simp] theorem arrive_result (bytes : List Byte) (s : State) : (arrive bytes s).result = s.result := rfl
@[simp] theorem arrive_pending (bytes : List Byte) (s : State) : (arrive bytes s).pending = s.pending := rfl
@[simp] theorem arrive_callerBuf (bytes : List Byte) (s : State) : (arrive bytes s).callerBuf = s.callerBuf := rfl
@[simp] theorem arrive_readAnswers (bytes : List Byte) (s : State) :
    (arrive bytes s).readAnswers =
      appendChunks (Config.joinsWaiting s.draws) s.readAnswers (chop (Config.chunking s.draws) bytes) := rfl
@[simp] theorem arrive_writeAnswers (bytes : List Byte) (s : State) :
    (arrive bytes s).writeAnswers = s.writeAnswers := rfl
@[simp] theorem arrive_sent (bytes : List Byte) (s : State) : (arrive bytes s).sent = s.sent := rfl
@[simp] theorem arrive_agenda (bytes : List Byte) (s : State) : (arrive bytes s).agenda = s.agenda := rfl
@[simp] theorem arrive_draws (bytes : List Byte) (s : State) : (arrive bytes s).draws = s.draws + 1 := rfl

/-! ### readError -/

@[simp] theorem readError_params (s : State) : (readError s).params = s.params := rfl
@[simp] theorem readError_seq (s : State) : (readError s).seq = s.seq := rfl
@[simp] theorem readError_crc (s : State) : (readError s).crc = s.crc := rfl
@[simp] theorem readError_crcValid (s : State) : (readError s).crcValid = s.crcValid := rfl
@[simp] theorem readError_matchFlag (s : State) : (readError s).matchFlag = s.matchFlag := rfl
@[simp] theorem readError_status (s : State) : (readError s).status = s.status := rfl
@[simp] theorem readError_errInfo (s : State) : (readError s).errInfo = s.errInfo := rfl
@[simp] theorem readError_rxSeq (s : State) : (readError s).rxSeq = s.rxSeq := rfl
@[simp] theorem readError_rxLen (s : State) : (readError s).rxLen = s.rxLen := rfl
@[simp] theorem readError_rxCode (s : State) : (readError s).rxCode = s.rxCode := rfl
@[simp] theorem readError_rxNeed (s : State) : (readError s).rxNeed = s.rxNeed := rfl
@[simp] theorem readError_rxCnt (s : State) : (readError s).rxCnt = s.rxCnt := rfl
@[simp] theorem readError_rxbuf (s : State) : (readError s).rxbuf = s.rxbuf := rfl
@[simp] theorem readError_txLen (s : State) : (readError s).txLen = s.txLen := rfl
@[simp] theorem readError_txbuf (s : State) : (readError s).txbuf = s.txbuf := rfl
@[simp] theorem readError_result (s : State) : (readError s).result = s.result := rfl
@[simp] theorem readError_pending (s : State) : (readError s).pending = s.pending := rfl
@[simp] theorem readError_callerBuf (s : State) : (readError s).callerBuf = s.callerBuf := rfl
@[simp] theorem readError_readAnswers (s : State) : (readError s).readAnswers = s.readAnswers ++ [.error] := rfl
@[simp] theorem readError_writeAnswers (s : State) : (readError s).writeAnswers = s.writeAnswers := rfl
@[simp] theorem readError_sent (s : State) : (readError s).sent = s.sent := rfl
@[simp] theorem readError_agenda (s : State) : (readError s).agenda = s.agenda := rfl
@[simp] theorem readError_draws (s : State) : (readError s).draws = s.draws := rfl

/-! ### advanceSeq -/

@[simp] theorem advanceSeq_params (s : State) : (advanceSeq s).params = s.params := rfl
@[simp] theorem advanceSeq_seq (s : State) : (advanceSeq s).seq = s.seq + 1#16 := rfl
@[simp] theorem advanceSeq_crc (s : State) : (advanceSeq s).crc = s.crc := rfl
@[simp] theorem advanceSeq_crcValid (s : State) : (advanceSeq s).crcValid = s.crcValid := rfl
@[simp] theorem advanceSeq_matchFlag (s : State) : (advanceSeq s).matchFlag = s.matchFlag := rfl
@[simp] theorem advanceSeq_status (s : State) : (advanceSeq s).status = 0x00#8 := rfl
@[simp] theorem advanceSeq_errInfo (s : State) : (advanceSeq s).errInfo = s.errInfo := rfl
@[simp] theorem advanceSeq_rxSeq (s : State) : (advanceSeq s).rxSeq = s.rxSeq := rfl
@[simp] theorem advanceSeq_rxLen (s : State) : (advanceSeq s).rxLen = s.rxLen := rfl
@[simp] theorem advanceSeq_rxCode (s : State) : (advanceSeq s).rxCode = s.rxCode := rfl
@[simp] theorem advanceSeq_rxNeed (s : State) : (advanceSeq s).rxNeed = s.rxNeed := rfl
@[simp] theorem advanceSeq_rxCnt (s : State) : (advanceSeq s).rxCnt = s.rxCnt := rfl
@[simp] theorem advanceSeq_rxbuf (s : State) : (advanceSeq s).rxbuf = s.rxbuf := rfl
@[simp] theorem advanceSeq_txLen (s : State) : (advanceSeq s).txLen = s.txLen := rfl
@[simp] theorem advanceSeq_txbuf (s : State) : (advanceSeq s).txbuf = s.txbuf := rfl
@[simp] theorem advanceSeq_result (s : State) : (advanceSeq s).result = .ok := rfl
@[simp] theorem advanceSeq_pending (s : State) : (advanceSeq s).pending = s.pending := rfl
@[simp] theorem advanceSeq_callerBuf (s : State) : (advanceSeq s).callerBuf = s.callerBuf := rfl
@[simp] theorem advanceSeq_readAnswers (s : State) : (advanceSeq s).readAnswers = s.readAnswers := rfl
@[simp] theorem advanceSeq_writeAnswers (s : State) : (advanceSeq s).writeAnswers = s.writeAnswers := rfl
@[simp] theorem advanceSeq_sent (s : State) : (advanceSeq s).sent = s.sent := rfl
@[simp] theorem advanceSeq_agenda (s : State) : (advanceSeq s).agenda = s.agenda := rfl
@[simp] theorem advanceSeq_draws (s : State) : (advanceSeq s).draws = s.draws := rfl

/-! ### advance -/

@[simp] theorem advance_params (s : State) (more : Option Event) : (s.advance more).params = s.params := rfl
@[simp] theorem advance_seq (s : State) (more : Option Event) : (s.advance more).seq = s.seq := rfl
@[simp] theorem advance_crc (s : State) (more : Option Event) : (s.advance more).crc = s.crc := rfl
@[simp] theorem advance_crcValid (s : State) (more : Option Event) : (s.advance more).crcValid = s.crcValid := rfl
@[simp] theorem advance_matchFlag (s : State) (more : Option Event) : (s.advance more).matchFlag = s.matchFlag := rfl
@[simp] theorem advance_status (s : State) (more : Option Event) : (s.advance more).status = s.status := rfl
@[simp] theorem advance_errInfo (s : State) (more : Option Event) : (s.advance more).errInfo = s.errInfo := rfl
@[simp] theorem advance_rxSeq (s : State) (more : Option Event) : (s.advance more).rxSeq = s.rxSeq := rfl
@[simp] theorem advance_rxLen (s : State) (more : Option Event) : (s.advance more).rxLen = s.rxLen := rfl
@[simp] theorem advance_rxCode (s : State) (more : Option Event) : (s.advance more).rxCode = s.rxCode := rfl
@[simp] theorem advance_rxNeed (s : State) (more : Option Event) : (s.advance more).rxNeed = s.rxNeed := rfl
@[simp] theorem advance_rxCnt (s : State) (more : Option Event) : (s.advance more).rxCnt = s.rxCnt := rfl
@[simp] theorem advance_rxbuf (s : State) (more : Option Event) : (s.advance more).rxbuf = s.rxbuf := rfl
@[simp] theorem advance_txLen (s : State) (more : Option Event) : (s.advance more).txLen = s.txLen := rfl
@[simp] theorem advance_txbuf (s : State) (more : Option Event) : (s.advance more).txbuf = s.txbuf := rfl
@[simp] theorem advance_result (s : State) (more : Option Event) : (s.advance more).result = s.result := rfl
@[simp] theorem advance_pending (s : State) (more : Option Event) : (s.advance more).pending = s.pending := rfl
@[simp] theorem advance_callerBuf (s : State) (more : Option Event) : (s.advance more).callerBuf = s.callerBuf := rfl
@[simp] theorem advance_readAnswers (s : State) (more : Option Event) :
    (s.advance more).readAnswers = s.readAnswers := rfl
@[simp] theorem advance_writeAnswers (s : State) (more : Option Event) :
    (s.advance more).writeAnswers = s.writeAnswers := rfl
@[simp] theorem advance_sent (s : State) (more : Option Event) : (s.advance more).sent = s.sent := rfl
@[simp] theorem advance_agenda (s : State) (more : Option Event) :
    (s.advance more).agenda = more.toList ++ s.agenda.tail := rfl
@[simp] theorem advance_draws (s : State) (more : Option Event) : (s.advance more).draws = s.draws := rfl

/-! ### endReceive -/

@[simp] theorem endReceive_params (x : Result) (d : RxDefines) (buf : Memory) (s : State) :
    (endReceive x d buf s).params = s.params := rfl
@[simp] theorem endReceive_seq (x : Result) (d : RxDefines) (buf : Memory) (s : State) :
    (endReceive x d buf s).seq = s.seq := rfl
@[simp] theorem endReceive_crc (x : Result) (d : RxDefines) (buf : Memory) (s : State) :
    (endReceive x d buf s).crc = s.crc := rfl
@[simp] theorem endReceive_crcValid (x : Result) (d : RxDefines) (buf : Memory) (s : State) :
    (endReceive x d buf s).crcValid = s.crcValid := rfl
@[simp] theorem endReceive_matchFlag (x : Result) (d : RxDefines) (buf : Memory) (s : State) :
    (endReceive x d buf s).matchFlag = s.matchFlag := rfl
@[simp] theorem endReceive_status (x : Result) (d : RxDefines) (buf : Memory) (s : State) :
    (endReceive x d buf s).status = statusOf x := rfl
@[simp] theorem endReceive_errInfo (x : Result) (d : RxDefines) (buf : Memory) (s : State) :
    (endReceive x d buf s).errInfo = d.errInfo.getD (Config.freeErrInfo s.draws) := rfl
@[simp] theorem endReceive_rxSeq (x : Result) (d : RxDefines) (buf : Memory) (s : State) :
    (endReceive x d buf s).rxSeq = d.rxSeq.getD (Config.freeRxSeq s.draws) := rfl
@[simp] theorem endReceive_rxLen (x : Result) (d : RxDefines) (buf : Memory) (s : State) :
    (endReceive x d buf s).rxLen = d.rxLen.getD (Config.freeRxLen s.draws) := rfl
@[simp] theorem endReceive_rxCode (x : Result) (d : RxDefines) (buf : Memory) (s : State) :
    (endReceive x d buf s).rxCode = d.rxCode.getD (Config.freeRxCode s.draws) := rfl
@[simp] theorem endReceive_rxNeed (x : Result) (d : RxDefines) (buf : Memory) (s : State) :
    (endReceive x d buf s).rxNeed = Config.freeRxNeed (s.draws + 1) := rfl
@[simp] theorem endReceive_rxCnt (x : Result) (d : RxDefines) (buf : Memory) (s : State) :
    (endReceive x d buf s).rxCnt = Config.freeRxCnt (s.draws + 1) := rfl
@[simp] theorem endReceive_rxbuf (x : Result) (d : RxDefines) (buf : Memory) (s : State) :
    (endReceive x d buf s).rxbuf = buf := rfl
@[simp] theorem endReceive_txLen (x : Result) (d : RxDefines) (buf : Memory) (s : State) :
    (endReceive x d buf s).txLen = s.txLen := rfl
@[simp] theorem endReceive_txbuf (x : Result) (d : RxDefines) (buf : Memory) (s : State) :
    (endReceive x d buf s).txbuf = s.txbuf := rfl
@[simp] theorem endReceive_result (x : Result) (d : RxDefines) (buf : Memory) (s : State) :
    (endReceive x d buf s).result = x := rfl
@[simp] theorem endReceive_pending (x : Result) (d : RxDefines) (buf : Memory) (s : State) :
    (endReceive x d buf s).pending = none := rfl
@[simp] theorem endReceive_callerBuf (x : Result) (d : RxDefines) (buf : Memory) (s : State) :
    (endReceive x d buf s).callerBuf = s.callerBuf := rfl
@[simp] theorem endReceive_readAnswers (x : Result) (d : RxDefines) (buf : Memory) (s : State) :
    (endReceive x d buf s).readAnswers = s.readAnswers := rfl
@[simp] theorem endReceive_writeAnswers (x : Result) (d : RxDefines) (buf : Memory) (s : State) :
    (endReceive x d buf s).writeAnswers = s.writeAnswers := rfl
@[simp] theorem endReceive_sent (x : Result) (d : RxDefines) (buf : Memory) (s : State) :
    (endReceive x d buf s).sent = s.sent := rfl
@[simp] theorem endReceive_agenda (x : Result) (d : RxDefines) (buf : Memory) (s : State) :
    (endReceive x d buf s).agenda = s.agenda := rfl
@[simp] theorem endReceive_draws (x : Result) (d : RxDefines) (buf : Memory) (s : State) :
    (endReceive x d buf s).draws = s.draws + 2 := rfl

/-! ### sendFrame -/

@[simp] theorem sendFrame_params (data : List Byte) (s : State) : (sendFrame data s).params = s.params := by
  rw [sendFrame, returnResult_params, transportWrite_params, writeTxbuf_params]
@[simp] theorem sendFrame_seq (data : List Byte) (s : State) : (sendFrame data s).seq = s.seq := by
  rw [sendFrame, returnResult_seq, transportWrite_seq, writeTxbuf_seq]
@[simp] theorem sendFrame_crc (data : List Byte) (s : State) : (sendFrame data s).crc = s.crc := by
  rw [sendFrame, returnResult_crc, transportWrite_crc, writeTxbuf_crc]
@[simp] theorem sendFrame_crcValid (data : List Byte) (s : State) : (sendFrame data s).crcValid = s.crcValid := by
  rw [sendFrame, returnResult_crcValid, transportWrite_crcValid, writeTxbuf_crcValid]
@[simp] theorem sendFrame_matchFlag (data : List Byte) (s : State) : (sendFrame data s).matchFlag = s.matchFlag := by
  rw [sendFrame, returnResult_matchFlag, transportWrite_matchFlag, writeTxbuf_matchFlag]
@[simp] theorem sendFrame_errInfo (data : List Byte) (s : State) : (sendFrame data s).errInfo = s.errInfo := by
  rw [sendFrame, returnResult_errInfo, transportWrite_errInfo, writeTxbuf_errInfo]
@[simp] theorem sendFrame_rxSeq (data : List Byte) (s : State) : (sendFrame data s).rxSeq = s.rxSeq := by
  rw [sendFrame, returnResult_rxSeq, transportWrite_rxSeq, writeTxbuf_rxSeq]
@[simp] theorem sendFrame_rxLen (data : List Byte) (s : State) : (sendFrame data s).rxLen = s.rxLen := by
  rw [sendFrame, returnResult_rxLen, transportWrite_rxLen, writeTxbuf_rxLen]
@[simp] theorem sendFrame_rxCode (data : List Byte) (s : State) : (sendFrame data s).rxCode = s.rxCode := by
  rw [sendFrame, returnResult_rxCode, transportWrite_rxCode, writeTxbuf_rxCode]
@[simp] theorem sendFrame_rxNeed (data : List Byte) (s : State) : (sendFrame data s).rxNeed = s.rxNeed := by
  rw [sendFrame, returnResult_rxNeed, transportWrite_rxNeed, writeTxbuf_rxNeed]
@[simp] theorem sendFrame_rxCnt (data : List Byte) (s : State) : (sendFrame data s).rxCnt = s.rxCnt := by
  rw [sendFrame, returnResult_rxCnt, transportWrite_rxCnt, writeTxbuf_rxCnt]
@[simp] theorem sendFrame_rxbuf (data : List Byte) (s : State) : (sendFrame data s).rxbuf = s.rxbuf := by
  rw [sendFrame, returnResult_rxbuf, transportWrite_rxbuf, writeTxbuf_rxbuf]
@[simp] theorem sendFrame_pending (data : List Byte) (s : State) : (sendFrame data s).pending = s.pending := by
  rw [sendFrame, returnResult_pending, transportWrite_pending, writeTxbuf_pending]
@[simp] theorem sendFrame_callerBuf (data : List Byte) (s : State) : (sendFrame data s).callerBuf = s.callerBuf := by
  rw [sendFrame, returnResult_callerBuf, transportWrite_callerBuf, writeTxbuf_callerBuf]
@[simp] theorem sendFrame_readAnswers (data : List Byte) (s : State) : (sendFrame data s).readAnswers = s.readAnswers := by
  rw [sendFrame, returnResult_readAnswers, transportWrite_readAnswers, writeTxbuf_readAnswers]
@[simp] theorem sendFrame_agenda (data : List Byte) (s : State) : (sendFrame data s).agenda = s.agenda := by
  rw [sendFrame, returnResult_agenda, transportWrite_agenda, writeTxbuf_agenda]
@[simp] theorem sendFrame_result (data : List Byte) (s : State) :
    (sendFrame data s).result = sendResult (nextWriteAnswer s) := by
  rw [sendFrame, returnResult_result]
@[simp] theorem sendFrame_status (data : List Byte) (s : State) :
    (sendFrame data s).status = statusOf (sendResult (nextWriteAnswer s)) := by
  rw [sendFrame, returnResult_status]
@[simp] theorem sendFrame_txLen (data : List Byte) (s : State) :
    (sendFrame data s).txLen = BitVec.ofNat 33 (encodeFrame s.params.crcp s.seq data).length := by
  rw [sendFrame, returnResult_txLen, transportWrite_txLen, writeTxbuf_txLen]
@[simp] theorem sendFrame_txbuf (data : List Byte) (s : State) :
    (sendFrame data s).txbuf = bufferOf (encodeFrame s.params.crcp s.seq data) := by
  rw [sendFrame, returnResult_txbuf, transportWrite_txbuf, writeTxbuf_txbuf]
@[simp] theorem sendFrame_writeAnswers (data : List Byte) (s : State) :
    (sendFrame data s).writeAnswers = s.writeAnswers.tail := by
  rw [sendFrame, returnResult_writeAnswers, transportWrite_writeAnswers, writeTxbuf_writeAnswers]
@[simp] theorem sendFrame_sent (data : List Byte) (s : State) :
    (sendFrame data s).sent = s.sent ++ [reachedLine (encodeFrame s.params.crcp s.seq data) (nextWriteAnswer s)] := by
  rw [sendFrame, returnResult_sent, transportWrite_sent, writeTxbuf_sent]
  rfl
@[simp] theorem sendFrame_draws (data : List Byte) (s : State) : (sendFrame data s).draws = s.draws + 1 := by
  rw [sendFrame, returnResult_draws, transportWrite_draws, writeTxbuf_draws]

end Sys2Proof.Machine
end

