-- ==== Sys2Proof/Laws/Channel.lean ====
section
/-! SUPPORT. Laws of the reassembly loop and of RECEIVE (spec/43_channel.md R163 to R176): whether a frame is complete depends on
the bytes alone, not on their cutting into chunks; what the loop and RECEIVE can answer. -/

namespace Sys2Proof.Machine

/-- The loop's exit condition (R163, R166) of the bytes accumulated. -/
abbrev frameDone (s : List Byte) : Prop := lenKnownAt ≤ s.length ∧ needAfter s lenKnownAt ≤ s.length

theorem needAfter_short {s : List Byte} (h : s.length < 7) (n : Nat) : needAfter s n = n := by
  exact if_neg (show ¬ 7 ≤ s.length by omega)

theorem needAfter_of_len {s : List Byte} {len : Bits32} (h : memRead4 (ofList s) 3 = some len) (n : Nat) :
    needAfter s n = 10 + len.toNat := by
  have h7 : 7 ≤ s.length := (memRead4_length_field s).1 (by simp [h])
  simp only [needAfter, lenKnownAt, if_pos h7, h, frameTotal_eq]

/-- Once 7 bytes are there, the estimate is the length field's (R165). -/
theorem needAfter_long {s : List Byte} (h : 7 ≤ s.length) (n : Nat) :
    ∃ len : Bits32, memRead4 (ofList s) 3 = some len ∧ needAfter s n = 10 + len.toNat := by
  obtain ⟨len, hl⟩ := Option.isSome_iff_exists.1 ((memRead4_length_field s).2 h)
  exact ⟨len, hl, needAfter_of_len hl n⟩

/-- "Recomputing on every later iteration gives the same value" (R165). -/
theorem needAfter_append {s : List Byte} (h : 7 ≤ s.length) (u : List Byte) (n m : Nat) :
    needAfter (s ++ u) n = needAfter s m := by
  obtain ⟨len, hl, e⟩ := needAfter_long h m
  rw [e, needAfter_of_len (by rw [memRead4_append h, hl])]

/-- The estimate after more bytes does not depend on the estimate before. -/
theorem needAfter_needAfter (s u : List Byte) :
    needAfter (s ++ u) (needAfter s lenKnownAt) = needAfter (s ++ u) lenKnownAt := by
  by_cases h : 7 ≤ s.length
  · rw [needAfter_append h u _ lenKnownAt, needAfter_append h u _ lenKnownAt]
  · rw [needAfter_short (by omega : s.length < 7)]

theorem frameDone_append {s : List Byte} (h : frameDone s) (u : List Byte) : frameDone (s ++ u) := by
  obtain ⟨h7, hn⟩ := h
  simp only [lenKnownAt] at h7
  refine ⟨by simp [lenKnownAt]; omega, ?_⟩
  rw [needAfter_append h7 u _ lenKnownAt]
  simp
  omega

/-- One turn of the loop. -/
theorem reassemble_chunk (c : List Byte) (rest : List ReadAnswer) (acc : List Byte) :
    reassemble (.chunk c :: rest) acc (needAfter acc lenKnownAt) =
      if lenKnownAt ≤ (acc ++ c).length ∧ needAfter (acc ++ c) lenKnownAt ≤ (acc ++ c).length then
        .complete ((acc ++ c).take (needAfter (acc ++ c) lenKnownAt)) rest
      else reassemble rest (acc ++ c) (needAfter (acc ++ c) lenKnownAt) := by
  rw [reassemble, needAfter_needAfter]

/-- With less than a frame delivered, the loop goes on with all of it accumulated. -/
theorem reassemble_short (chunks : List (List Byte)) (later : List ReadAnswer) (acc : List Byte)
    (h : ¬ frameDone (acc ++ chunks.flatten)) :
    reassemble (chunks.map ReadAnswer.chunk ++ later) acc (needAfter acc lenKnownAt) =
      reassemble later (acc ++ chunks.flatten) (needAfter (acc ++ chunks.flatten) lenKnownAt) := by
  induction chunks generalizing acc with
  | nil => simp
  | cons c chunks ih =>
    simp only [List.flatten_cons, ← List.append_assoc] at h
    rw [List.map_cons, List.cons_append, reassemble_chunk,
      if_neg fun hd => h (frameDone_append hd chunks.flatten), ih _ h]
    simp

/-- With a whole frame delivered, the loop ends with exactly its bytes, for every cutting into chunks (R173); it has
taken the chunks up to the first with which the frame is complete. -/
theorem reassemble_done (chunks : List (List Byte)) (later : List ReadAnswer) (acc : List Byte)
    (h0 : ¬ frameDone acc) (h : frameDone (acc ++ chunks.flatten)) :
    ∃ taken rest, chunks = taken ++ rest ∧ frameDone (acc ++ taken.flatten) ∧
      ¬ frameDone (acc ++ taken.dropLast.flatten) ∧
      reassemble (chunks.map ReadAnswer.chunk ++ later) acc (needAfter acc lenKnownAt) =
        .complete ((acc ++ chunks.flatten).take (needAfter (acc ++ chunks.flatten) lenKnownAt))
          (rest.map ReadAnswer.chunk ++ later) := by
  induction chunks generalizing acc with
  | nil => simp at h; exact absurd h h0
  | cons c chunks ih =>
    rw [List.flatten_cons, ← List.append_assoc] at h ⊢
    rw [List.map_cons, List.cons_append, reassemble_chunk]
    by_cases hd : frameDone (acc ++ c)
    · refine ⟨[c], chunks, rfl, by simpa using hd, by simpa using h0, ?_⟩
      rw [if_pos hd, needAfter_append hd.1 chunks.flatten _ lenKnownAt, List.take_append_of_le_length hd.2]
    · obtain ⟨taken, rest, rfl, h1, h2, e⟩ := ih (acc ++ c) hd h
      refine ⟨c :: taken, rest, rfl, by simpa using h1, ?_, by rw [if_neg hd, e]⟩
      cases taken with
      | nil => simp at h1; exact absurd h1 hd
      | cons d taken => simpa using h2

/-- What the loop can answer, from a well-kept estimate: a failed read; the bytes of one whole frame; or all of the
answers' bytes accumulated and no whole frame among them. -/
theorem reassemble_cases (answers : List ReadAnswer) (acc : List Byte) (h0 : ¬ frameDone acc) :
    (∃ rest, reassemble answers acc (needAfter acc lenKnownAt) = .noReply rest ∧ rest <:+ answers) ∨
    (∃ all rest, frameDone all ∧
      reassemble answers acc (needAfter acc lenKnownAt) = .complete (all.take (needAfter all lenKnownAt)) rest ∧
      rest <:+ answers) ∨
    ∃ more, ¬ frameDone (acc ++ more) ∧
      reassemble answers acc (needAfter acc lenKnownAt) =
        .waiting (acc ++ more) (needAfter (acc ++ more) lenKnownAt) := by
  induction answers generalizing acc with
  | nil => exact .inr (.inr ⟨[], by simpa using h0, by simp [reassemble]⟩)
  | cons a rest ih =>
    cases a with
    | error => exact .inl ⟨rest, rfl, List.suffix_cons _ _⟩
    | chunk c =>
      rw [reassemble_chunk]
      by_cases hd : frameDone (acc ++ c)
      · exact .inr (.inl ⟨acc ++ c, rest, hd, by rw [if_pos hd], List.suffix_cons _ _⟩)
      · rw [if_neg hd]
        rcases ih (acc ++ c) hd with ⟨r, e, hs⟩ | ⟨all, r, hall, e, hs⟩ | ⟨more, hm, e⟩
        · exact .inl ⟨r, e, hs.trans (List.suffix_cons _ _)⟩
        · exact .inr (.inl ⟨all, r, hall, e, hs.trans (List.suffix_cons _ _)⟩)
        · exact .inr (.inr ⟨c ++ more, by simpa using hm, by simpa using e⟩)

/-- An empty buffer holds no frame. -/
theorem not_frameDone_nil : ¬ frameDone [] := by simp [frameDone, lenKnownAt]

theorem needAfter_nil : needAfter [] lenKnownAt = lenKnownAt := needAfter_short (by simp) _

/-- A frame the loop completes is as long as its own length field says, so DECODE never finds it Incomplete (R174). -/
theorem checkChain_ne_incomplete (p : Crcp) {all : List Byte} (h : frameDone all) :
    checkChain p (all.take (needAfter all lenKnownAt)) ≠ .error .incomplete := by
  obtain ⟨h7, hn⟩ := h
  obtain ⟨len, hl, e⟩ := needAfter_long h7 lenKnownAt
  rw [e] at hn ⊢
  generalize hf : all.take (10 + len.toNat) = f
  have hlen : f.length = 10 + len.toNat := by simp [← hf]; omega
  have hlf : memRead4 (ofList f) 3 = some len := by
    rw [← hl]
    exact memRead4_congr fun i _ h2 => by
      simp only [ofList, ← hf]
      exact List.getElem?_take_of_lt (by omega)
  have hw : word32 (f.getD 3 0#8) (f.getD 4 0#8) (f.getD 5 0#8) (f.getD 6 0#8) = len := by
    rw [memRead4_of_some (ofList_eq_some_getD (by omega)) (ofList_eq_some_getD (by omega))
      (ofList_eq_some_getD (by omega)) (ofList_eq_some_getD (by omega))] at hlf
    exact Option.some.inj hlf
  simp only [checkChain, hw, frameTotal_eq]
  rw [if_neg (by omega)]
  split
  · simp
  rw [if_neg (by omega)]
  split
  · simp
  rw [if_neg (by omega)]
  split <;> simp

/-! ### RECEIVE -/

/-- What RECEIVE can do from a well-kept estimate. -/
theorem receiveFrom_cases (acc : List Byte) (s : State) (h0 : ¬ frameDone acc) :
    (∃ rest, receiveFrom acc (needAfter acc lenKnownAt) s =
      .done (receiveNothing { s with readAnswers := rest })) ∨
    (∃ all rest, frameDone all ∧ receiveFrom acc (needAfter acc lenKnownAt) s =
      .done (receiveFrame (all.take (needAfter all lenKnownAt)) { s with readAnswers := rest })) ∨
    ∃ more, ¬ frameDone (acc ++ more) ∧ receiveFrom acc (needAfter acc lenKnownAt) s =
      .waits { s with
        readAnswers := []
        rxbuf := bufferOf (acc ++ more)
        rxCnt := BitVec.ofNat 33 (acc ++ more).length
        rxNeed := BitVec.ofNat 33 (needAfter (acc ++ more) lenKnownAt) } := by
  rcases reassemble_cases s.readAnswers acc h0 with ⟨rest, e, -⟩ | ⟨all, rest, hall, e, -⟩ | ⟨more, hm, e⟩
  · exact .inl ⟨rest, by simp [receiveFrom, e]⟩
  · exact .inr (.inl ⟨all, rest, hall, by simp [receiveFrom, e]⟩)
  · exact .inr (.inr ⟨more, hm, by simp only [receiveFrom, e]⟩)

/-- What a RECEIVE can do from its start. -/
theorem receiveStart_cases (s : State) :
    (∃ rest, receiveStart s = .done (receiveNothing { s with readAnswers := rest })) ∨
    (∃ all rest, frameDone all ∧ receiveStart s =
      .done (receiveFrame (all.take (needAfter all lenKnownAt)) { s with readAnswers := rest })) ∨
    ∃ acc, ¬ frameDone acc ∧ receiveStart s =
      .waits { s with
        readAnswers := []
        rxbuf := bufferOf acc
        rxCnt := BitVec.ofNat 33 acc.length
        rxNeed := BitVec.ofNat 33 (needAfter acc lenKnownAt) } := by
  have h := receiveFrom_cases [] s not_frameDone_nil
  rw [needAfter_nil] at h
  rcases h with h | h | ⟨more, hm, e⟩
  · exact .inl h
  · exact .inr (.inl h)
  · exact .inr (.inr ⟨more, by simpa using hm, by simpa [receiveStart] using e⟩)

/-- Where the answers that State lists deliver a whole frame, RECEIVE returns with it (R173). -/
theorem receiveStart_done (s : State) (chunks : List (List Byte)) (later : List ReadAnswer)
    (hd : delivers s chunks later) (h : frameDone chunks.flatten) :
    ∃ taken rest, chunks = taken ++ rest ∧ frameDone taken.flatten ∧ ¬ frameDone taken.dropLast.flatten ∧
      receiveStart s =
        .done (receiveFrame (chunks.flatten.take (needAfter chunks.flatten lenKnownAt))
          { s with readAnswers := rest.map ReadAnswer.chunk ++ later }) := by
  obtain ⟨taken, rest, hc, h1, h2, e⟩ := reassemble_done chunks later [] not_frameDone_nil (by simpa using h)
  rw [needAfter_nil] at e
  exact ⟨taken, rest, hc, by simpa using h1, by simpa using h2,
    by simp [receiveStart, receiveFrom, show s.readAnswers = _ from hd, e]⟩

/-- Where they deliver less than a frame and then an error, RECEIVE returns with nothing (R169). -/
theorem receiveStart_error (s : State) (chunks : List (List Byte)) (later : List ReadAnswer)
    (hd : delivers s chunks (.error :: later)) (h : ¬ frameDone chunks.flatten) :
    receiveStart s = .done (receiveNothing { s with readAnswers := later }) := by
  have e := reassemble_short chunks (.error :: later) [] (by simpa using h)
  rw [needAfter_nil] at e
  simp only [receiveStart, receiveFrom, show s.readAnswers = _ from hd, e, reassemble]

/-- Where they deliver less than a frame, RECEIVE waits (R163). -/
theorem receiveStart_waits (s : State) (chunks : List (List Byte)) (hd : delivers s chunks [])
    (h : ¬ frameDone chunks.flatten) :
    receiveStart s = .waits { s with
      readAnswers := []
      rxbuf := bufferOf chunks.flatten
      rxCnt := BitVec.ofNat 33 chunks.flatten.length
      rxNeed := BitVec.ofNat 33 (needAfter chunks.flatten lenKnownAt) } := by
  have e := reassemble_short chunks [] [] (by simpa using h)
  rw [needAfter_nil, List.nil_append] at e
  simp only [receiveStart, receiveFrom, show s.readAnswers = _ from hd, e, reassemble]

/-- While no frame is complete, what is accumulated and the estimate both fit 33 bits. -/
theorem not_frameDone_lt {acc : List Byte} (h : ¬ frameDone acc) :
    acc.length < bufCap ∧ needAfter acc lenKnownAt ≤ bufCap := by
  by_cases h7 : 7 ≤ acc.length
  · obtain ⟨len, -, e⟩ := needAfter_long h7 lenKnownAt
    have := len.isLt
    rw [frameDone, e] at h
    rw [e]
    simp only [lenKnownAt, bufCap] at h ⊢
    omega
  · rw [needAfter_short (by omega)]
    simp only [lenKnownAt, bufCap]
    omega

/-- RECEIVE that returns at once. -/
theorem exec_receive_done {s u : State} (h : receiveStart s = .done u) : exec .receive s = .next u := by
  simp only [exec, execReceive, h, afterReceive]

/-- RECEIVE that waits. -/
theorem exec_receive_waits {s u : State} (h : receiveStart s = .waits u) :
    exec .receive s = .next { u with pending := some .receive } := by
  simp only [exec, execReceive, h, afterReceive]

/-- A RECEIVE from its start, whose first chunk is less than a frame, goes on as from that chunk accumulated. -/
theorem receiveStart_chunk (s : State) {acc : List Byte} (h : ¬ frameDone acc) (answers : List ReadAnswer) :
    receiveStart { s with readAnswers := .chunk acc :: answers } =
      receiveFrom acc (needAfter acc lenKnownAt) { s with readAnswers := answers } := by
  have e := reassemble_chunk acc answers []
  simp only [needAfter_nil, List.nil_append, if_neg h] at e
  simp only [receiveStart, receiveFrom, e]

/-- A RECEIVE that waits goes on from the bytes accumulated in RXBUF[0:RX_CNT), with RX_NEED (R163). -/
theorem receiveResume_of {s : State} {acc : List Byte} (hb : s.rxbuf = bufferOf acc) (hc : s.rxCnt.toNat = acc.length) :
    receiveResume s = some (receiveFrom acc s.rxNeed.toNat (drawReadAnswer s)) := by
  have : readSpan (bufferOf acc).read 0 acc.length = some acc := by
    rw [read_bufferOf_eq, readSpan_ofList _ _ _ (by omega)]; simp
  simp only [receiveResume, hb, hc, this, Option.map_some]

/-- In a state where a RECEIVE waits well, that is from less than a frame and from the estimate it gives. -/
theorem receiveResume_eq {s : State} (w : waitingWell s) :
    ∃ acc, ¬ frameDone acc ∧ s.rxbuf = bufferOf acc ∧
      receiveResume s = some (receiveFrom acc (needAfter acc lenKnownAt) (drawReadAnswer s)) := by
  obtain ⟨acc, h1, h2, h3, h4⟩ := w
  exact ⟨acc, h4, h1, by rw [receiveResume_of h1 h2, h3]⟩

/-- The transport's next answer is the first that waits, or a free one where none does. -/
theorem drawReadAnswer_eq {s : State} {a : ReadAnswer} {later : List ReadAnswer}
    (h : s.readAnswers = a :: later ∨ (s.readAnswers = [] ∧ Config.transportRead s.draws = a ∧ later = [])) :
    ∃ d, drawReadAnswer s = { s with readAnswers := a :: later, draws := d } := by
  rcases h with h | ⟨h, rfl, rfl⟩
  · refine ⟨s.draws, ?_⟩
    unfold drawReadAnswer
    split
    · simp_all
    · rw [← h]
  · exact ⟨s.draws + 1, by rw [drawReadAnswer, h]⟩

/-! ### Arrivals -/

@[simp] theorem chop_flatten (sizes : List Nat) (bytes : List Byte) : (chop sizes bytes).flatten = bytes := by
  induction sizes generalizing bytes with
  | nil => simp [chop]
  | cons k sizes ih => simp [chop, ih, List.take_append_drop]

/-- What waits after an arrival: what waited before, and the chunks; or the last chunk that waited has grown (R58). -/
theorem appendChunks_cases (join : Bool) (waiting : List ReadAnswer) (chunks : List (List Byte)) :
    appendChunks join waiting chunks = waiting ++ chunks.map .chunk ∨
      ∃ before c d later, waiting = before ++ [.chunk c] ∧ chunks = d :: later ∧
        appendChunks join waiting chunks = before ++ ((c ++ d) :: later).map .chunk := by
  unfold appendChunks
  split
  · rename_i c d later hl
    refine .inr ⟨waiting.dropLast, c, d, later, ?_, rfl, rfl⟩
    exact (List.dropLast_append_getLast? _ hl).symm
  · exact .inl rfl

/-- Arriving bytes wait in their order behind what waited, and only the last chunk of that can have grown (R58). -/
theorem arrive_answers (bytes : List Byte) (s : State) :
    ∃ (before : List ReadAnswer) (chunks : List (List Byte)),
      (arrive bytes s).readAnswers = before ++ chunks.map ReadAnswer.chunk ∧
      ((s.readAnswers = before ∧ chunks.flatten = bytes) ∨
        ∃ c, s.readAnswers = before ++ [.chunk c] ∧ chunks.flatten = c ++ bytes) := by
  have hf := chop_flatten (Config.chunking s.draws) bytes
  rw [arrive_readAnswers]
  rcases appendChunks_cases (Config.joinsWaiting s.draws) s.readAnswers (chop (Config.chunking s.draws) bytes) with
    e | ⟨before, c, d, later, hw, hc, e⟩
  · exact ⟨_, _, e, .inl ⟨rfl, hf⟩⟩
  · rw [hc] at hf
    exact ⟨_, _, e, .inr ⟨c, hw, by simp [← hf]⟩⟩

/-- The length field of an encoded frame, whatever follows it (R83). -/
theorem memRead4_encodeFrame (p : Crcp) (seqno : Bits16) (payload excess : List Byte) :
    memRead4 (ofList (encodeFrame p seqno payload ++ excess)) 3 = some (BitVec.ofNat 32 payload.length) := by
  rw [encodeFrame, frameBytes_cons, memRead4_of_some rfl rfl rfl rfl, word32_bytesLe32]

/-- An encoded frame is complete, whatever follows it. -/
theorem frameDone_encodeFrame (p : Crcp) (seqno : Bits16) (payload excess : List Byte)
    (h : payload.length < 2 ^ 32) :
    frameDone (encodeFrame p seqno payload ++ excess) ∧
      needAfter (encodeFrame p seqno payload ++ excess) lenKnownAt = 10 + payload.length := by
  have hn := needAfter_of_len (memRead4_encodeFrame p seqno payload excess) lenKnownAt
  rw [toNat_ofNat_length h] at hn
  have hl : (encodeFrame p seqno payload ++ excess).length = 10 + payload.length + excess.length := by
    rw [List.length_append, length_encodeFrame]
  refine ⟨⟨?_, ?_⟩, hn⟩
  · rw [hl]; simp only [lenKnownAt]; omega
  · rw [hn, hl]; omega

/-- What afterReceive can answer. -/
theorem afterReceive_next {task : Task} {k : State → Host.Outcome State Fault Refusal} {ph : Phase} {t : State}
    (h : afterReceive task k ph = .next t) :
    (∃ u, ph = .done u ∧ k u = .next t) ∨ ∃ u, ph = .waits u ∧ t = { u with pending := some task } := by
  cases ph with
  | done u => exact .inl ⟨u, rfl, h⟩
  | waits u => exact .inr ⟨u, rfl, by simpa [afterReceive] using h.symm⟩

end Sys2Proof.Machine
end

