-- ==== Sys2Proof/Laws/Crc.lean ====
section
/-! SUPPORT. Laws of the CRC algorithm (spec/40_crc.md R111, R116): the shift is linear over GF(2), and the accumulator over a
concatenation. -/

namespace Sys2Proof.Machine

@[simp] theorem crcFold_nil (p : Crcp) (c : Bits16) : crcFold p c [] = c := rfl

@[simp] theorem crcFold_cons (p : Crcp) (c : Bits16) (b : Byte) (s : List Byte) :
    crcFold p c (b :: s) = crcFold p (crcStep p c b) s := rfl

theorem crcFold_append (p : Crcp) (c : Bits16) (s u : List Byte) :
    crcFold p c (s ++ u) = crcFold p (crcFold p c s) u := by
  simp [crcFold]

/-- The shift is linear over GF(2) (R120). -/
theorem crcShift_xor (p : Crcp) (c d : Bits16) : crcShift p (c ^^^ d) = crcShift p c ^^^ crcShift p d := by
  unfold crcShift
  rw [BitVec.getLsbD_xor]
  have e : ∀ x y z : Bits16, x ^^^ z ^^^ (y ^^^ z) = x ^^^ y := by
    intro x y z
    rw [BitVec.xor_comm y z, BitVec.xor_assoc, ← BitVec.xor_assoc z, BitVec.xor_self, BitVec.zero_xor]
  cases c.getLsbD 15 <;> cases d.getLsbD 15 <;> simp [BitVec.shiftLeft_xor_distrib, e] <;> ac_rfl

@[simp] theorem crcShift_zero (p : Crcp) : crcShift p 0#16 = 0#16 := by simp [crcShift]

theorem crcShifts_xor (p : Crcp) (k : Nat) (c d : Bits16) :
    crcShifts p k (c ^^^ d) = crcShifts p k c ^^^ crcShifts p k d := by
  induction k generalizing c d with
  | zero => rfl
  | succ k ih => simp [crcShifts, crcShift_xor, ih]

@[simp] theorem crcShifts_zero (p : Crcp) (k : Nat) : crcShifts p k 0#16 = 0#16 := by
  induction k with
  | zero => rfl
  | succ k ih => simp [crcShifts, ih]

theorem crcShifts_add (p : Crcp) (j k : Nat) (c : Bits16) :
    crcShifts p (j + k) c = crcShifts p k (crcShifts p j c) := by
  induction j generalizing c with
  | zero => simp [crcShifts]
  | succ j ih => rw [Nat.succ_add, crcShifts, crcShifts, ih]

/-- Two accumulators that take the same byte: their difference is shifted eight times. -/
theorem crcStep_xor (p : Crcp) (c d : Bits16) (b : Byte) :
    crcStep p c b ^^^ crcStep p d b = crcShifts p 8 (c ^^^ d) := by
  simp only [crcStep, ← crcShifts_xor]
  congr 1
  ac_nf
  simp

/-- Two accumulators that take the same bytes: their difference is shifted eight times a byte. -/
theorem crcFold_xor (p : Crcp) (c d : Bits16) (s : List Byte) :
    crcFold p c s ^^^ crcFold p d s = crcShifts p (8 * s.length) (c ^^^ d) := by
  induction s generalizing c d with
  | nil => rfl
  | cons b s ih =>
    rw [crcFold_cons, crcFold_cons, ih, crcStep_xor, ← crcShifts_add, List.length_cons]
    congr 1
    omega

/-- crc_final tells any two accumulators apart. -/
theorem crcFinal_injective (p : Crcp) : Function.Injective (crcFinal p) := by
  intro c d h
  simp only [crcFinal, reflect16] at h
  have h := BitVec.xor_left_inj _ |>.1 h
  split at h
  · have := congrArg BitVec.reverse h
    simpa using this
  · exact h

/-! ### The accumulator as a polynomial over GF(2) (R120) -/

open Polynomial in
/-- The polynomial whose coefficients are the accumulator's bits. -/
noncomputable def polyOf (c : Bits16) : (ZMod 2)[X] := ∑ i ∈ Finset.range 16, if c.getLsbD i then X ^ i else 0

open Polynomial in
/-- The generator: CRC_POLY with its leading term. -/
noncomputable def generator (p : Crcp) : (ZMod 2)[X] := X ^ 16 + polyOf p.poly

open Polynomial in
theorem polyOf_xor (c d : Bits16) : polyOf (c ^^^ d) = polyOf c + polyOf d := by
  unfold polyOf
  rw [← Finset.sum_add_distrib]
  refine Finset.sum_congr rfl fun i _ => ?_
  rw [BitVec.getLsbD_xor]
  cases c.getLsbD i <;> cases d.getLsbD i <;> simp
  rw [← two_mul, show (2 : (ZMod 2)[X]) = 0 from CharTwo.two_eq_zero, zero_mul]

open Polynomial in
theorem polyOf_shiftLeft (c : Bits16) :
    polyOf (c <<< 1) + (if c.getLsbD 15 then X ^ 16 else 0) = X * polyOf c := by
  have h0 : (c <<< 1).getLsbD 0 = false := by simp
  have e1 : polyOf (c <<< 1) =
      ∑ i ∈ Finset.range 15, if c.getLsbD i then (X : (ZMod 2)[X]) ^ (i + 1) else 0 := by
    unfold polyOf
    rw [Finset.sum_range_succ', h0]
    simp only [Bool.false_eq_true, if_false, add_zero]
    refine Finset.sum_congr rfl fun i hi => ?_
    have hi := Finset.mem_range.1 hi
    have : (c <<< 1).getLsbD (i + 1) = c.getLsbD i := by
      rw [BitVec.getLsbD_shiftLeft]
      simp
      omega
    rw [this]
  have e2 : X * polyOf c =
      (∑ i ∈ Finset.range 15, if c.getLsbD i then (X : (ZMod 2)[X]) ^ (i + 1) else 0) +
        if c.getLsbD 15 then X ^ 16 else 0 := by
    have hx : ∀ i, (X : (ZMod 2)[X]) * (if c.getLsbD i then X ^ i else 0) =
        if c.getLsbD i then X ^ (i + 1) else 0 := fun i => by
      split
      · rw [pow_succ, mul_comm]
      · rw [mul_zero]
    unfold polyOf
    rw [Finset.sum_range_succ, mul_add, Finset.mul_sum]
    simp only [hx]
  rw [e1, e2]

open Polynomial in
/-- A shift multiplies by X, modulo the generator. -/
theorem generator_dvd_crcShift (p : Crcp) (c : Bits16) : generator p ∣ X * polyOf c + polyOf (crcShift p c) := by
  have h := polyOf_shiftLeft c
  have two : ∀ a : (ZMod 2)[X], a + a = 0 := fun a => CharTwo.add_self_eq_zero a
  unfold crcShift
  split
  · rename_i h15
    rw [if_pos h15] at h
    refine ⟨1, ?_⟩
    rw [polyOf_xor, ← h, generator, mul_one,
      show polyOf (c <<< 1) + X ^ 16 + (polyOf (c <<< 1) + polyOf p.poly) =
        (polyOf (c <<< 1) + polyOf (c <<< 1)) + (X ^ 16 + polyOf p.poly) by ring, two, zero_add]
  · rename_i h15
    rw [if_neg h15, add_zero] at h
    rw [← h, two]
    exact dvd_zero _

open Polynomial in
theorem generator_dvd_crcShifts (p : Crcp) (k : Nat) (c : Bits16) :
    generator p ∣ X ^ k * polyOf c + polyOf (crcShifts p k c) := by
  induction k generalizing c with
  | zero => simp [crcShifts, CharTwo.add_self_eq_zero]
  | succ k ih =>
    have h := dvd_add ((generator_dvd_crcShift p c).mul_left (X ^ k)) (ih (crcShift p c))
    have e : X ^ k * (X * polyOf c + polyOf (crcShift p c)) +
          (X ^ k * polyOf (crcShift p c) + polyOf (crcShifts p k (crcShift p c))) =
        X ^ (k + 1) * polyOf c + polyOf (crcShifts p (k + 1) c) +
          (X ^ k * polyOf (crcShift p c) + X ^ k * polyOf (crcShift p c)) := by
      simp only [crcShifts]
      ring
    rwa [e, CharTwo.add_self_eq_zero, add_zero] at h

open Polynomial in
theorem polyOf_coeff (c : Bits16) (i : Nat) : (polyOf c).coeff i = if c.getLsbD i then 1 else 0 := by
  unfold polyOf
  rw [finsetSum_coeff]
  by_cases hi : i < 16
  · rw [Finset.sum_eq_single i]
    · split <;> simp
    · intro j _ hj
      split <;> simp [coeff_X_pow, Ne.symm hj]
    · intro h
      exact absurd (Finset.mem_range.2 hi) h
  · rw [BitVec.getLsbD_of_ge _ _ (by omega)]
    simp only [Bool.false_eq_true, if_false]
    refine Finset.sum_eq_zero fun j hj => ?_
    have := Finset.mem_range.1 hj
    split <;> simp [coeff_X_pow, show i ≠ j by omega]

open Polynomial in
theorem polyOf_bit (i : Nat) (hi : i < 16) : polyOf (1#16 <<< i) = X ^ i := by
  ext j
  rw [polyOf_coeff, coeff_X_pow]
  congr 1
  rw [BitVec.getLsbD_shiftLeft]
  simp
  omega

open Polynomial in
/-- The generator has at least two terms, so it divides no single-bit error: no number of shifts takes a single
bit to zero (R120). -/
theorem crcShifts_bit_ne_zero (p : Crcp) (hp : p.poly ≠ 0#16) (k i : Nat) (hi : i < 16) :
    crcShifts p k (1#16 <<< i) ≠ 0#16 := by
  intro h
  have hd := generator_dvd_crcShifts p k (1#16 <<< i)
  rw [h, polyOf_bit i hi, ← pow_add, show polyOf 0#16 = 0 by simp [polyOf], add_zero] at hd
  obtain ⟨j, -, u⟩ := (dvd_prime_pow prime_X _).1 hd
  obtain ⟨b, hb, hpb⟩ : ∃ b < 16, p.poly.getLsbD b = true := by
    by_contra hc
    push Not at hc
    exact hp (BitVec.eq_of_getLsbD_eq fun i hi => by simpa using hc i hi)
  have h16 : (generator p).coeff 16 = 1 := by
    simp [generator, polyOf_coeff, BitVec.getLsbD_of_ge]
  have hgb : (generator p).coeff b = 1 := by
    simp [generator, polyOf_coeff, hpb, coeff_X_pow, show b ≠ 16 by omega]
  obtain ⟨w, hw⟩ := u
  obtain ⟨r, hr, hrw⟩ := Polynomial.isUnit_iff.1 w.isUnit
  rw [← hrw] at hw
  have e16 := congrArg (fun q => q.coeff 16) hw
  have eb := congrArg (fun q => q.coeff b) hw
  simp only [coeff_mul_C, coeff_X_pow, h16, hgb, one_mul] at e16 eb
  by_cases hj : 16 = j
  · subst hj
    rw [if_neg (by omega)] at eb
    exact hr.ne_zero eb
  · rw [if_neg hj] at e16
    exact hr.ne_zero e16

end Sys2Proof.Machine
end

