-- ==== Sys2Proof/Laws/Decode.lean ====
section
/-! SUPPORT. Laws of the operation port's operands (spec/30_encoding.md R92): what the encoder lays out, the decoder takes. -/

namespace Sys2Proof

open Sys2Proof.Machine

theorem bytesLe33_eq (n : Bits33) :
    bytesLe33 n = [n.extractLsb' 0 8, n.extractLsb' 8 8, n.extractLsb' 16 8, n.extractLsb' 24 8,
      n.extractLsb' 32 8] := by
  simp only [bytesLe33, leBytes, ← ofNat_div_extract, Nat.div_div_eq_div_mul]
  norm_num

/-- A bits33 operand at the port, whatever follows it. -/
theorem takeBits33_bytesLe33 (n : Bits33) (rest : List Byte) :
    takeBits33 (bytesLe33 n ++ rest) = .ok (n, rest) := by
  have h1 : (n.extractLsb' 32 8).extractLsb' 1 7 = 0#7 := by
    ext i hi
    simp [BitVec.getLsbD_of_ge n (32 + (1 + i)) (by omega)]
  have h2 : (n.extractLsb' 32 8).extractLsb' 0 1 ++ word32 (n.extractLsb' 0 8) (n.extractLsb' 8 8)
      (n.extractLsb' 16 8) (n.extractLsb' 24 8) = n := by
    apply BitVec.eq_of_getLsbD_eq
    intro i hi
    simp only [word32, BitVec.getLsbD_append, BitVec.getLsbD_extractLsb']
    repeat' split
    · simp; omega
    · rw [show 8 + (i - 8) = i by omega]; simp; omega
    · rw [show 16 + (i - 8 - 8) = i by omega]; simp; omega
    · rw [show 24 + (i - 8 - 8 - 8) = i by omega]; simp; omega
    · obtain rfl : i = 32 := by omega
      simp
  rw [bytesLe33_eq]
  simp only [takeBits33, List.cons_append, List.nil_append, h1, if_true]
  rw [h2]

/-- A `bytes` operand at the port, whatever follows it. -/
theorem takeBytes_encodeBytes (s rest : List Byte) (h : s.length < payloadLimit) :
    takeBytes (encodeBytes s ++ rest) = .ok (s, rest) := by
  have hn : (BitVec.ofNat 33 s.length).toNat = s.length := by
    simp only [payloadLimit] at h
    simp
    omega
  rw [takeBytes, encodeBytes, List.append_assoc, takeBits33_bytesLe33]
  simp only [hn]
  rw [if_neg (by omega), if_neg (by simp)]
  simp

/-- A frame that the decoder finds on the line is written there, and what it leaves stands behind it (R80). -/
theorem decodeWire_some {bytes more : List Byte} {i : Instr} (h : decodeWire bytes = some (i, more)) :
    ∃ seqno payload crcField, i = .frame seqno payload crcField ∧ payload.length < 2 ^ 32 ∧
      bytes = frameBytes seqno payload crcField ++ more := by
  unfold decodeWire at h
  split at h
  · rename_i b0 s0 s1 l0 l1 l2 l3 t rest
    dsimp only at h
    split at h
    · rename_i hb
      obtain ⟨rfl, rfl⟩ := hb
      split at h
      · rename_i c0 c1 m hd
        simp only [Option.some.injEq, Prod.mk.injEq] at h
        obtain ⟨rfl, rfl⟩ := h
        have hl := (word32 l0 l1 l2 l3).isLt
        have hr : (word32 l0 l1 l2 l3).toNat ≤ rest.length := by
          by_contra hn
          rw [List.drop_eq_nil_of_le (by omega)] at hd
          cases hd
        have ht : (rest.take (word32 l0 l1 l2 l3).toNat).length = (word32 l0 l1 l2 l3).toNat := by simp [hr]
        refine ⟨_, _, _, rfl, by rw [ht]; exact hl, ?_⟩
        rw [frameBytes, frameHeader, ht]
        simp only [BitVec.ofNat_toNat, BitVec.setWidth_eq, bytesLe16_word16, bytesLe32_word32, List.cons_append,
          List.nil_append, List.append_assoc]
        rw [← hd, List.take_append_drop]
      · cases h
    · cases h
  · cases h

end Sys2Proof
end

