-- ==== Sys2Proof/Laws/PerInstr.lean ====
section
/-! SUPPORT. Per instruction: how it is presented, by its own row of the opcode table (spec/30_encoding.md R92, R89, R96): an
operation by its OP byte, a frame by its start and token bytes, a pseudo-operation by its name. -/

namespace Sys2Proof.Laws

open Sys2Proof Sys2Proof.Machine

/-- How the opcode table's row of an instruction begins what presents it. -/
inductive Row where
  | op (select : Byte)
  | frame
  | pseudo

/-- The row of each instruction (R92, R80, R96). -/
def rowOf : Instr → Row
  | .crcInit => .op 0x01#8
  | .crcUpd _ => .op 0x02#8
  | .crcGet => .op 0x03#8
  | .crcChk _ _ => .op 0x04#8
  | .encode _ _ => .op 0x08#8
  | .fdec _ => .op 0x09#8
  | .decode _ => .op 0x0A#8
  | .send _ => .op 0x10#8
  | .receive => .op 0x11#8
  | .seqAdv => .op 0x12#8
  | .seqRst => .op 0x13#8
  | .frame _ _ _ => .frame
  | .signOn => .pseudo
  | .readRamByte _ => .pseudo
  | .writeRamByte _ _ => .pseudo
  | .setParam _ => .pseudo
  | .getParam _ => .pseudo
  | .enterProgMode _ => .pseudo
  | .devReset _ => .pseudo
  | .setDeviceDescriptor _ => .pseudo
  | .readRange _ _ _ => .pseudo

/-- An event is of the form that a row gives. -/
def ofRow (i : Instr) (e : Event) : Row → Prop
  | .op select => ∃ operands, e = .port (select :: operands)
  | .frame => ∃ fields rest, e = .wire (startByte :: fields ++ tokenByte :: rest) ∧ fields.length = 6
  | .pseudo => e = .call i

namespace Presented

/-- The encoder presents the instruction by its own row. -/
def Statement (i : Instr) : Prop := ofRow i (encode i) (rowOf i)

theorem crcInit : Statement .crcInit := ⟨_, rfl⟩
theorem crcUpd (b : Byte) : Statement (.crcUpd b) := ⟨_, rfl⟩
theorem crcGet : Statement .crcGet := ⟨_, rfl⟩
theorem crcChk (lo hi : Byte) : Statement (.crcChk lo hi) := ⟨_, rfl⟩
theorem encode (seqno : Bits16) (payload : List Byte) : Statement (.encode seqno payload) := ⟨_, rfl⟩
theorem fdec (n : Bits33) : Statement (.fdec n) := ⟨_, rfl⟩
theorem decode (n : Bits33) : Statement (.decode n) := ⟨_, rfl⟩
theorem send (data : List Byte) : Statement (.send data) := ⟨_, rfl⟩
theorem receive : Statement .receive := ⟨_, rfl⟩
theorem seqAdv : Statement .seqAdv := ⟨_, rfl⟩
theorem seqRst : Statement .seqRst := ⟨_, rfl⟩
theorem frame (seqno : Bits16) (payload : List Byte) (crcField : Bits16) :
    Statement (.frame seqno payload crcField) :=
  ⟨bytesLe16 seqno ++ bytesLe32 (BitVec.ofNat 32 payload.length), payload ++ bytesLe16 crcField, rfl, rfl⟩
theorem signOn : Statement .signOn := rfl
theorem readRamByte (addr : Bits16) : Statement (.readRamByte addr) := rfl
theorem writeRamByte (addr : Bits16) (value : Byte) : Statement (.writeRamByte addr value) := rfl
theorem setParam (args : List Byte) : Statement (.setParam args) := rfl
theorem getParam (args : List Byte) : Statement (.getParam args) := rfl
theorem enterProgMode (args : List Byte) : Statement (.enterProgMode args) := rfl
theorem devReset (args : List Byte) : Statement (.devReset args) := rfl
theorem setDeviceDescriptor (args : List Byte) : Statement (.setDeviceDescriptor args) := rfl
theorem readRange (addr : Bits16) (count : Nat) (advance : Bool) : Statement (.readRange addr count advance) := rfl

end Presented

end Sys2Proof.Laws
end

