-- ==== Sys2Proof/Laws/Session.lean ====
section
/-! SUPPORT. Laws of the exchanges (spec/44_session_pseudo_ops.md R180 to R193): what each shared operation can answer, and, once
for all of them, that a property kept by SEND, by RECEIVE and by the end of an exchange is kept by every call. -/

namespace Sys2Proof.Machine

/-! ### What each can answer -/

/-- classify changes nothing, or returns a code in ERRINFO (R180). -/
theorem classify_cases (e : SuccessKind) (s : State) :
    classify e s = s ∨
      ∃ r x, s.result = .received r ∧ (x = .deviceError r.code ∨ x = .unexpectedReply r.code) ∧
        classify e s = returnResult x { s with errInfo := r.code } := by
  unfold classify
  split
  · rename_i r hr
    split
    · exact .inr ⟨r, _, hr, .inl rfl, rfl⟩
    · split
      · exact .inl rfl
      · exact .inr ⟨r, _, hr, .inr rfl, rfl⟩
    · exact .inr ⟨r, _, hr, .inr rfl, rfl⟩
  · exact .inl rfl

/-- The end of WRITE_RAM_BYTE is that of an exchange, or Ok with no value (R183). -/
theorem endWriteByte_cases (s : State) :
    endWriteByte s = classify .ok s ∨ endWriteByte s = returnResult .ok (classify .ok s) := by
  unfold endWriteByte
  split
  · exact .inr rfl
  · exact .inl rfl

/-- If the end of READ_RAM_BYTE answers a state, it is that of an exchange, or a data byte was returned (R182). -/
theorem endReadByte_next {s t : State} (h : endReadByte s = .next t) :
    t = classify .memory s ∨ ∃ b, t = returnResult (.byteRead b) (classify .memory s) := by
  unfold endReadByte at h
  split at h
  · split at h
    · exact .inr ⟨_, by simpa using h.symm⟩
    · simp at h
  · exact .inl (by simpa using h.symm)

/-- If the end of a range's byte answers a state, it is an error's, or the byte was stored and the range went on
(R193). -/
theorem endRangeByte_next {i : Nat} {k : State → Host.Outcome State Fault Refusal} {s t : State}
    (h : endRangeByte i k s = .next t) :
    ∃ u, endReadByte s = .next u ∧
      (t = u ∨ ∃ b, k { u with callerBuf := u.callerBuf.write i b } = .next t) := by
  unfold endRangeByte at h
  split at h
  · rename_i u hu
    refine ⟨u, hu, ?_⟩
    split at h
    · exact .inr ⟨_, h⟩
    · exact .inl (by simpa using h.symm)
  · simp at h
  · simp at h

/-- If an exchange answers a state: the command was short enough, and SEND failed, or RECEIVE returned and the task's
end answered it, or RECEIVE waits (R180). -/
theorem exchange_next {task : Task} {cmd : List Byte} {k : State → Host.Outcome State Fault Refusal} {s t : State}
    (h : exchange task cmd k s = .next t) :
    fitsPayload cmd.length = true ∧
      (((∃ n, nextWriteAnswer s = .error n) ∧ t = sendFrame cmd s) ∨
        (nextWriteAnswer s = .ok ∧
          ((∃ u, receiveStart (sendFrame cmd s) = .done u ∧ k u = .next t) ∨
            ∃ u, receiveStart (sendFrame cmd s) = .waits u ∧ t = { u with pending := some task }))) := by
  unfold exchange at h
  split at h
  · rename_i hf
    refine ⟨hf, ?_⟩
    split at h
    · rename_i n hn
      exact .inl ⟨⟨n, hn⟩, by simpa using h.symm⟩
    · rename_i hn
      exact .inr ⟨hn, afterReceive_next h⟩
  · simp at h

/-- SEND does not depend on what was returned before it. -/
@[simp] theorem sendFrame_returnResult (cmd : List Byte) (x : Result) (s : State) :
    sendFrame cmd (returnResult x s) = sendFrame cmd s := rfl

/-- An exchange does not depend on what was returned before it. -/
@[simp] theorem exchange_returnResult (task : Task) (cmd : List Byte) (k : State → Host.Outcome State Fault Refusal)
    (x : Result) (s : State) : exchange task cmd k (returnResult x s) = exchange task cmd k s := rfl

/-- Nor does a range that has a byte to read. -/
@[simp] theorem rangeFrom_returnResult (addr : Bits16) (advance : Bool) (left i : Nat) (x : Result) (s : State) :
    rangeFrom addr advance (left + 1) i (returnResult x s) = rangeFrom addr advance (left + 1) i s := rfl

/-- An exchange whose frame goes out and whose RECEIVE returns: the task goes on. -/
theorem exchange_done {s u : State} {cmd : List Byte} (hw : nextWriteAnswer s = .ok) (hc : cmd.length < 2 ^ 32)
    (h : receiveStart (sendFrame cmd s) = .done u) (task : Task) (k : State → Host.Outcome State Fault Refusal) :
    exchange task cmd k s = k u := by
  rw [exchange, if_pos (fitsPayload_iff.2 hc), hw]
  simp only [h, afterReceive]

/-- An exchange whose frame goes out and whose reply arrives in a frame with SEQ (R180): the task goes on, from a state
with that reply. -/
theorem exchange_reply {s : State} {cmd : List Byte} {sends : List WriteAnswer} {chunks : List (List Byte)}
    {later : List ReadAnswer} {code : Byte} {data excess : List Byte} (hw : s.writeAnswers = .ok :: sends)
    (hd : delivers s chunks later)
    (hf : chunks.flatten = encodeFrame s.params.crcp s.seq (code :: data) ++ excess)
    (hl : data.length + 1 < 2 ^ 32) (hk : replyClass s.params code ≠ .unknown) (hc : cmd.length < 2 ^ 32) :
    ∃ u : State,
      (∀ task k, exchange task cmd k s = k u) ∧ changesOnlyExchange s u ∧
      u.result = .received ⟨code, replyClass s.params code, data⟩ ∧ u.status = 0x00#8 ∧ u.pending = none ∧
      u.sent = s.sent ++ [encodeFrame s.params.crcp s.seq cmd] ∧ u.rxSeq = s.seq ∧ u.rxCode = code ∧
      u.writeAnswers = sends ∧
      ∃ taken rest, chunks = taken ++ rest ∧ frameDone taken.flatten ∧
        u.readAnswers = rest.map ReadAnswer.chunk ++ later := by
  replace hl : (code :: data).length < 2 ^ 32 := by simpa using hl
  obtain ⟨hdone, hn⟩ := frameDone_encodeFrame s.params.crcp s.seq (code :: data) excess hl
  rw [← hf] at hdone hn
  obtain ⟨taken, rest, hr, ht, -, e⟩ := receiveStart_done (sendFrame cmd s) chunks later
    ((sendFrame_readAnswers cmd s).trans hd) hdone
  rw [hf] at e hn
  rw [hn, List.take_append_of_le_length (by simp), List.take_of_length_le (by simp)] at e
  have hcc := checkChain_encodeFrame s.params.crcp s.seq (code :: data) [] hl
  rw [List.append_nil] at hcc
  have hnw : nextWriteAnswer s = .ok := by simp [nextWriteAnswer, hw]
  refine ⟨_, exchange_done hnw hc e, ?_⟩
  have hsent : (sendFrame cmd s).sent = s.sent ++ [encodeFrame s.params.crcp s.seq cmd] := by
    rw [sendFrame_sent, hnw, reachedLine]
  have hwr : (sendFrame cmd s).writeAnswers = sends := by rw [sendFrame_writeAnswers, hw, List.tail_cons]
  have h1 : changesOnlyExchange s (sendFrame cmd s) := rfl
  have hp := sendFrame_params cmd s
  have hq := sendFrame_seq cmd s
  generalize sendFrame cmd s = S at *
  simp only [receiveFrame, decodeBytes_eq, hp, hcc, splitReply, if_neg hk, receiveResult, hq, if_true]
  refine ⟨?_, rfl, rfl, rfl, hsent, rfl, rfl, hwr, taken, rest, hr, ht, rfl⟩
  rw [changesOnlyExchange] at *
  rw [h1]
  rfl

/-- A RECEIVE that has returned: an error of the channel, or a reply (R202, R163), and nothing waits. -/
theorem receiveStart_result {s u : State} (h : receiveStart s = .done u) :
    u.pending = none ∧ u.status = statusOf u.result ∧
      (u.result = .noReply ∨ u.result = .seqMismatch ∨ (∃ e, u.result = .corrupt e) ∨ ∃ r, u.result = .received r) := by
  rcases receiveStart_cases s with ⟨rest, e⟩ | ⟨all, rest, -, e⟩ | ⟨acc, -, e⟩ <;> rw [e] at h
  · obtain rfl := Phase.done.inj h
    exact ⟨rfl, rfl, .inl rfl⟩
  · obtain rfl := Phase.done.inj h
    refine ⟨rfl, rfl, ?_⟩
    simp only [receiveFrame, endReceive, returnResult]
    generalize splitReply _ _ = d
    cases d with
    | error e => exact .inr (.inr (.inl ⟨e, rfl⟩))
    | unknown f code => exact .inr (.inr (.inl ⟨_, rfl⟩))
    | reply f r =>
      simp only [receiveResult]
      split
      · exact .inr (.inr (.inr ⟨r, rfl⟩))
      · exact .inr (.inl rfl)
  · cases h

/-- A task ends at once where RECEIVE has returned no reply (R180). -/
theorem endTask_error {u : State} (h : ∀ r, u.result ≠ .received r) (hb : ∀ b, u.result ≠ .byteRead b) (task : Task) :
    endTask task u = .next u := by
  have hc : ∀ k, classify k u = u := by
    intro k
    unfold classify
    split
    · exact absurd ‹_› (h _)
    · rfl
  have hr : endReadByte u = .next u := by
    unfold endReadByte
    rw [hc]
    split
    · exact absurd ‹_› (h _)
    · rfl
  cases task with
  | receive => rfl
  | exchange k => rw [endTask, hc]
  | writeByte =>
    rw [endTask, endWriteByte, hc]
    split
    · exact absurd ‹_› (h _)
    · rfl
  | readByte => exact hr
  | range addr i left advance =>
    rw [endTask, endRangeByte, hr]
    dsimp only
    split
    · exact absurd ‹_› (hb _)
    · rfl

/-- A call is one exchange with its first command, for its own task (R180 to R188; for a range it is the first byte's,
R193). -/
theorem exec_call_task {s : State} {i : Instr} {cmd : List Byte} (h : firstCommand s.params i = some cmd) :
    ∃ task, firstTask s.params i = some task ∧ exec i s = exchange task cmd (endTask task) s := by
  cases i <;> simp only [firstCommand, Option.some.injEq, reduceCtorEq] at h
  case readRange addr count advance =>
    cases count with
    | zero => simp at h
    | succ n =>
      simp only [Nat.add_one_ne_zero, if_false, Option.some.injEq] at h
      subst h
      refine ⟨.range addr 0 n advance, rfl, ?_⟩
      have ha : rangeAddr addr 0 = addr := by
        rw [rangeAddr, if_pos (by simpa using addr.isLt)]
        simp
      simp only [exec, execReadRange, rangeFrom, ha]
      rfl
  all_goals
    subst h
    exact ⟨_, rfl, rfl⟩

/-- It ends at once where RECEIVE has returned no reply. -/
theorem exec_call_exchange {s : State} {i : Instr} {cmd : List Byte} (h : firstCommand s.params i = some cmd) :
    ∃ task k, exec i s = exchange task cmd k s ∧
      ∀ u, (∀ r, u.result ≠ .received r) → (∀ b, u.result ≠ .byteRead b) → k u = .next u := by
  obtain ⟨task, -, e⟩ := exec_call_task h
  exact ⟨task, _, e, fun u h1 h2 => endTask_error h1 h2 task⟩

/-! ### What SEND, RECEIVE and the ends of the exchanges keep, every call keeps -/

/-- P is kept by the pieces every exchange is made of. -/
structure Keeps (P : State → Prop) : Prop where
  send : ∀ cmd s, fitsPayload cmd.length = true → P s → P (sendFrame cmd s)
  done : ∀ s u, P s → receiveStart s = .done u → P u
  waits : ∀ s u task, P s → receiveStart s = .waits u → P { u with pending := some task }
  device : ∀ c s, P s → P (returnResult (.deviceError c) { s with errInfo := c })
  unexpected : ∀ c s, P s → P (returnResult (.unexpectedReply c) { s with errInfo := c })
  ok : ∀ s, P s → P (returnResult .ok s)
  byte : ∀ b s, P s → P (returnResult (.byteRead b) s)
  range : ∀ s, P s → P (returnResult .rangeRead s)
  buf : ∀ i b s, P s → P { s with callerBuf := s.callerBuf.write i b }

variable {P : State → Prop}

theorem Keeps.classify (K : Keeps P) (e : SuccessKind) {s : State} (h : P s) : P (classify e s) := by
  rcases classify_cases e s with h' | ⟨r, x, -, rfl | rfl, h'⟩ <;> rw [h']
  · exact h
  · exact K.device _ _ h
  · exact K.unexpected _ _ h

theorem Keeps.endReadByte (K : Keeps P) {s t : State} (h : P s) (e : endReadByte s = .next t) : P t := by
  rcases endReadByte_next e with rfl | ⟨b, rfl⟩
  · exact K.classify _ h
  · exact K.byte _ _ (K.classify _ h)

theorem Keeps.endRangeByte (K : Keeps P) {i : Nat} {k : State → Host.Outcome State Fault Refusal} {s t : State}
    (hk : ∀ u, P u → k u = .next t → P t) (h : P s) (e : endRangeByte i k s = .next t) : P t := by
  obtain ⟨u, hu, rfl | ⟨b, hb⟩⟩ := endRangeByte_next e
  · exact K.endReadByte h hu
  · exact hk _ (K.buf _ _ _ (K.endReadByte h hu)) hb

theorem Keeps.exchange (K : Keeps P) {task : Task} {cmd : List Byte} {k : State → Host.Outcome State Fault Refusal}
    {s t : State} (hk : ∀ u, P u → k u = .next t → P t) (h : P s) (e : exchange task cmd k s = .next t) : P t := by
  obtain ⟨hf, ⟨-, rfl⟩ | ⟨-, ⟨u, hu, hn⟩ | ⟨u, hu, rfl⟩⟩⟩ := exchange_next e
  · exact K.send _ _ hf h
  · exact hk u (K.done _ _ (K.send _ _ hf h) hu) hn
  · exact K.waits _ _ _ (K.send _ _ hf h) hu

/-- READ_RANGE keeps P, where the host's SEQ.ADV between the bytes, if it issues one, keeps it. -/
theorem Keeps.rangeFrom (K : Keeps P) {addr : Bits16} {advance : Bool}
    (hadv : advance = true → ∀ s, P s → P (advanceSeq s)) (left i : Nat) {s t : State} (h : P s)
    (e : rangeFrom addr advance left i s = .next t) : P t := by
  induction left generalizing i s with
  | zero =>
    simp only [Machine.rangeFrom, Host.Outcome.next.injEq] at e
    exact e ▸ K.range _ h
  | succ left ih =>
    rw [Machine.rangeFrom] at e
    refine K.exchange (fun u hu eu => K.endRangeByte (fun v hv ev => ih (i + 1) ?_ ev) hu eu) h e
    unfold betweenBytes
    split
    · rename_i ha
      exact hadv (by simp at ha; exact ha.1) _ hv
    · exact hv

/-- The end of a task keeps P, where the host's SEQ.ADV between a range's bytes, if it issues one, keeps it. -/
theorem Keeps.endTask (K : Keeps P) (task : Task)
    (hadv : (∃ addr i left, task = .range addr i left true) → ∀ s, P s → P (advanceSeq s)) {s t : State} (h : P s)
    (e : endTask task s = .next t) : P t := by
  cases task with
  | receive =>
    simp only [Machine.endTask, Host.Outcome.next.injEq] at e
    exact e ▸ h
  | exchange k =>
    simp only [Machine.endTask, Host.Outcome.next.injEq] at e
    exact e ▸ K.classify _ h
  | writeByte =>
    simp only [Machine.endTask, Host.Outcome.next.injEq] at e
    rcases endWriteByte_cases s with h' | h' <;> rw [← e, h']
    · exact K.classify _ h
    · exact K.ok _ (K.classify _ h)
  | readByte => exact K.endReadByte h e
  | range addr i left advance =>
    have ha : advance = true → ∀ s, P s → P (advanceSeq s) := fun hh => hadv ⟨addr, i, left, by rw [hh]⟩
    refine K.endRangeByte (fun u hu eu => K.rangeFrom ha left (i + 1) ?_ eu) h e
    unfold betweenBytes
    split
    · rename_i hb
      exact ha (by simp at hb; exact hb.1) _ hu
    · exact hu

/-- The pseudo-operations. -/
def isCall : Instr → Bool
  | .signOn => true
  | .readRamByte _ => true
  | .writeRamByte _ _ => true
  | .setParam _ => true
  | .getParam _ => true
  | .enterProgMode _ => true
  | .devReset _ => true
  | .setDeviceDescriptor _ => true
  | .readRange _ _ _ => true
  | _ => false

/-- Every pseudo-operation keeps P, where READ_RANGE's host issues no SEQ.ADV or SEQ.ADV keeps it. -/
theorem Keeps.call (K : Keeps P) {i : Instr} (hi : isCall i = true)
    (hadv : (∃ addr count, i = .readRange addr count true) → ∀ s, P s → P (advanceSeq s)) {s t : State} (h : P s)
    (e : exec i s = .next t) : P t := by
  have simple : ∀ (task : Task) (cmd : List Byte), (∀ a b c d, task ≠ .range a b c d) →
      Machine.exchange task cmd (Machine.endTask task) s = .next t → P t := by
    intro task cmd ht e
    refine K.exchange (fun u hu eu => ?_) h e
    cases task with
    | range a b c d => exact absurd rfl (ht a b c d)
    | receive => simp only [Machine.endTask, Host.Outcome.next.injEq] at eu; exact eu ▸ hu
    | exchange k => simp only [Machine.endTask, Host.Outcome.next.injEq] at eu; exact eu ▸ K.classify _ hu
    | writeByte =>
      simp only [Machine.endTask, Host.Outcome.next.injEq] at eu
      rcases endWriteByte_cases u with h' | h' <;> rw [← eu, h']
      · exact K.classify _ hu
      · exact K.ok _ (K.classify _ hu)
    | readByte => exact K.endReadByte hu eu
  cases i with
  | signOn => exact simple (.exchange .signOn) signOnCommand (by simp) e
  | readRamByte addr => exact simple _ _ (by simp) e
  | writeRamByte addr value => exact simple _ _ (by simp) e
  | setParam args => exact simple _ _ (by simp) e
  | getParam args => exact simple _ _ (by simp) e
  | enterProgMode args => exact simple _ _ (by simp) e
  | devReset args => exact simple _ _ (by simp) e
  | setDeviceDescriptor args => exact simple _ _ (by simp) e
  | readRange addr count advance =>
    exact K.rangeFrom (fun ha => hadv ⟨addr, count, by rw [ha]⟩) count 0 h e
  | _ => simp [isCall] at hi

end Sys2Proof.Machine
end

