-- ==== Sys2Proof/Tests/Slice0.lean ====
section
/-! SUPPORT. The model's own tests. Expected values are spec/95_test_vectors.md's, or are written out from the rule that is
named; the parameter sets CRCP-A, CRCP-X and REPLY-A are that file's, and neither is asserted to be the device's. After
the tests, one witness for each statement that has hypotheses: concrete states and operands that meet all of them. -/

namespace Sys2Proof.Tests

set_option Elab.async false

open Sys2Proof Sys2Proof.Machine

/-! ### The test machine -/

/-- CRCP-A (spec/95). -/
def crcpA : Crcp := ⟨0x1021#16, 0xFFFF#16, true, true, 0x0000#16⟩

/-- CRCP-X (spec/95). -/
def crcpX : Crcp := ⟨0x1021#16, 0x0000#16, false, false, 0x0000#16⟩

/-- CRCP-A and REPLY-A (spec/95), the widths 4 and 4, and opcodes that are arbitrary distinct bytes. -/
def paramsA : Params where
  crcp := crcpA
  replies :=
    [(0x80#8, .success .ok), (0x81#8, .success .parameter), (0x82#8, .success .memory), (0x86#8, .success .signOn),
     (0xA0#8, .deviceFailure .failed), (0xA5#8, .deviceFailure .illegalMcuState),
     (0xAB#8, .deviceFailure .noTargetPower)]
  cmdSetParameter := 0x11#8
  cmdGetParameter := 0x12#8
  cmdReadMemory := 0x13#8
  cmdWriteMemory := 0x14#8
  cmdReset := 0x15#8
  cmdSetDeviceDescriptor := 0x16#8
  cmdGetSync := 0x17#8
  cmdEnterProgmode := 0x18#8
  countBytes := 4
  addrBytes := 4
  expectSetParam := .ok
  expectGetParam := .parameter
  expectEnterProgMode := .ok
  expectReset := .ok
  expectSetDeviceDescriptor := .ok

/-- The machine after reset with the parameters of the vectors. -/
def base : State := { State.reset with params := paramsA }

/-- The base machine with SEQ and the transport's answers. -/
def linked (seq : Bits16) (writes : List WriteAnswer) (reads : List ReadAnswer) : State :=
  { base with seq := seq, writeAnswers := writes, readAnswers := reads }

/-- The base machine with these bytes in RXBUF. -/
def loaded (raw : List Byte) : State := { base with rxbuf := bufferOf raw }

/-- The base machine with an initialised accumulator. -/
def summed (c : Bits16) : State := { base with crc := c, crcValid := true }

/-- The base machine with a RECEIVE that waits after its first byte, what it is for, and the transport's next answers. -/
def waitingFor (task : Task) (reads : List ReadAnswer) : State :=
  { base with
    rxbuf := bufferOf [0x1B#8], rxCnt := 1#33, rxNeed := 7#33, pending := some task, readAnswers := reads }

/-- The operation RECEIVE waits. -/
def waiting (reads : List ReadAnswer) : State := waitingFor .receive reads

/-- Whether an outcome is a next state with this property. -/
def next? (o : Host.Outcome State Fault Refusal) (f : State → Bool) : Bool :=
  match o with
  | .next t => f t
  | .fault _ => false
  | .refused _ => false

/-- The fixture F of V1: `1B 00 00 01 00 00 00 0E 01 F3 97`. -/
def fixture : List Byte := [0x1B#8, 0x00#8, 0x00#8, 0x01#8, 0x00#8, 0x00#8, 0x00#8, 0x0E#8, 0x01#8, 0xF3#8, 0x97#8]

/-- V35, the Sign-on-reply R of the CHN vectors. -/
def signOnReply : List Byte :=
  [0x1B#8, 0x00#8, 0x00#8, 0x03#8, 0x00#8, 0x00#8, 0x00#8, 0x0E#8, 0x86#8, 0x01#8, 0x02#8, 0x1A#8, 0x07#8]

/-- V37, a Memory-reply with seqno 7. -/
def memoryReply : List Byte :=
  [0x1B#8, 0x07#8, 0x00#8, 0x02#8, 0x00#8, 0x00#8, 0x00#8, 0x0E#8, 0x82#8, 0x5A#8, 0x74#8, 0xDF#8]

/-- V64, a Failed reply with seqno 2. -/
def failedReply : List Byte :=
  [0x1B#8, 0x02#8, 0x00#8, 0x01#8, 0x00#8, 0x00#8, 0x00#8, 0x0E#8, 0xA0#8, 0x1F#8, 0x28#8]

/-- V65, a reply with an unknown code and seqno 3. -/
def unknownReply : List Byte :=
  [0x1B#8, 0x03#8, 0x00#8, 0x01#8, 0x00#8, 0x00#8, 0x00#8, 0x0E#8, 0x77#8, 0x92#8, 0x0B#8]

/-- V31, an empty payload with seqno 0x1234. -/
def emptyFrame : List Byte :=
  [0x1B#8, 0x34#8, 0x12#8, 0x00#8, 0x00#8, 0x00#8, 0x00#8, 0x0E#8, 0x3C#8, 0x9A#8]

/-- V36, a generic Ok with seqno 1. -/
def okReply : List Byte :=
  [0x1B#8, 0x01#8, 0x00#8, 0x01#8, 0x00#8, 0x00#8, 0x00#8, 0x0E#8, 0x80#8, 0xCD#8, 0x83#8]

/-! ### WellFormed: an ill-formed term for each check -/

/-- A byte sequence one byte longer than MAX_PAYLOAD (R6, R134). -/
theorem exists_tooLong : ∃ s : List Byte, s.length = 2 ^ 32 := ⟨List.replicate (2 ^ 32) 0#8, List.length_replicate⟩

theorem test_wf_encode : ∃ s, (Instr.encode 0#16 s).wf = false :=
  exists_tooLong.imp fun s h => by simp [Instr.wf, fitsPayload, payloadLimit, h]
theorem test_wf_send : ∃ s, (Instr.send s).wf = false :=
  exists_tooLong.imp fun s h => by simp [Instr.wf, fitsPayload, payloadLimit, h]
theorem test_wf_frame : ∃ s, (Instr.frame 0#16 s 0#16).wf = false :=
  exists_tooLong.imp fun s h => by simp [Instr.wf, fitsPayload, payloadLimit, h]
theorem test_wf_setParam : ∃ s, (Instr.setParam s).wf = false :=
  exists_tooLong.imp fun s h => by simp [Instr.wf, fitsPayload, payloadLimit, h]
theorem test_wf_getParam : ∃ s, (Instr.getParam s).wf = false :=
  exists_tooLong.imp fun s h => by simp [Instr.wf, fitsPayload, payloadLimit, h]
theorem test_wf_enterProgMode : ∃ s, (Instr.enterProgMode s).wf = false :=
  exists_tooLong.imp fun s h => by simp [Instr.wf, fitsPayload, payloadLimit, h]
theorem test_wf_devReset : ∃ s, (Instr.devReset s).wf = false :=
  exists_tooLong.imp fun s h => by simp [Instr.wf, fitsPayload, payloadLimit, h]
theorem test_wf_setDeviceDescriptor : ∃ s, (Instr.setDeviceDescriptor s).wf = false :=
  exists_tooLong.imp fun s h => by simp [Instr.wf, fitsPayload, payloadLimit, h]
theorem test_wf_longest (s : List Byte) (h : s.length < 2 ^ 32) : (Instr.encode 0#16 s).wf = true :=
  decide_eq_true h

/-! ### Decoding: words written out from R92 and R80 -/

theorem test_decode_crcInit : decodePort [0x01#8] = .ok (.crcInit, []) := by decide
theorem test_decode_crcUpd : decodePort [0x02#8, 0x1B#8] = .ok (.crcUpd 0x1B#8, []) := by decide
theorem test_decode_crcGet : decodePort [0x03#8] = .ok (.crcGet, []) := by decide
theorem test_decode_crcChk : decodePort [0x04#8, 0xF3#8, 0x97#8] = .ok (.crcChk 0xF3#8 0x97#8, []) := by decide
theorem test_decode_encode :
    decodePort [0x08#8, 0x34#8, 0x12#8, 0x02#8, 0#8, 0#8, 0#8, 0#8, 0xDE#8, 0xAD#8] =
      .ok (.encode 0x1234#16 [0xDE#8, 0xAD#8], []) := by decide +kernel
theorem test_decode_fdec :
    decodePort [0x09#8, 0x09#8, 0#8, 0#8, 0#8, 0x01#8] = .ok (.fdec 0x100000009#33, []) := by decide +kernel
theorem test_decode_decode :
    decodePort [0x0A#8, 0x0B#8, 0#8, 0#8, 0#8, 0#8] = .ok (.decode 11#33, []) := by decide +kernel
theorem test_decode_send :
    decodePort [0x10#8, 0x01#8, 0#8, 0#8, 0#8, 0#8, 0x01#8, 0x12#8] = .ok (.send [0x01#8], [0x12#8]) := by
  decide +kernel
theorem test_decode_receive : decodePort [0x11#8] = .ok (.receive, []) := by decide
theorem test_decode_seqAdv : decodePort [0x12#8] = .ok (.seqAdv, []) := by decide
theorem test_decode_seqRst : decodePort [0x13#8] = .ok (.seqRst, []) := by decide
theorem test_decode_frame :
    decodeWire fixture = some (.frame 0x0000#16 [0x01#8] 0x97F3#16, []) := by decide +kernel
theorem test_decode_reserved : decodePort [0x14#8] = .error (.reservedOp 0x14#8) := by decide
theorem test_decode_truncated : decodePort [0x04#8, 0xF3#8] = .error .truncated := by decide
theorem test_decode_wide : decodePort [0x09#8, 0#8, 0#8, 0#8, 0#8, 0x02#8] = .error .operandTooWide := by
  decide +kernel
theorem test_decode_long : decodePort [0x10#8, 0#8, 0#8, 0#8, 0#8, 0x01#8] = .error .lengthTooLong := by
  decide +kernel

/-- The pseudo-operations have no OP code (R96): they are issued by name, and the command each sends begins with its
command byte (R181 to R188). -/
theorem test_call_signOn : decodeEvent (.call .signOn) = some (.signOn, none) := by decide
theorem test_call_readRamByte : decodeEvent (.call (.readRamByte 7#16)) = some (.readRamByte 7#16, none) := by decide
theorem test_call_writeRamByte :
    decodeEvent (.call (.writeRamByte 7#16 1#8)) = some (.writeRamByte 7#16 1#8, none) := by decide
theorem test_call_setParam : decodeEvent (.call (.setParam [1#8])) = some (.setParam [1#8], none) := by decide
theorem test_call_getParam : decodeEvent (.call (.getParam [1#8])) = some (.getParam [1#8], none) := by decide
theorem test_call_enterProgMode : decodeEvent (.call (.enterProgMode [])) = some (.enterProgMode [], none) := by decide
theorem test_call_devReset : decodeEvent (.call (.devReset [])) = some (.devReset [], none) := by decide
theorem test_call_setDeviceDescriptor :
    decodeEvent (.call (.setDeviceDescriptor [1#8])) = some (.setDeviceDescriptor [1#8], none) := by decide
theorem test_call_readRange :
    decodeEvent (.call (.readRange 7#16 2 true)) = some (.readRange 7#16 2 true, none) := by decide

/-! ### The CRC unit (V12 to V25, P1) -/

/-- ASCII "123456789". -/
def digits : List Byte := [0x31#8, 0x32#8, 0x33#8, 0x34#8, 0x35#8, 0x36#8, 0x37#8, 0x38#8, 0x39#8]

theorem test_crc_v12_v13 : crc16 crcpA digits = 0x6F91#16 ∧ crc16 crcpX digits = 0x31C3#16 := by decide +kernel
theorem test_crc_v14_v15 : crc16 ⟨0x8005#16, 0#16, true, true, 0#16⟩ digits = 0xBB3D#16 ∧
    crc16 ⟨0x8005#16, 0#16, true, false, 0#16⟩ digits = 0xBCDD#16 := by decide +kernel
theorem test_crc_v16_v17 : crc16 ⟨0x1021#16, 0xFFFF#16, true, true, 0xFFFF#16⟩ digits = 0x906E#16 ∧
    crc16 ⟨0x1021#16, 0xFFFF#16, false, false, 0#16⟩ digits = 0x29B1#16 := by decide +kernel
theorem test_crcInit : next? (exec .crcInit base) (fun t => t.crc == 0xFFFF#16 && t.crcValid) = true := by
  decide +kernel
theorem test_crcUpd_v22 : next? (exec (.crcUpd 0x1B#8) (summed 0xFFFF#16)) (fun t => t.crc == 0xAB85#16) = true := by
  decide +kernel
theorem test_crcGet_v22 :
    next? (exec .crcGet (summed 0xCFE9#16)) (fun t => t.result == .crcValue 0x97F3#16) = true := by decide +kernel
theorem test_crcChk_v23 :
    next? (exec (.crcChk 0xF3#8 0x97#8) (summed 0xCFE9#16)) (fun t => t.matchFlag) = true ∧
      next? (exec (.crcChk 0xF2#8 0x97#8) (summed 0xCFE9#16)) (fun t => !t.matchFlag) = true := by decide +kernel
theorem test_crc_v24 : exec (.crcUpd 0#8) base = .refused .crcNotInitialised := by rfl

/-! ### The ENC unit (V33, V38's length bytes by R131, V39) -/

theorem test_encode_v33 : encodeFrame crcpA 0xFFFF#16 [0xDE#8, 0xAD#8, 0xBE#8, 0xEF#8] =
    [0x1B#8, 0xFF#8, 0xFF#8, 0x04#8, 0x00#8, 0x00#8, 0x00#8, 0x0E#8, 0xDE#8, 0xAD#8, 0xBE#8, 0xEF#8, 0x98#8,
      0xB0#8] := by decide +kernel
theorem test_encode_v30 :
    next? (exec (.encode 0#16 [0x01#8]) base) (fun t => t.txbuf == bufferOf fixture && t.txLen == 11#33) = true := by
  decide +kernel
theorem test_encode_header : frameHeader 0x1234#16 0x00000100#32 =
    [0x1B#8, 0x34#8, 0x12#8, 0x00#8, 0x01#8, 0x00#8, 0x00#8, 0x0E#8] := by decide +kernel

/-! ### The DEC unit (V40, V46, V49, V60 to V67) -/

theorem test_fdec_v49 : next? (exec (.fdec 11#33) (loaded fixture))
    (fun t => t.result == .framed 0#16 [0x01#8] && t.rxLen == 1#32) = true := by decide +kernel
theorem test_fdec_v66 : next?
    (exec (.fdec 8#33) (loaded [0x1B#8, 0#8, 0#8, 0xFF#8, 0xFF#8, 0xFF#8, 0xFF#8, 0x0E#8]))
    (fun t => t.status == 0x03#8) = true := by decide +kernel
theorem test_decode_v62 : next? (exec (.decode 13#33) (loaded signOnReply))
    (fun t => t.result == .decoded 0#16 ⟨0x86#8, .success .signOn, [0x01#8, 0x02#8]⟩) = true := by decide +kernel
theorem test_decode_v65 : next? (exec (.decode 11#33) (loaded unknownReply))
    (fun t => t.result == .frameError (.unknownReply 0x77#8) && t.errInfo == 0x77#8 && t.rxCode == 0x77#8) = true := by
  decide +kernel

/-! ### The CHN unit (V50, V53, V54, V58, V77 to V81) -/

theorem test_send_v80 : next? (exec (.send [0x80#8]) (linked 5#16 [.error 3] []))
    (fun t => t.status == 0x11#8 && t.sent == [[0x1B#8, 0x05#8, 0x00#8]] &&
      t.txbuf == bufferOf [0x1B#8, 0x05#8, 0#8, 0x01#8, 0#8, 0#8, 0#8, 0x0E#8, 0x80#8, 0x13#8, 0x95#8]) = true := by
  decide +kernel
theorem test_send_v81 : next? (exec (.send [0x80#8]) (linked 0xFFFF#16 [.ok] []))
    (fun t => t.seq == 0xFFFF#16 &&
      t.sent == [[0x1B#8, 0xFF#8, 0xFF#8, 0x01#8, 0#8, 0#8, 0#8, 0x0E#8, 0x80#8, 0xFE#8, 0x7E#8]]) = true := by
  decide +kernel
theorem test_receive_v50 : next? (exec .receive (linked 0#16 []
      [.chunk [0x1B#8], .chunk [0#8, 0#8, 0x03#8, 0#8],
        .chunk [0#8, 0#8, 0x0E#8, 0x86#8, 0x01#8, 0x02#8, 0x1A#8, 0x07#8]]))
    (fun t => t.result == .received ⟨0x86#8, .success .signOn, [0x01#8, 0x02#8]⟩ && t.rxLen == 3#32 &&
      t.rxbuf == bufferOf signOnReply) = true := by decide +kernel
theorem test_receive_v58 : next? (exec .receive (linked 4#16 [] [.chunk unknownReply]))
    (fun t => t.status == 0x25#8 && t.errInfo == 0x77#8 && t.rxSeq == 3#16) = true := by decide +kernel
theorem test_seqAdv_v78 : next? (exec .seqAdv (linked 0xFFFF#16 [] [])) (fun t => t.seq == 0#16) = true := by
  decide +kernel
theorem test_seqRst_v79 : next? (exec .seqRst (linked 0x1234#16 [] [])) (fun t => t.seq == 0#16) = true := by
  decide +kernel

/-! ### The calls (V2, R181 to R188, R193) -/

theorem test_signOn : next? (exec .signOn (linked 0#16 [.ok] [.chunk signOnReply]))
    (fun t => t.sent == [fixture] && t.status == 0#8) = true := by decide +kernel
theorem test_readRamByte_command : readCommand paramsA 0x3F00#16 =
    [0x13#8, 0x20#8, 0x01#8, 0#8, 0#8, 0#8, 0x00#8, 0x3F#8, 0#8, 0#8] := by decide +kernel
theorem test_readRamByte_v2 : next?
    (exec (.readRamByte 0x3F00#16) (linked 7#16 [.ok] [.chunk (encodeFrame crcpA 7#16 [0x82#8, 0x5A#8, 0x99#8])]))
    (fun t => t.result == .byteRead 0x5A#8) = true := by decide +kernel
theorem test_readRamByte_u16 :
    (match exec (.readRamByte 0x3F00#16) (linked 7#16 [.ok] [.chunk (encodeFrame crcpA 7#16 [0x82#8])]) with
      | .fault .noDataByte => true
      | _ => false) = true := by decide +kernel
theorem test_writeRamByte : next? (exec (.writeRamByte 0x3F00#16 0x5A#8) (linked 1#16 [.ok] [.chunk okReply]))
    (fun t => t.result == .ok && t.txbuf.read 18 == some 0x5A#8) = true := by decide +kernel
theorem test_setParam : next? (exec (.setParam [0xAA#8]) (linked 1#16 [.ok] [.chunk okReply]))
    (fun t => t.txbuf.read 8 == some 0x11#8 && t.txbuf.read 9 == some 0xAA#8 && t.status == 0#8) = true := by
  decide +kernel
theorem test_getParam : next? (exec (.getParam [0xAA#8]) (linked 1#16 [.ok] [.chunk okReply]))
    (fun t => t.result == .unexpectedReply 0x80#8 && t.status == 0x31#8 && t.errInfo == 0x80#8) = true := by
  decide +kernel
theorem test_enterProgMode : next? (exec (.enterProgMode []) (linked 2#16 [.ok] [.chunk failedReply]))
    (fun t => t.result == .deviceError 0xA0#8 && t.status == 0x30#8 && t.errInfo == 0xA0#8) = true := by
  decide +kernel
theorem test_devReset : next? (exec (.devReset []) (linked 1#16 [.ok] [.chunk okReply]))
    (fun t => t.txbuf.read 8 == some 0x15#8 && t.seq == 1#16 && t.status == 0#8) = true := by decide +kernel
theorem test_setDeviceDescriptor : next? (exec (.setDeviceDescriptor [1#8, 2#8]) (linked 1#16 [.ok] [.error]))
    (fun t => t.txbuf.read 8 == some 0x16#8 && t.result == .noReply) = true := by decide +kernel

/-- Two Memory-replies, the second with the next seqno. -/
def twoBytes (second : Bits16) : List ReadAnswer :=
  [.chunk (encodeFrame crcpA 7#16 [0x82#8, 0x5A#8]), .chunk (encodeFrame crcpA second [0x82#8, 0xC3#8])]

theorem test_readRange : next? (exec (.readRange 0xFFFE#16 2 true) (linked 7#16 [.ok, .ok] (twoBytes 8#16)))
    (fun t => t.result == .rangeRead && t.callerBuf == bufferOf [0x5A#8, 0xC3#8] && t.seq == 8#16) = true := by
  decide +kernel
theorem test_readRange_stale : next? (exec (.readRange 0#16 2 false) (linked 7#16 [.ok, .ok] (twoBytes 8#16)))
    (fun t => t.result == .seqMismatch && t.callerBuf == bufferOf [0x5A#8]) = true := by decide +kernel

/-- R58, R236: two arrivals in one chunk; the RECEIVE that takes it returns the first reply and loses the other. -/
theorem test_arrivals_in_one_chunk :
    next? (exec .receive (linked 0#16 [] (appendChunks true [.error, .chunk signOnReply] [memoryReply, []]).tail))
      (fun t => t.rxCode == 0x86#8 && t.status == 0x00#8 && t.readAnswers == [.chunk []]) = true := by
  decide +kernel

/-- FRAME: the bytes wait on the line, and the block's STATUS is as it was. -/
theorem test_frame : next? (exec (.frame 0#16 [0x01#8] 0x97F3#16) { base with status := 0x12#8 })
    (fun t => t.status == 0x12#8 && t.rxbuf == []) = true := by decide +kernel

/-! ### Witnesses: states and operands that meet each statement's hypotheses -/

theorem exists_next {o : Host.Outcome State Fault Refusal} {f : State → Bool} (h : next? o f = true) :
    ∃ t, o = .next t ∧ f t = true := by
  cases o with
  | next t => exact ⟨t, rfl, h⟩
  | fault r => simp [next?] at h
  | refused r => simp [next?] at h

theorem inv_base (agenda : List Event) : Inv { base with agenda := agenda } where
  rxbuf_wf := List.Pairwise.nil
  rxbuf_within := fun c hc => absurd hc (by simp [base, State.reset])
  txbuf_wf := List.Pairwise.nil
  txbuf_filled := ⟨[], rfl, rfl, Nat.zero_le _⟩
  callerBuf_wf := List.Pairwise.nil
  status_eq := rfl
  status_legal := List.mem_cons_self
  errInfo_eq := trivial
  pending_ok := fun h => absurd rfl h

theorem inv_waiting (task : Task) (reads : List ReadAnswer) : Inv (waitingFor task reads) where
  rxbuf_wf := bufferOf_wf _
  rxbuf_within := bufferOf_within (by simp [bufCap])
  txbuf_wf := List.Pairwise.nil
  txbuf_filled := ⟨[], rfl, rfl, Nat.zero_le _⟩
  callerBuf_wf := List.Pairwise.nil
  status_eq := rfl
  status_legal := List.mem_cons_self
  errInfo_eq := trivial
  pending_ok := fun _ => ⟨[0x1B#8], rfl, rfl, rfl, by decide⟩

theorem witness_StepKeepsTheInvariant :
    (∃ t, Inv { base with agenda := [.port [0x12#8]] } ∧ step { base with agenda := [.port [0x12#8]] } = .next t) ∧
      ∃ t, Inv (waiting [.chunk [0#8]]) ∧ step (waiting [.chunk [0#8]]) = .next t := by
  obtain ⟨t, ht, -⟩ := exists_next (o := step { base with agenda := [.port [0x12#8]] }) (f := fun _ => true)
    (by decide +kernel)
  obtain ⟨u, hu, -⟩ := exists_next (o := step (waiting [.chunk [0#8]])) (f := fun _ => true) (by decide +kernel)
  exact ⟨⟨t, inv_base _, ht⟩, u, inv_waiting .receive _, hu⟩

/-- A code that REPLY-A lists, and one that it does not. -/
theorem witness_ResetParametersAreLegal :
    (paramsA.replies.map Prod.fst).Nodup ∧ (0x82#8, ReplyClass.success .memory) ∈ paramsA.replies ∧
      0x77#8 ∉ paramsA.replies.map Prod.fst := by decide

theorem witness_StatusCodes :
    (∃ t, exec .receive (linked 4#16 [] [.chunk unknownReply]) = .next t ∧ (t.status == 0x25#8) = true) ∧
      base.status = statusOf base.result ∧ base.status ∈ legalStatus ∧ codeInErrInfo base :=
  ⟨exists_next (by decide +kernel), rfl, List.mem_cons_self, trivial⟩

theorem witness_StepRunsTheDecodedInstruction :
    (decodeEvent (.port [0x12#8, 0x13#8]) = some (.seqAdv, some (.port [0x13#8])) ∧ Instr.seqAdv.wf = true ∧
      base.pending = none) ∧
      decodeEvent (.wire fixture) = some (.frame 0#16 [0x01#8] 0x97F3#16, none) ∧
        (Instr.frame 0#16 [0x01#8] 0x97F3#16).wf = true ∧ Event.ofLine (.wire fixture) = true := by
  decide +kernel

theorem witness_BlockWaitsForTheHost : base.agenda = [] ∧ base.pending = none := ⟨rfl, rfl⟩

/-- The waiting machine, with SEQ.ADV presented. -/
def presented : State := { waiting [.chunk [0#8]] with agenda := [.port [0x12#8]] }

theorem witness_HostWaitsForReceive :
    presented.agenda = [.port [0x12#8]] ∧ Event.ofLine (.port [0x12#8]) = false ∧
      presented.pending = some .receive ∧ ∃ t, step presented = .next t ∧ (t.pending == some .receive) = true :=
  ⟨rfl, rfl, rfl, exists_next (by decide +kernel)⟩

/-- Every task, with one answer, with more, and with a free one, the host's next operation presented or none; and a reply
of each class, with and without data. -/
theorem witness_WaitingReceiveTakesTheNextAnswer (task : Task) (a : ReadAnswer) (later : List ReadAnswer) :
    (Inv (waitingFor task (a :: later)) ∧ (waitingFor task (a :: later)).agenda.head? = none ∧
      (waitingFor task (a :: later)).pending = some task ∧
      (waitingFor task (a :: later)).readAnswers = a :: later) ∧
      (Inv (waitingFor task []) ∧ (waitingFor task []).pending = some task ∧ (waitingFor task []).readAnswers = []) ∧
      (Inv presented ∧ presented.agenda.head? = some (.port [0x12#8]) ∧ Event.ofLine (.port [0x12#8]) = false) ∧
      ∀ r : Reply, r ∈ [⟨0xA0#8, .deviceFailure .failed, []⟩, ⟨0x82#8, .success .memory, []⟩,
          ⟨0x82#8, .success .memory, [0x5A#8]⟩, ⟨0x80#8, .success .ok, []⟩] →
        ({ base with result := .received r } : State).result = .received r :=
  ⟨⟨inv_waiting _ _, rfl, rfl, rfl⟩, ⟨inv_waiting _ _, rfl, rfl⟩,
    ⟨{ inv_waiting .receive [.chunk [0#8]] with }, rfl, rfl⟩, fun _ _ => rfl⟩

/-- The clauses of that statement at the boundary: one byte less than the frame, and the whole of it. -/
theorem witness_WaitingReceive_boundary :
    (¬ needAfter (signOnReply.take 12) 7 ≤ (signOnReply.take 12).length ∧ 7 ≤ (signOnReply.take 12).length) ∧
      needAfter signOnReply 7 ≤ signOnReply.length := by decide +kernel

/-- A SIGN_ON that waits with the start byte gets the rest of R in two chunks, and an answer after them stays. -/
theorem test_resumed_signOn :
    next? (step (waitingFor (.exchange .signOn)
      [.chunk (signOnReply.tail.take 5), .chunk (signOnReply.drop 6), .error])) (fun t =>
        t.result == .received ⟨0x86#8, .success .signOn, [1#8, 2#8]⟩ && t.rxSeq == 0#16 && t.rxLen == 3#32 &&
          t.rxCode == 0x86#8 && t.rxbuf == bufferOf signOnReply && t.readAnswers == [.error] &&
          t.pending == none) = true := by
  decide +kernel

theorem witness_ReservedOpIsRefused :
    ∀ op ∈ [0x00#8, 0x05#8, 0x07#8, 0x0B#8, 0x0F#8, 0x14#8, 0xFF#8],
      op ∉ [0x01#8, 0x02#8, 0x03#8, 0x04#8, 0x08#8, 0x09#8, 0x0A#8, 0x10#8, 0x11#8, 0x12#8, 0x13#8] ∧
        ({ base with agenda := [.port [op]] } : State).pending = none := by
  intro op h
  exact ⟨by revert op; decide, rfl⟩

theorem witness_NewSessionResetsTheBlock :
    ({ linked 7#16 [] [] with agenda := [.newSession] } : State).agenda = [.newSession] ∧
      (linked 7#16 [] []).pending = none := ⟨rfl, rfl⟩

theorem witness_LoadedBytesAreInRxbuf :
    ({ loaded signOnReply with agenda := [.load fixture] } : State).agenda = [.load fixture] ∧
      (loaded signOnReply).pending = none ∧ fixture.length ≤ 2 ^ 32 + 9 := ⟨rfl, rfl, by decide⟩

theorem witness_DecodeOfEncodeIsTheInstruction :
    (Instr.encode 0x1234#16 [0xDE#8, 0xAD#8]).wf = true ∧ (Instr.readRange 0#16 2 true).wf = true := by
  decide +kernel

/-- The longest payload that the port takes, and the empty one. -/
theorem witness_PortOperandsFollowTheOp :
    (List.replicate (2 ^ 32 - 1) 0#8).length < 2 ^ 32 ∧ ([] : List Byte).length < 2 ^ 32 :=
  ⟨by rw [List.length_replicate]; omega, by decide⟩

/-- H of a frame's header, and of a header with another start byte. -/
theorem witness_FrameHeaderIsOneMatchMaskPair :
    (0x0E#8 ++ 0#8 ++ 0#8 ++ 0#8 ++ 0x01#8 ++ 0#8 ++ 0#8 ++ 0x1B#8 : BitVec 64) &&& 0xFF000000000000FF#64 =
        0x0E0000000000001B#64 ∧
      (0x0E#8 ++ 0#8 ++ 0#8 ++ 0#8 ++ 0x01#8 ++ 0#8 ++ 0#8 ++ 0x1A#8 : BitVec 64) &&& 0xFF000000000000FF#64 ≠
        0x0E0000000000001B#64 ∧
      [0x01#8].length =
        ((0x0E#8 ++ 0#8 ++ 0#8 ++ 0#8 ++ 0x01#8 ++ 0#8 ++ 0#8 ++ 0x1B#8 : BitVec 64).extractLsb' 24 32).toNat := by
  decide +kernel

theorem witness_MemReadAfterMemWrite : Memory.wf [(3, 1#8), (5, 2#8)] := by decide

theorem witness_TxbufByMemWrites :
    (∃ t, exec (.encode 0#16 [0x01#8]) base = .next t ∧ (t.txLen == 11#33) = true) ∧
      (∃ t, exec (.send [0x01#8]) (linked 0x1234#16 [.ok] []) = .next t ∧ (t.txLen == 11#33) = true) ∧
      0x1234#16 = (linked 0x1234#16 [.ok] []).seq :=
  ⟨exists_next (by decide +kernel), exists_next (by decide +kernel), rfl⟩

theorem witness_StreamingEncoderIsTheFrame :
    ∃ t, exec (.encode 0x1234#16 []) base = .next t ∧ (t.txLen == 10#33) = true := exists_next (by decide +kernel)

theorem witness_CrcUpdFeedsOneByte : (summed 0#16).crcValid = true ∧ base.crcValid = false := ⟨rfl, rfl⟩

theorem witness_CrcGetReturnsTheFinalisedValue :
    (summed 0#16).crcValid = true ∧ base.crcValid = false ∧
      ∃ t, exec .crcInit base = .next t ∧ (t.crc == 0xFFFF#16) = true :=
  ⟨rfl, rfl, exists_next (by decide +kernel)⟩

theorem witness_CrcChkComparesAllBits :
    (summed 0xCFE9#16).crcValid = true ∧ base.crcValid = false ∧
      crcFinal (summed 0xCFE9#16).params.crcp (summed 0xCFE9#16).crc = 0x97F3#16 ∧ (0xF3#8 : Byte) ≠ 0x97#8 ∧
      (∃ t, exec (.crcChk 0xF3#8 0x97#8) (summed 0xCFE9#16) = .next t ∧ t.matchFlag = true) ∧
      ∃ u, exec (.crcChk 0x97#8 0xF3#8) (summed 0xCFE9#16) = .next u ∧ (!u.matchFlag) = true :=
  ⟨rfl, rfl, by decide +kernel, by decide, exists_next (f := fun t => t.matchFlag) (by decide +kernel),
    exists_next (f := fun t => !t.matchFlag) (by decide +kernel)⟩

theorem witness_CrcUnitComputesCrc16 :
    (∃ t, exec (.encode 0#16 []) base = .next t ∧ true = true) ∧ (∃ t, exec (.fdec 0#33) base = .next t ∧ true = true) ∧
      (∃ t, exec (.decode 0#33) base = .next t ∧ true = true) ∧
      (∃ t, exec (.send []) (linked 0#16 [.ok] []) = .next t ∧ true = true) ∧
      ∃ t, exec .receive (linked 0#16 [] [.error]) = .next t ∧ true = true :=
  ⟨exists_next (f := fun _ => true) (by decide +kernel), exists_next (f := fun _ => true) (by decide +kernel),
    exists_next (f := fun _ => true) (by decide +kernel), exists_next (f := fun _ => true) (by decide +kernel),
    exists_next (f := fun _ => true) (by decide +kernel)⟩

/-- Polynomials with and without bit 0. -/
theorem witness_CrcStepIsAffine :
    crcpA.poly ≠ 0#16 ∧ crcpA.poly.getLsbD 0 = true ∧ (0x8000#16 : Bits16) ≠ 0#16 ∧
      (0x8000#16 : Bits16).getLsbD 0 = false := by decide

theorem witness_OneBitChangesTheCrc : crcpA.poly ≠ 0#16 ∧ 7 < 8 ∧ 0 < [0x01#8].length + 2 ∧ 2 < [0x01#8].length + 2 := by
  decide

theorem witness_LsbFirstFormIsEquivalent : crcpA.refin = true ∧ crcpA.refout = true := ⟨rfl, rfl⟩

theorem witness_EncodeWritesTheFrame :
    (∃ payload : List Byte, payload.length < 2 ^ 32 ∧ payload.length = 2 ^ 32 - 1) ∧ ([] : List Byte).length < 2 ^ 32 :=
  ⟨⟨List.replicate (2 ^ 32 - 1) 0#8, by rw [List.length_replicate]; omega, List.length_replicate⟩, by decide⟩

theorem witness_TooLongPayloadIsRefused : ∃ payload : List Byte, 2 ^ 32 ≤ payload.length :=
  exists_tooLong.imp fun _ h => h.symm.le

theorem holds_loaded (raw : List Byte) (n : Bits33) (h : n.toNat = raw.length) : holdsRaw (loaded raw) n raw :=
  ⟨h, fun i _ => by simp [loaded]⟩

/-- Each check of R140 at its boundary: V42, V43, V45, V46, V66, V63, V49. -/
theorem witness_FdecChecksInOrder :
    holdsRaw (loaded []) 0#33 [] ∧ holdsRaw (loaded [0x1A#8]) 1#33 [0x1A#8] ∧
      holdsRaw (loaded (fixture.take 7)) 7#33 (fixture.take 7) ∧
      holdsRaw (loaded (fixture.take 7 ++ [0x0F#8])) 8#33 (fixture.take 7 ++ [0x0F#8]) ∧
      holdsRaw (loaded (fixture.take 8)) 8#33 (fixture.take 8) ∧
      holdsRaw (loaded (fixture.take 9 ++ [0xF2#8, 0x97#8])) 11#33 (fixture.take 9 ++ [0xF2#8, 0x97#8]) ∧
      holdsRaw (loaded fixture) 11#33 fixture :=
  ⟨holds_loaded _ _ rfl, holds_loaded _ _ rfl, holds_loaded _ _ rfl, holds_loaded _ _ rfl, holds_loaded _ _ rfl,
    holds_loaded _ _ rfl, holds_loaded _ _ rfl⟩

/-- An error, an empty payload, an unknown code, a known code: V43, V61, V65, V62. -/
theorem witness_DecodeSplitsTheReplyCode :
    holdsRaw (loaded [0x1A#8]) 1#33 [0x1A#8] ∧ holdsRaw (loaded emptyFrame) 10#33 emptyFrame ∧
      holdsRaw (loaded unknownReply) 11#33 unknownReply ∧ holdsRaw (loaded signOnReply) 13#33 signOnReply :=
  ⟨holds_loaded _ _ rfl, holds_loaded _ _ rfl, holds_loaded _ _ rfl, holds_loaded _ _ rfl⟩

/-- V41 at k = 0 and k = 10; and two machines that differ past RXBUF[0:10). -/
theorem witness_TruncatedFrameIsIncomplete :
    (holdsRaw (loaded []) 0#33 ((encodeFrame crcpA 0#16 [0x01#8]).take 0) ∧ 0 < 10 + [0x01#8].length) ∧
      (holdsRaw (loaded (fixture.take 10)) 10#33 ((encodeFrame crcpA 0#16 [0x01#8]).take 10) ∧
        10 < 10 + [0x01#8].length) ∧
      (loaded fixture).params = (loaded (fixture.take 10)).params ∧
      (∀ i < (10#33 : Bits33).toNat, (loaded fixture).rxbuf.read i = (loaded (fixture.take 10)).rxbuf.read i) ∧
      ∃ t, exec (.fdec 10#33) (loaded (fixture.take 10)) = .next t ∧ (t.status == 0x03#8) = true := by
  have e : encodeFrame crcpA 0#16 [0x01#8] = fixture := by decide +kernel
  rw [e]
  exact ⟨⟨holds_loaded _ _ rfl, by decide⟩, ⟨holds_loaded _ _ rfl, by decide⟩, rfl, by decide +kernel,
    exists_next (by decide +kernel)⟩

/-- V60. -/
theorem witness_ExcessBytesAreIgnored :
    holdsRaw (loaded fixture) 11#33 fixture ∧
      holdsRaw (loaded (fixture ++ [0xAA#8, 0xBB#8])) 13#33 (fixture ++ [0xAA#8, 0xBB#8]) ∧
      memRead4 (ofList fixture) 3 = some 1#32 ∧ fixture.length = 10 + (1#32 : Bits32).toNat :=
  ⟨holds_loaded _ _ rfl, holds_loaded _ _ rfl, by decide, by decide⟩

/-- V31, V65 and V62: no payload, an unknown code, a known code. -/
theorem witness_RoundTripOfAFrame :
    holdsRaw (loaded emptyFrame) 10#33 (encodeFrame crcpA 0x1234#16 []) ∧
      holdsRaw (loaded unknownReply) 11#33 (encodeFrame crcpA 3#16 [0x77#8]) ∧
      holdsRaw (loaded signOnReply) 13#33 (encodeFrame crcpA 0#16 [0x86#8, 0x01#8, 0x02#8]) := by
  rw [show encodeFrame crcpA 0x1234#16 [] = emptyFrame by decide +kernel,
    show encodeFrame crcpA 3#16 [0x77#8] = unknownReply by decide +kernel,
    show encodeFrame crcpA 0#16 [0x86#8, 0x01#8, 0x02#8] = signOnReply by decide +kernel]
  exact ⟨holds_loaded _ _ rfl, holds_loaded _ _ rfl, holds_loaded _ _ rfl⟩

/-- V40: a flipped bit in any byte of the fixture, byte 3's bits 0 (cleared) and 1 (set) among them. -/
theorem witness_OneFlippedBit (j k : Nat) (hj : j < 11) (hk : k < 8) :
    crcpA.poly ≠ 0#16 ∧ k < 8 ∧ j < (encodeFrame crcpA 0#16 [0x01#8]).length ∧
      holdsRaw
        (loaded ((encodeFrame crcpA 0#16 [0x01#8]).set j
          ((encodeFrame crcpA 0#16 [0x01#8]).getD j 0#8 ^^^ (1#8 <<< k)))) 11#33
        ((encodeFrame crcpA 0#16 [0x01#8]).set j
          ((encodeFrame crcpA 0#16 [0x01#8]).getD j 0#8 ^^^ (1#8 <<< k))) := by
  rw [show encodeFrame crcpA 0#16 [0x01#8] = fixture by decide +kernel]
  exact ⟨by decide, hk, hj, holds_loaded _ _ (by rw [List.length_set]; rfl)⟩

theorem witness_OneFlippedBit_length_bits :
    (fixture.getD 3 0#8).getLsbD 0 = true ∧ (fixture.getD 3 0#8).getLsbD 1 = false := by decide

/-- The coincidence of R154: the payload begins with the CRC that the frame has when its length is read as 0 (V31's). -/
theorem witness_OneFlippedBit_coincidence :
    let f := encodeFrame crcpA 0x1234#16 [0x3C#8, 0x9A#8]
    let g := f.set 3 (f.getD 3 0#8 ^^^ (1#8 <<< 1))
    holdsRaw (loaded g) 12#33 g ∧ (f.getD 3 0#8).getLsbD 1 = true ∧ 2 - 2 ^ (8 * (3 - 3) + 1) = 0 ∧
      crc16 crcpA (g.take 8) = g.getD 9 0#8 ++ g.getD 8 0#8 :=
  ⟨holds_loaded _ _ (by decide +kernel), by decide +kernel, by decide, by decide +kernel⟩

theorem witness_SendWritesOneFrame :
    (linked 0#16 [.ok] []).writeAnswers = [.ok] ∧ (linked 0#16 [.error 3] []).writeAnswers = [.error 3] := ⟨rfl, rfl⟩

/-- V82. -/
theorem witness_TwoSendsCarryTheSameSeqno :
    (linked 0#16 [.ok, .ok] []).writeAnswers = .ok :: .ok :: [] ∧
      ∃ t u, exec (.send [0x01#8]) (linked 0#16 [.ok, .ok] []) = .next t ∧ exec (.send [0x01#8]) t = .next u := by
  refine ⟨rfl, ?_⟩
  have h := fun s => exists_next (o := exec (.send [0x01#8]) s) (f := fun _ => true) rfl
  obtain ⟨t, ht, -⟩ := h (linked 0#16 [.ok, .ok] [])
  obtain ⟨u, hu, -⟩ := h t
  exact ⟨t, u, ht, hu⟩

/-- V50's chunks. -/
def thirds : List (List Byte) :=
  [[0x1B#8], [0#8, 0#8, 0x03#8, 0#8], [0#8, 0#8, 0x0E#8, 0x86#8, 0x01#8, 0x02#8, 0x1A#8, 0x07#8]]

/-- V50, V53 and V57's chunks: a reply with SEQ, with another seqno, with an unknown code, and (V56) a bad CRC. -/
theorem witness_ReceiveIsIndependentOfChunking :
    delivers (linked 0#16 [] (thirds.map .chunk)) thirds [] ∧ memRead4 (ofList thirds.flatten) 3 = some 3#32 ∧
      10 + (3#32 : Bits32).toNat ≤ thirds.flatten.length ∧
      delivers (linked 0#16 [] [.chunk memoryReply]) [memoryReply] [] ∧
      memRead4 (ofList [memoryReply].flatten) 3 = some 2#32 ∧
      delivers (linked 4#16 [] [.chunk unknownReply]) [unknownReply] [] ∧
      memRead4 (ofList [unknownReply].flatten) 3 = some 1#32 ∧
      delivers (linked 0#16 [] [.chunk (fixture.take 9 ++ [0#8, 0#8])]) [fixture.take 9 ++ [0#8, 0#8]] [] ∧
      (loaded (thirds.flatten.take 13)).params = (linked 0#16 [] (thirds.map .chunk)).params ∧
      holdsRaw (loaded (thirds.flatten.take 13)) 13#33 (thirds.flatten.take 13) :=
  ⟨rfl, by decide, by decide, rfl, by decide, rfl, by decide, rfl, rfl, holds_loaded _ _ (by decide)⟩

theorem witness_WrongSeqnoIsSeqMismatch :
    (1#16 : Bits16) ≠ (linked 0#16 [] [.chunk (encodeFrame crcpA 1#16 [0x80#8])]).seq ∧ ([] : List Byte).length + 1 < 2 ^ 32 ∧
      replyClass paramsA 0x80#8 ≠ .unknown := by decide +kernel

/-- V55 (the length is not known) and V74 (it is). -/
theorem witness_FailedReadIsNoReply :
    delivers (linked 0#16 [] [.chunk (fixture.take 6), .error]) [fixture.take 6] (.error :: []) ∧
      (∀ len, memRead4 (ofList [fixture.take 6].flatten) 3 = some len →
        [fixture.take 6].flatten.length < 10 + len.toNat) ∧
      delivers (linked 0#16 [] [.chunk (fixture.take 10), .error]) [fixture.take 10] (.error :: []) ∧
      ∀ len, memRead4 (ofList [fixture.take 10].flatten) 3 = some len →
        [fixture.take 10].flatten.length < 10 + len.toNat := by
  refine ⟨rfl, fun len h => ?_, rfl, fun len h => ?_⟩
  · rw [show memRead4 (ofList [fixture.take 6].flatten) 3 = none by decide] at h
    exact absurd h (by simp)
  · rw [show memRead4 (ofList [fixture.take 10].flatten) 3 = some 1#32 by decide] at h
    obtain rfl := Option.some.inj h
    decide

theorem witness_ReceiveWaitsForTheFrame :
    delivers (linked 0#16 [] [.chunk (fixture.take 6)]) [fixture.take 6] [] ∧
      delivers (linked 0#16 [] [.chunk (fixture.take 10)]) [fixture.take 10] [] := ⟨rfl, rfl⟩

/-- V73: the empty chunk after `1B 00 00`. -/
theorem witness_EmptyChunkChangesNothing :
    ∀ len, memRead4 (ofList [[0x1B#8, 0#8, 0#8]].flatten) 3 = some len →
      [[0x1B#8, 0#8, 0#8]].flatten.length < 10 + len.toNat := by
  intro len h
  rw [show memRead4 (ofList [[0x1B#8, 0#8, 0#8]].flatten) 3 = none by decide] at h
  exact absurd h (by simp)

theorem witness_ReceiveNeverReturnsCorruptIncomplete :
    ∃ t, exec .receive (linked 0#16 [] [.chunk signOnReply]) = .next t ∧ (t.pending == none) = true :=
  exists_next (by decide +kernel)

/-- Instructions that keep SEQ: a SEND, a RECEIVE, a call, and a range without the host's SEQ.ADV; and the step of a call
that waits. -/
theorem witness_SeqChangesOnlyByTheCaller :
    (∃ t, exec (.send []) (linked 0#16 [.ok] []) = .next t ∧ true = true) ∧
      (∃ t, exec .receive (linked 0#16 [] [.chunk signOnReply]) = .next t ∧ true = true) ∧
      (∃ t, exec .signOn (linked 0#16 [.ok] [.chunk signOnReply]) = .next t ∧ true = true) ∧
      (∃ t, exec (.readRange 0#16 2 false) (linked 7#16 [.ok, .ok] (twoBytes 7#16)) = .next t ∧ true = true) ∧
      (waitingFor .readByte [.error]).pending = some .readByte ∧
      ∃ t, step (waitingFor .readByte [.error]) = .next t ∧ (t.status == 0x10#8) = true :=
  ⟨exists_next (f := fun _ => true) (by decide +kernel), exists_next (f := fun _ => true) (by decide +kernel),
    exists_next (f := fun _ => true) (by decide +kernel), exists_next (f := fun _ => true) (by decide +kernel), rfl,
    exists_next (by decide +kernel)⟩

/-- An instruction outside each group of writers: CRC.UPD (not MATCH), CRC.CHK (not CRC), a call (neither). -/
theorem witness_CrcRegistersHaveTheirWriters :
    (∃ t, exec (.crcUpd 0#8) (summed 0#16) = .next t ∧ true = true) ∧
      (∃ t, exec (.crcChk 0#8 0#8) (summed 0#16) = .next t ∧ true = true) ∧
      ∃ t, exec .signOn (linked 0#16 [.ok] [.chunk signOnReply]) = .next t ∧ true = true :=
  ⟨exists_next (f := fun _ => true) (by decide +kernel), exists_next (f := fun _ => true) (by decide +kernel),
    exists_next (f := fun _ => true) (by decide +kernel)⟩

/-- An instruction of each group: RECEIVE (not TXBUF), SEND (not RXBUF), a call (not the caller's buffer). -/
theorem witness_BuffersHaveTheirWriters :
    (∃ t, exec .receive (linked 0#16 [] [.chunk signOnReply]) = .next t ∧ true = true) ∧
      (∃ t, exec (.send []) (linked 0#16 [.ok] []) = .next t ∧ true = true) ∧
      ∃ t, exec .signOn (linked 0#16 [.ok] [.chunk signOnReply]) = .next t ∧ true = true :=
  ⟨exists_next (f := fun _ => true) (by decide +kernel), exists_next (f := fun _ => true) (by decide +kernel),
    exists_next (f := fun _ => true) (by decide +kernel)⟩

/-- On a line where nothing waits, and on one where a chunk does. -/
theorem witness_ArrivalsWaitOnTheInboundLine_frame :
    [0x01#8].length < 2 ^ 32 ∧ base.readAnswers = [] ∧ (linked 0#16 [] [.error, .chunk [1#8]]).readAnswers =
      [.error] ++ [.chunk [1#8]] := ⟨by decide, rfl, rfl⟩

/-- Bytes that are no frame, and a frame with bytes behind it, with a RECEIVE waiting or none. -/
theorem witness_ArrivalsWaitOnTheInboundLine_events :
    decodeEvent (.wire [0x1B#8, 0x00#8]) = none ∧
      decodeEvent (.wire (fixture ++ [0x1B#8])) = some (.frame 0#16 [0x01#8] 0x97F3#16, some (.wire [0x1B#8])) ∧
      (∃ t, step { waiting [] with agenda := [.wire [0x1B#8, 0x00#8]] } = .next t ∧
        (t.agenda == [] && t.pending == some .receive) = true) ∧
      ∃ t, step { waiting [] with agenda := [.timeout] } = .next t ∧ (t.readAnswers == [.error]) = true :=
  ⟨by decide +kernel, by decide +kernel, exists_next (by decide +kernel), exists_next (by decide +kernel)⟩

/-- A reply of each kind that a call expects, in two chunks with an excess byte. -/
theorem witness_ExchangeReturnsTheExpectedReply :
    (linked 1#16 [.ok] [.chunk (okReply.take 5), .chunk (okReply.drop 5 ++ [0xFF#8])]).writeAnswers = .ok :: [] ∧
      delivers (linked 1#16 [.ok] [.chunk (okReply.take 5), .chunk (okReply.drop 5 ++ [0xFF#8])])
        [okReply.take 5, okReply.drop 5 ++ [0xFF#8]] [] ∧
      [okReply.take 5, okReply.drop 5 ++ [0xFF#8]].flatten = encodeFrame crcpA 1#16 [0x80#8] ++ [0xFF#8] ∧
      replyClass paramsA 0x80#8 = .success paramsA.expectSetParam ∧
      replyClass paramsA 0x80#8 = .success paramsA.expectEnterProgMode ∧
      replyClass paramsA 0x80#8 = .success paramsA.expectReset ∧
      replyClass paramsA 0x80#8 = .success paramsA.expectSetDeviceDescriptor ∧
      replyClass paramsA 0x81#8 = .success paramsA.expectGetParam ∧
      replyClass paramsA 0x86#8 = .success .signOn := by
  exact ⟨rfl, rfl, by decide +kernel, by decide +kernel, by decide +kernel, by decide +kernel, by decide +kernel,
    by decide +kernel, by decide +kernel⟩

/-- With a data byte (V37), and without one (U16). -/
theorem witness_ReadRamByteReturnsTheFirstByte :
    paramsA.countBytes + paramsA.addrBytes + 2 < 2 ^ 32 ∧ memoryReply = encodeFrame crcpA 7#16 [0x82#8, 0x5A#8] ++ [] ∧
      delivers (linked 7#16 [.ok] [.chunk memoryReply]) [memoryReply] [] ∧
      replyClass paramsA 0x82#8 = .success .memory ∧
      delivers (linked 7#16 [.ok] [.chunk (encodeFrame crcpA 7#16 [0x82#8])]) [encodeFrame crcpA 7#16 [0x82#8]] [] :=
  ⟨by decide, by decide +kernel, rfl, by decide +kernel, rfl⟩

theorem witness_WriteRamByteSucceedsOnOk :
    paramsA.countBytes + paramsA.addrBytes + 3 < 2 ^ 32 ∧ okReply = encodeFrame crcpA 1#16 [0x80#8] ++ [] ∧
      delivers (linked 1#16 [.ok] [.chunk okReply]) [okReply] [] ∧ replyClass paramsA 0x80#8 = .success .ok :=
  ⟨by decide, by decide +kernel, rfl, by decide +kernel⟩

/-- A device failure (V64), and a success of another kind. -/
theorem witness_ExchangeCarriesTheObservedCode :
    failedReply = encodeFrame crcpA 2#16 [0xA0#8] ++ [] ∧
      delivers (linked 2#16 [.ok] [.chunk failedReply]) [failedReply] [] ∧
      replyClass paramsA 0xA0#8 = .deviceFailure .failed ∧
      okReply = encodeFrame crcpA 1#16 [0x80#8] ++ [] ∧ replyClass paramsA 0x80#8 ≠ .unknown ∧
      replyClass paramsA 0x80#8 ≠ .success .signOn ∧ replyClass paramsA 0x80#8 ≠ .success .memory ∧
      replyClass paramsA 0x82#8 ≠ .success .ok :=
  ⟨by decide +kernel, rfl, by decide +kernel, by decide +kernel, by decide +kernel, by decide +kernel,
    by decide +kernel, by decide +kernel⟩

/-- The nine calls, each of which sends a short command first. -/
theorem witness_ExchangeEndsOnTransportError :
    (linked 0#16 [.error 0] []).writeAnswers = .error 0 :: [] ∧
      ∀ i ∈ [.signOn, .readRamByte 7#16, .writeRamByte 7#16 1#8, .setParam [0xAA#8], .getParam [0xAA#8],
          .enterProgMode [], .devReset [], .setDeviceDescriptor [1#8], .readRange 7#16 2 true],
        ∃ cmd ∈ firstCommand paramsA i, cmd.length < 2 ^ 32 := by
  refine ⟨rfl, ?_⟩
  decide

/-- NoReply, Corrupt and SeqMismatch after a SEND of SIGN_ON's command that went out. -/
theorem witness_CallIsSendThenReceive_error :
    firstCommand paramsA .signOn = some [0x01#8] ∧
      ∀ e ∈ [([.error], 0x10#8), ([.chunk (fixture.take 9 ++ [0#8, 0#8])], 0x24#8), ([.chunk memoryReply], 0x12#8)],
        ∃ m, exec (.send [0x01#8]) (linked 0#16 [.ok] e.1) = .next m ∧
          (m.result == .ok && next? (exec .receive m) fun u => u.pending == none && u.status == e.2) = true := by
  refine ⟨rfl, fun e he => exists_next ?_⟩
  simp only [List.mem_cons, List.not_mem_nil, or_false] at he
  rcases he with rfl | rfl | rfl <;> decide +kernel

/-- The nine calls, each of which sends its command, and then waits where nothing has arrived, or returns. -/
theorem witness_CallIsSendThenReceive :
    ∀ i ∈ [.signOn, .readRamByte 7#16, .writeRamByte 7#16 1#8, .setParam [0xAA#8], .getParam [0xAA#8],
        .enterProgMode [], .devReset [], .setDeviceDescriptor [1#8], .readRange 7#16 2 true],
      ∃ cmd ∈ firstCommand paramsA i,
        next? (exec (.send cmd) (linked 0#16 [.ok] [])) (fun m => m.result == .ok &&
          next? (exec .receive m) fun u => u.pending == some .receive) = true ∧
        next? (exec (.send cmd) (linked 0#16 [.ok] [.chunk signOnReply])) (fun m => m.result == .ok &&
          next? (exec .receive m) fun u => u.pending == none) = true := by
  intro i hi
  simp only [List.mem_cons, List.not_mem_nil, or_false] at hi
  rcases hi with rfl | rfl | rfl | rfl | rfl | rfl | rfl | rfl | rfl <;> exact ⟨_, rfl, by decide +kernel⟩

/-- A byte that succeeds, one that fails, one for which READ_RAM_BYTE waits, and one whose reply has no data. -/
theorem witness_RangeIsOneExchangeAByte :
    (linked 7#16 [.ok] [.chunk memoryReply]).pending = none ∧
      next? (exec (.readRamByte 0x3F00#16) (linked 7#16 [.ok] [.chunk memoryReply]))
        (fun u => u.pending == none && u.result == .byteRead 0x5A#8) = true ∧
      next? (exec (.readRamByte 0x3F00#16) (linked 7#16 [.ok] [.error]))
        (fun u => u.pending == none && u.result == .noReply) = true ∧
      next? (exec (.readRamByte 0x3F00#16) (linked 7#16 [.ok] [])) (fun u => u.pending == some .readByte) = true ∧
      next? (exec (.readRange 0x3F00#16 2 true) (linked 7#16 [.ok, .ok] [.chunk memoryReply]))
        (fun u => u.pending == some (.range 0x3F00#16 1 0 true) && u.seq == 8#16) = true :=
  ⟨rfl, by decide +kernel, by decide +kernel, by decide +kernel, by decide +kernel⟩

/-- Two bytes that end at 0xFFFF, with the host's SEQ.ADV between them and without. -/
theorem witness_ReadRangeFillsTheBuffer :
    (0xFFFE#16 : Bits16).toNat + [0x5A#8, 0xC3#8].length ≤ 2 ^ 16 ∧ replyClass paramsA 0x82#8 = .success .memory ∧
      (linked 7#16 [.ok, .ok] (twoBytes 8#16)).writeAnswers = [0x5A#8, 0xC3#8].map (fun _ => WriteAnswer.ok) ++ [] ∧
      (linked 7#16 [.ok, .ok] (twoBytes 8#16)).readAnswers =
        [0x5A#8, 0xC3#8].mapIdx
          (fun i b => ReadAnswer.chunk (encodeFrame crcpA (7#16 + BitVec.ofNat 16 i) [0x82#8, b])) ++ [] ∧
      (linked 7#16 [.ok, .ok] (twoBytes 7#16)).readAnswers =
        [0x5A#8, 0xC3#8].mapIdx (fun _ b => ReadAnswer.chunk (encodeFrame crcpA 7#16 [0x82#8, b])) ++ [] :=
  ⟨by decide, by decide +kernel, rfl, by decide +kernel, by decide +kernel⟩

/-- A range of one byte that has succeeded, and then a byte that gets a read error (with the host's SEQ.ADV), a failed
write, or a reply without data; and a range whose very first byte fails. -/
theorem witness_ReadRangeEndsAtTheFirstError :
    (∃ t, exec (.readRange 0#16 1 true) (linked 7#16 [.ok, .ok] [.chunk memoryReply, .error]) = .next t ∧
      (t.result == .rangeRead && t.pending == none && next? (exec .seqAdv t) fun m =>
        next? (exec (.readRamByte 1#16) m) fun u => u.pending == none && u.result == .noReply) = true) ∧
      (∃ t, exec (.readRange 0#16 1 false) (linked 7#16 [.ok, .error 2] [.chunk memoryReply]) = .next t ∧
        (t.result == .rangeRead && t.pending == none && next? (exec (.readRamByte 1#16) t) fun u =>
          u.pending == none && u.result == .transportError) = true) ∧
      (∃ t, exec (.readRange 0#16 0 true) (linked 7#16 [.ok] [.error]) = .next t ∧
        (t.result == .rangeRead && t.pending == none && next? (exec (.readRamByte 0#16) t) fun u =>
          u.pending == none && u.result == .noReply) = true) ∧
      (match exec (.readRamByte 0x3F00#16) (linked 7#16 [.ok] [.chunk (encodeFrame crcpA 7#16 [0x82#8])]) with
        | .fault .noDataByte => true
        | _ => false) = true :=
  ⟨exists_next (by decide +kernel), exists_next (by decide +kernel), exists_next (by decide +kernel),
    test_readRamByte_u16⟩

end Sys2Proof.Tests
end

section
/-! PROOFS. The OPEN parameters (spec/00_scope.md R7, R8; spec/44_session_pseudo_ops.md R191): the record after reset is a
legal one, and what REPLY_CLASS answers is read off the table of replies. -/

namespace Sys2Proof.Proofs

open Sys2Proof Sys2Proof.Machine

theorem someLegalParams_legal : Config.someLegalParams.legal := by decide

/-- Whatever record the free value is: it is taken only where it is legal. -/
theorem params_legal : Config.params.legal := by
  unfold Config.params
  split
  case isTrue hany => exact hany
  case isFalse => exact someLegalParams_legal

/-- REPLY_CLASS answers with an entry of the table, or the table does not list the code. -/
theorem replyClass_cases (p : Params) (code : Byte) :
    (code, replyClass p code) ∈ p.replies ∨ code ∉ p.replies.map Prod.fst ∧ replyClass p code = .unknown := by
  cases hfind : p.replies.find? (fun e => e.1 == code) with
  | some e =>
    have hcode : e.1 = code := by simpa using List.find?_some hfind
    have hclass : replyClass p code = e.2 := by simp [replyClass, hfind]
    left
    rw [hclass, ← hcode]
    exact List.mem_of_find?_eq_some hfind
  | none =>
    have hnone : ∀ e ∈ p.replies, e.1 ≠ code := by simpa using hfind
    have habsent : code ∉ p.replies.map Prod.fst := by
      intro hmem
      obtain ⟨e, he, hcode⟩ := List.mem_map.mp hmem
      exact hnone e he hcode
    exact .inr ⟨habsent, by simp [replyClass, hfind]⟩

/-- Distinct codes make the table a function, so the entry REPLY_CLASS found is the one listed. -/
theorem replyClass_of_mem {p : Params} {code : Byte} {cls : ReplyClass} (hnodup : (p.replies.map Prod.fst).Nodup)
    (hmem : (code, cls) ∈ p.replies) : replyClass p code = cls := by
  obtain hfound | ⟨habsent, -⟩ := replyClass_cases p code
  · have hentry : (code, replyClass p code) = (code, cls) := List.inj_on_of_nodup_map hnodup hfound hmem rfl
    exact congrArg Prod.snd hentry
  · exact absurd (List.mem_map_of_mem hmem) habsent

theorem replyClass_of_notMem {p : Params} {code : Byte} (habsent : code ∉ p.replies.map Prod.fst) :
    replyClass p code = .unknown := by
  obtain hfound | ⟨-, hunknown⟩ := replyClass_cases p code
  · exact absurd (List.mem_map_of_mem hfound) habsent
  · exact hunknown

/-- Settles O3: the record after reset is `Config.params`, legal whatever the free value is; the two halves about the table
follow from `replyClass_cases`. -/
theorem resetParametersAreLegal : Obligations.ResetParametersAreLegal :=
  ⟨params_legal, fun _ _ _ => replyClass_of_mem, fun _ _ => replyClass_of_notMem⟩

end Sys2Proof.Proofs
end

section
/-! PROOFS. What one step can do, said once (spec/10_state.md R27; spec/20_memory.md R61, R62): the event at the head of
the agenda, the transport's answer to a waiting RECEIVE, or nothing; and what an instruction can answer, by its form. -/

namespace Sys2Proof.Proofs

open Sys2Proof Sys2Proof.Machine

/-! ### What an instruction can answer -/

/-- The states that an instruction can answer from `s`, one constructor for each form of answer; the calls together,
since they are made of the same pieces (`Keeps`). -/
inductive Answers (s : State) : Instr → State → Prop
  | crcInit : Answers s .crcInit (returnResult .ok { s with crc := s.params.crcp.init, crcValid := true })
  | crcUpd (b : Byte) : Answers s (.crcUpd b) (returnResult .ok { s with crc := crcStep s.params.crcp s.crc b })
  | crcGet : Answers s .crcGet (returnResult (.crcValue (crcFinal s.params.crcp s.crc)) s)
  | crcChk (lo hi : Byte) :
    Answers s (.crcChk lo hi) (returnResult (.checked (crcMatches s.params.crcp s.crc lo hi))
      { s with matchFlag := crcMatches s.params.crcp s.crc lo hi })
  | encode (seqno : Bits16) (payload : List Byte) (hfits : payload.length < 2 ^ 32) :
    Answers s (.encode seqno payload) (returnResult (.encoded (encodeFrame s.params.crcp seqno payload))
      (writeTxbuf (encodeFrame s.params.crcp seqno payload) s))
  | fdec (n : Bits33) (r : Except FrameError FrameParts) (hr : decodeRxbuf s n = some r) :
    Answers s (.fdec n) (returnResult (framedResult r) (defineRx (framedDefines r) s))
  | decode (n : Bits33) (r : Except FrameError FrameParts) (hr : decodeRxbuf s n = some r) :
    Answers s (.decode n) (returnResult (decodeResult (splitReply s.params r))
      (defineRx (decodedDefines (splitReply s.params r)) s))
  | send (data : List Byte) (hfits : data.length < 2 ^ 32) : Answers s (.send data) (sendFrame data s)
  | received (u : State) (hu : receiveStart s = .done u) : Answers s .receive u
  | receiveWaits (u : State) (hu : receiveStart s = .waits u) :
    Answers s .receive { u with pending := some .receive }
  | seqAdv : Answers s .seqAdv (advanceSeq s)
  | seqRst : Answers s .seqRst (returnResult .ok { s with seq := seqReset })
  | frame (seqno : Bits16) (payload : List Byte) (crcField : Bits16) :
    Answers s (.frame seqno payload crcField) (arrive (frameBytes seqno payload crcField) s)
  | call (i : Instr) (t : State) (hi : isCall i = true) (ht : exec i s = .next t) : Answers s i t

/-- A guarded answer is the answer, and the guard held. -/
theorem of_ite_next {c : Prop} [Decidable c] {u t : State} {r : Refusal}
    (h : (if c then Host.Outcome.next u else .refused r : Host.Outcome State Fault Refusal) = .next t) : c ∧ u = t := by
  split at h
  case isTrue hc => exact ⟨hc, Host.Outcome.next.inj h⟩
  case isFalse => cases h

/-- FDEC answers where every byte that it must read is there. -/
theorem execFdec_next {n : Bits33} {s t : State} (h : execFdec n s = .next t) :
    ∃ r, decodeRxbuf s n = some r ∧ returnResult (framedResult r) (defineRx (framedDefines r) s) = t := by
  unfold execFdec at h
  split at h
  case h_1 => cases h
  case h_2 r hr => exact ⟨r, hr, Host.Outcome.next.inj h⟩

/-- So does DECODE, which splits the reply off what FDEC finds. -/
theorem execDecode_next {n : Bits33} {s t : State} (h : execDecode n s = .next t) :
    ∃ r, decodeRxbuf s n = some r ∧ returnResult (decodeResult (splitReply s.params r))
      (defineRx (decodedDefines (splitReply s.params r)) s) = t := by
  unfold execDecode at h
  split at h
  case h_1 => cases h
  case h_2 r hr => exact ⟨r, hr, Host.Outcome.next.inj h⟩

/-- Whatever state an instruction answers is of its own form. -/
theorem exec_answers {s t : State} {i : Instr} (h : exec i s = .next t) : Answers s i t := by
  cases i
  case crcInit => cases h; exact .crcInit
  case crcUpd b => obtain ⟨-, rfl⟩ := of_ite_next h; exact .crcUpd b
  case crcGet => obtain ⟨-, rfl⟩ := of_ite_next h; exact .crcGet
  case crcChk lo hi => obtain ⟨-, rfl⟩ := of_ite_next h; exact .crcChk lo hi
  case encode seqno payload =>
    obtain ⟨hfits, rfl⟩ := of_ite_next h
    exact .encode seqno payload (fitsPayload_iff.1 hfits)
  case fdec n => obtain ⟨r, hr, rfl⟩ := execFdec_next h; exact .fdec n r hr
  case decode n => obtain ⟨r, hr, rfl⟩ := execDecode_next h; exact .decode n r hr
  case send data =>
    obtain ⟨hfits, rfl⟩ := of_ite_next h
    exact .send data (fitsPayload_iff.1 hfits)
  case receive =>
    obtain ⟨u, hu, hn⟩ | ⟨u, hu, rfl⟩ := afterReceive_next (show execReceive s = .next t from h)
    · obtain rfl := Host.Outcome.next.inj hn
      exact .received _ hu
    · exact .receiveWaits u hu
  case seqAdv => cases h; exact .seqAdv
  case seqRst => cases h; exact .seqRst
  case frame seqno payload crcField => obtain ⟨-, rfl⟩ := of_ite_next h; exact .frame seqno payload crcField
  all_goals exact .call _ _ rfl h

/-! ### What a step can do -/

/-- An event that presents an instruction runs it, whatever is left of the event taken as the next one (R27). -/
theorem stepEvent_of_decodeEvent {e : Event} {i : Instr} {more : Option Event} (h : decodeEvent e = some (i, more))
    (s : State) : stepEvent e s = exec i (s.advance more) := by
  cases e with
  | port bytes =>
    cases bytes with
    | nil => cases h
    | cons op rest =>
      simp only [decodeEvent] at h
      simp only [stepEvent, stepPort]
      split at h <;> cases h <;> simp [*]
  | wire bytes => simp only [stepEvent, stepWire, h]
  | call j => cases h; rfl
  | load bytes => cases h
  | newSession => cases h
  | timeout => cases h

/-- What arrives on the line presents no instruction but FRAME (R80, R209). -/
theorem decodeEvent_wire {bytes : List Byte} {i : Instr} {more : Option Event}
    (h : decodeEvent (.wire bytes) = some (i, more)) : ∃ seqno payload crcField, i = .frame seqno payload crcField := by
  cases hd : decodeWire bytes with
  | none => simp [decodeEvent, hd] at h
  | some found =>
    obtain ⟨j, rest⟩ := found
    obtain ⟨seqno, payload, crcField, hj, -, -⟩ := decodeWire_some hd
    refine ⟨seqno, payload, crcField, ?_⟩
    rw [← hj]
    simp only [decodeEvent, hd] at h
    split at h <;> simp_all

/-- A step is nothing, the next event of the agenda, or the transport's answer to a waiting RECEIVE; while that waits,
no event of the host happens (R61, R62, R230). -/
theorem step_cases (s : State) :
    step s = .next s ∨
    (∃ e, (s.pending = none ∨ Event.ofLine e = true) ∧ s.agenda.head? = some e ∧ step s = stepEvent e s) ∨
    ∃ task, s.pending = some task ∧ step s = resume task s := by
  unfold step stepNext
  split
  case h_1 => exact .inl rfl
  case h_2 task _ hp => exact .inr (.inr ⟨task, hp, rfl⟩)
  case h_3 e later ha hp => exact .inr (.inl ⟨e, .inl hp, by rw [ha]; rfl, rfl⟩)
  case h_4 e later task ha hp =>
    split
    case isTrue hl => exact .inr (.inl ⟨e, .inr hl, by rw [ha]; rfl, rfl⟩)
    case isFalse => exact .inr (.inr ⟨task, hp, rfl⟩)

/-- While a RECEIVE does not wait, and for an event of the line in any case, the step is the event's. -/
theorem step_of_agenda {s : State} {e : Event} {later : List Event} (ha : s.agenda = e :: later)
    (hready : s.pending = none ∨ Event.ofLine e = true) : step s = stepEvent e s := by
  unfold step stepNext
  obtain hp | hl := hready
  · rw [ha, hp]
  · cases hp : s.pending with
    | none => rw [ha]
    | some task => simp only [ha, hl, if_true]

/-- Settles O6: the event at the head runs the instruction that it presents, on the rest of the agenda. -/
theorem stepRunsTheDecodedInstruction : Obligations.StepRunsTheDecodedInstruction := by
  intro s e later i more ha hdecode _ hready
  have hrest : s.advance more = { s with agenda := more.toList ++ later } := by rw [State.advance, ha, List.tail_cons]
  rw [step_of_agenda ha hready, stepEvent_of_decodeEvent hdecode, hrest]

end Sys2Proof.Proofs
end

section
/-! PROOFS. Who writes what (spec/10_state.md R21, R22, R28, R29, R31, R32): each instruction's frame, read off
`Answers`; the calls' frames are those of SEND, of RECEIVE and of the ends of an exchange. -/

namespace Sys2Proof.Proofs

open Sys2Proof Sys2Proof.Machine

/-! ### The parts of the state that have writers of their own -/

/-- The CRC unit's registers, the parameters and the agenda (R22, R31). -/
def crcUnit (s : State) : Bits16 × Bool × Bool × Params × List Event :=
  (s.crc, s.crcValid, s.matchFlag, s.params, s.agenda)

/-- The transmit side: TXBUF, TX_LEN and the line (R29, R57). -/
def transmitSide (s : State) : Memory × Bits33 × List (List Byte) × List WriteAnswer :=
  (s.txbuf, s.txLen, s.sent, s.writeAnswers)

/-- The receive side but for the transport's answers: RXBUF, RX_NEED, RX_CNT and what waits (R26, R28). -/
def receiveSide (s : State) : Memory × Bits33 × Bits33 × Option Task := (s.rxbuf, s.rxNeed, s.rxCnt, s.pending)

theorem crcUnit_eq_iff (s t : State) : crcUnit t = crcUnit s ↔
    t.crc = s.crc ∧ t.crcValid = s.crcValid ∧ t.matchFlag = s.matchFlag ∧ t.params = s.params ∧
      t.agenda = s.agenda := by
  simp only [crcUnit, Prod.mk.injEq]

theorem transmitSide_eq_iff (s t : State) : transmitSide t = transmitSide s ↔
    t.txbuf = s.txbuf ∧ t.txLen = s.txLen ∧ t.sent = s.sent ∧ t.writeAnswers = s.writeAnswers := by
  simp only [transmitSide, Prod.mk.injEq]

theorem receiveSide_eq_iff (s t : State) : receiveSide t = receiveSide s ↔
    t.rxbuf = s.rxbuf ∧ t.rxNeed = s.rxNeed ∧ t.rxCnt = s.rxCnt ∧ t.pending = s.pending := by
  simp only [receiveSide, Prod.mk.injEq]

/-! ### What RECEIVE leaves unchanged -/

section Frame

variable {s t : State} (h : changesOnlyReceive s t)

include h

theorem changesOnlyReceive_seq : t.seq = s.seq := (congrArg State.seq (show t = _ from h) :)
theorem changesOnlyReceive_crcUnit : crcUnit t = crcUnit s := (congrArg crcUnit (show t = _ from h) :)
theorem changesOnlyReceive_transmitSide : transmitSide t = transmitSide s :=
  (congrArg transmitSide (show t = _ from h) :)
theorem changesOnlyReceive_callerBuf : t.callerBuf = s.callerBuf := (congrArg State.callerBuf (show t = _ from h) :)

/-- What waits is RECEIVE's own to write. -/
theorem changesOnlyReceive_pending (waits : Option Task) : changesOnlyReceive s { t with pending := waits } :=
  (congrArg (fun u : State => { u with pending := waits }) (show t = _ from h) :)

end Frame

/-- The state of a RECEIVE that has returned or waits. -/
def phaseState : Phase → State
  | .done s => s
  | .waits s => s

/-- The return of RECEIVE writes its own registers and RXBUF, and leaves the answers it has not taken. -/
theorem endReceive_changes (x : Result) (d : RxDefines) (buf : Memory) (rest : List ReadAnswer) (s : State) :
    changesOnlyReceive s (endReceive x d buf { s with readAnswers := rest }) := rfl

/-- RECEIVE writes its own registers and RXBUF, from whatever bytes and estimate it goes on (R32). -/
theorem receiveFrom_changes (acc : List Byte) (need : Nat) (s : State) :
    changesOnlyReceive s (phaseState (receiveFrom acc need s)) := by
  unfold receiveFrom
  cases reassemble s.readAnswers acc need with
  | noReply rest => exact endReceive_changes _ _ _ rest s
  | complete frame rest => exact endReceive_changes _ _ _ rest s
  | waiting acc need => rfl

theorem receiveStart_done_changes {s u : State} (h : receiveStart s = .done u) : changesOnlyReceive s u := by
  have hframe := receiveFrom_changes [] lenKnownAt s
  rw [show receiveFrom [] lenKnownAt s = .done u from h] at hframe
  exact hframe

theorem receiveStart_waits_changes {s u : State} (h : receiveStart s = .waits u) (task : Task) :
    changesOnlyReceive s { u with pending := some task } := by
  have hframe := receiveFrom_changes [] lenKnownAt s
  rw [show receiveFrom [] lenKnownAt s = .waits u from h] at hframe
  exact changesOnlyReceive_pending hframe (some task)

/-- A free answer, where one is drawn, is all that the transport's next answer changes. -/
theorem drawReadAnswer_changes (s : State) :
    ∃ answers draws, drawReadAnswer s = { s with readAnswers := answers, draws := draws } := by
  cases hs : s.readAnswers with
  | nil =>
    obtain ⟨d, e⟩ := drawReadAnswer_eq (.inr ⟨hs, rfl, rfl⟩)
    exact ⟨_, d, e⟩
  | cons a later =>
    obtain ⟨d, e⟩ := drawReadAnswer_eq (.inl hs)
    exact ⟨_, d, e⟩

/-- A resumed RECEIVE writes what RECEIVE writes. -/
theorem receiveResume_changes {s : State} {phase : Phase} (h : receiveResume s = some phase) :
    changesOnlyReceive s (phaseState phase) := by
  obtain ⟨acc, -, rfl⟩ := Option.map_eq_some_iff.1 h
  obtain ⟨answers, draws, e⟩ := drawReadAnswer_changes s
  rw [e]
  exact receiveFrom_changes acc s.rxNeed.toNat { s with readAnswers := answers, draws := draws }

/-! ### What every call leaves unchanged -/

/-- Every call keeps the value of a part of the state that SEND, RECEIVE and the ends of the exchanges do not write. -/
theorem keeps_part {α : Type} (part : State → α) (value : α) (hsend : ∀ cmd s, part (sendFrame cmd s) = part s)
    (hreceive : ∀ s u, changesOnlyReceive s u → part u = part s)
    (hreturn : ∀ x c s, part (returnResult x { s with errInfo := c }) = part s)
    (hbuf : ∀ i b (s : State), part { s with callerBuf := s.callerBuf.write i b } = part s) :
    Keeps fun s => part s = value where
  send cmd s _ h := (hsend cmd s).trans h
  done s u h e := (hreceive s u (receiveStart_done_changes e)).trans h
  waits s _ task h e := (hreceive s _ (receiveStart_waits_changes e task)).trans h
  device c s h := (hreturn _ c s).trans h
  unexpected c s h := (hreturn _ c s).trans h
  ok s h := (hreturn _ s.errInfo s).trans h
  byte _ s h := (hreturn _ s.errInfo s).trans h
  range s h := (hreturn _ s.errInfo s).trans h
  buf i b s h := (hbuf i b s).trans h

/-- SEQ, where the host issues no SEQ.ADV (R180, R190). -/
theorem keeps_seq (v : Bits16) : Keeps fun s => s.seq = v :=
  keeps_part State.seq v sendFrame_seq (fun _ _ => changesOnlyReceive_seq) (fun _ _ _ => rfl)
    fun _ _ _ => rfl

theorem keeps_crcUnit (v : Bits16 × Bool × Bool × Params × List Event) : Keeps fun s => crcUnit s = v :=
  keeps_part crcUnit v (fun _ _ => by simp [crcUnit]) (fun _ _ => changesOnlyReceive_crcUnit) (fun _ _ _ => rfl)
    fun _ _ _ => rfl

/-- No call changes the CRC unit's registers, the parameters or the agenda, SEQ.ADV between a range's bytes included. -/
theorem call_crcUnit {s t : State} {i : Instr} (hi : isCall i = true) (ht : exec i s = .next t) :
    crcUnit t = crcUnit s :=
  (keeps_crcUnit (crcUnit s)).call hi (fun _ _ h => h) rfl ht

/-! ### SEQ -/

theorem exec_seq {s t : State} {i : Instr} (h : exec i s = .next t) (hadv : i ≠ .seqAdv) (hrst : i ≠ .seqRst)
    (hrange : ∀ addr count, i ≠ .readRange addr count true) : t.seq = s.seq := by
  cases exec_answers h with
  | send data => exact sendFrame_seq data s
  | received u hu => exact changesOnlyReceive_seq (receiveStart_done_changes hu)
  | receiveWaits u hu => exact changesOnlyReceive_seq (receiveStart_waits_changes hu _)
  | seqAdv => exact absurd rfl hadv
  | seqRst => exact absurd rfl hrst
  | call i t hi ht =>
    exact (keeps_seq s.seq).call hi (fun ⟨addr, count, e⟩ => absurd e (hrange addr count)) rfl ht
  | _ => rfl

/-- While a RECEIVE waits, and then at the end of what it is for. -/
theorem resume_seq {s t : State} {task : Task} (h : resume task s = .next t)
    (hrange : ∀ addr i left, task ≠ .range addr i left true) : t.seq = s.seq := by
  unfold resume at h
  split at h
  case h_2 => cases h
  case h_1 phase hphase =>
    have hseq : (phaseState phase).seq = s.seq := changesOnlyReceive_seq (receiveResume_changes hphase)
    obtain ⟨u, rfl, hu⟩ | ⟨u, rfl, rfl⟩ := afterReceive_next h
    · exact (keeps_seq s.seq).endTask task (fun ⟨addr, i, left, e⟩ => absurd e (hrange addr i left)) hseq hu
    · exact hseq

/-- What happens on the line changes no register of the block (R34, R209). -/
theorem stepEvent_line_seq {s t : State} {e : Event} (hl : Event.ofLine e = true) (h : stepEvent e s = .next t) :
    t.seq = s.seq := by
  cases hdecode : decodeEvent e with
  | some found =>
    obtain ⟨i, more⟩ := found
    rw [stepEvent_of_decodeEvent hdecode] at h
    cases e with
    | wire bytes =>
      obtain ⟨seqno, payload, crcField, rfl⟩ := decodeEvent_wire hdecode
      have hseq := exec_seq h Instr.noConfusion Instr.noConfusion fun _ _ => Instr.noConfusion
      rw [hseq, advance_seq]
    | timeout => cases hdecode
    | _ => cases hl
  | none =>
    cases e with
    | wire bytes =>
      simp only [stepEvent, stepWire, hdecode, Host.Outcome.next.injEq] at h
      rw [← h, arrive_seq, advance_seq]
    | timeout =>
      rw [← Host.Outcome.next.inj h, readError_seq, advance_seq]
    | _ => cases hl

/-- Settles O48: for an instruction by its form, for a step while a RECEIVE waits by what such a step can do. -/
theorem seqChangesOnlyByTheCaller : Obligations.SeqChangesOnlyByTheCaller := by
  refine ⟨fun s t i => exec_seq, fun s t task hp h hrange => ?_⟩
  obtain hnone | ⟨e, hready, -, he⟩ | ⟨task', hp', hr⟩ := step_cases s
  · rw [Host.Outcome.next.inj (hnone.symm.trans h)]
  · have hl : Event.ofLine e = true := hready.resolve_left (by simp [hp])
    exact stepEvent_line_seq hl (he ▸ h)
  · obtain rfl : task = task' := Option.some.inj (hp.symm.trans hp')
    exact resume_seq (hr ▸ h) hrange

/-! ### The CRC unit -/

/-- The instructions that write a register of the CRC unit. -/
def writesCrcUnit : Instr → Bool
  | .crcInit => true
  | .crcUpd _ => true
  | .crcChk _ _ => true
  | _ => false

theorem exec_crcUnit {s t : State} {i : Instr} (h : exec i s = .next t) (hi : writesCrcUnit i = false) :
    crcUnit t = crcUnit s := by
  cases exec_answers h with
  | crcInit => cases hi
  | crcUpd b => cases hi
  | crcChk lo hi' => cases hi
  | encode seqno payload => simp [crcUnit]
  | send data => simp [crcUnit]
  | received u hu => exact changesOnlyReceive_crcUnit (receiveStart_done_changes hu)
  | receiveWaits u hu => exact changesOnlyReceive_crcUnit (receiveStart_waits_changes hu _)
  | call i t hcall ht => exact call_crcUnit hcall ht
  | _ => rfl

/-- Settles O49: an instruction that writes none of the unit's registers leaves the whole of `crcUnit`, and each of the
three that write one leaves the rest. -/
theorem crcRegistersHaveTheirWriters : Obligations.CrcRegistersHaveTheirWriters := by
  intro s t i h
  cases hw : writesCrcUnit i with
  | false =>
    obtain ⟨hcrc, hvalid, hmatch, hparams, hagenda⟩ := (crcUnit_eq_iff s t).1 (exec_crcUnit h hw)
    exact ⟨fun _ _ => ⟨hcrc, hvalid⟩, fun _ => hmatch, hparams, hagenda⟩
  | true =>
    cases exec_answers h with
    | crcInit => exact ⟨fun _ hne => absurd rfl hne, fun _ => rfl, rfl, rfl⟩
    | crcUpd b => exact ⟨fun hne _ => absurd rfl (hne b), fun _ => rfl, rfl, rfl⟩
    | crcChk lo hi => exact ⟨fun _ _ => ⟨rfl, rfl⟩, fun hne => absurd rfl (hne lo hi), rfl, rfl⟩
    | call i t hcall => cases i <;> simp_all [writesCrcUnit, isCall]
    | _ => cases hw

/-! ### The buffers -/

/-- The end of a task that is no range leaves the caller's buffer (R193). -/
theorem endTask_callerBuf {task : Task} {s t : State}
    (hrange : ∀ addr i left advance, task ≠ .range addr i left advance)
    (h : endTask task s = .next t) : t.callerBuf = s.callerBuf := by
  have hclassify : ∀ k, (classify k s).callerBuf = s.callerBuf := fun k => by
    obtain e | ⟨r, x, -, -, e⟩ := classify_cases k s <;> rw [e]
    rfl
  cases task with
  | receive => rw [← Host.Outcome.next.inj h]
  | exchange k => rw [← Host.Outcome.next.inj h, hclassify]
  | writeByte =>
    rw [← Host.Outcome.next.inj h]
    obtain e | e := endWriteByte_cases s <;> rw [e]
    · exact hclassify .ok
    · exact hclassify .ok
  | readByte =>
    obtain rfl | ⟨b, rfl⟩ := endReadByte_next h
    · exact hclassify .memory
    · exact hclassify .memory
  | range addr i left advance => exact absurd rfl (hrange addr i left advance)

theorem exchange_callerBuf {task : Task} {cmd : List Byte} {s t : State}
    (hrange : ∀ addr i left advance, task ≠ .range addr i left advance)
    (h : exchange task cmd (endTask task) s = .next t) : t.callerBuf = s.callerBuf := by
  obtain ⟨-, ⟨-, rfl⟩ | ⟨-, ⟨u, hu, ht⟩ | ⟨u, hu, rfl⟩⟩⟩ := exchange_next h
  · exact sendFrame_callerBuf cmd s
  · calc t.callerBuf = u.callerBuf := endTask_callerBuf hrange ht
      _ = (sendFrame cmd s).callerBuf := changesOnlyReceive_callerBuf (receiveStart_done_changes hu)
      _ = s.callerBuf := sendFrame_callerBuf cmd s
  · exact (changesOnlyReceive_callerBuf (receiveStart_waits_changes hu _)).trans (sendFrame_callerBuf cmd s)

/-- A call but READ_RANGE is one exchange for a task that is no range (R180 to R188). -/
theorem call_exchange {i : Instr} (hi : isCall i = true)
    (hrange : ∀ addr count advance, i ≠ .readRange addr count advance) (s : State) :
    ∃ task cmd, (∀ addr i left advance, task ≠ .range addr i left advance) ∧
      exec i s = exchange task cmd (endTask task) s := by
  cases i
  case readRange addr count advance => exact absurd rfl (hrange addr count advance)
  case readRamByte addr => exact ⟨.readByte, _, by simp, rfl⟩
  case writeRamByte addr value => exact ⟨.writeByte, _, by simp, rfl⟩
  case signOn => exact ⟨.exchange .signOn, signOnCommand, by simp, rfl⟩
  case setParam args => exact ⟨.exchange s.params.expectSetParam, s.params.cmdSetParameter :: args, by simp, rfl⟩
  case getParam args => exact ⟨.exchange s.params.expectGetParam, s.params.cmdGetParameter :: args, by simp, rfl⟩
  case enterProgMode args =>
    exact ⟨.exchange s.params.expectEnterProgMode, s.params.cmdEnterProgmode :: args, by simp, rfl⟩
  case devReset args => exact ⟨.exchange s.params.expectReset, s.params.cmdReset :: args, by simp, rfl⟩
  case setDeviceDescriptor args =>
    exact ⟨.exchange s.params.expectSetDeviceDescriptor,
      s.params.cmdSetDeviceDescriptor :: args, by simp, rfl⟩
  all_goals cases hi

/-- The caller's buffer is READ_RANGE's alone (R193). -/
theorem exec_callerBuf {s t : State} {i : Instr} (h : exec i s = .next t)
    (hrange : ∀ addr count advance, i ≠ .readRange addr count advance) : t.callerBuf = s.callerBuf := by
  cases exec_answers h with
  | send data => exact sendFrame_callerBuf data s
  | received u hu => exact changesOnlyReceive_callerBuf (receiveStart_done_changes hu)
  | receiveWaits u hu => exact changesOnlyReceive_callerBuf (receiveStart_waits_changes hu _)
  | call i t hi ht =>
    obtain ⟨task, cmd, htask, e⟩ := call_exchange hi hrange s
    exact exchange_callerBuf htask (e ▸ ht)
  | _ => rfl

/-- The instructions that write the transmit side: ENCODE, SEND and the calls. -/
def writesTransmitSide : Instr → Bool
  | .encode _ _ => true
  | .send _ => true
  | i => isCall i

/-- The instructions that write the receive side: RECEIVE and the calls. -/
def writesReceiveSide : Instr → Bool
  | .receive => true
  | i => isCall i

theorem exec_transmitSide {s t : State} {i : Instr} (h : exec i s = .next t) (hi : writesTransmitSide i = false) :
    transmitSide t = transmitSide s := by
  cases exec_answers h with
  | encode seqno payload => cases hi
  | send data => cases hi
  | received u hu => exact changesOnlyReceive_transmitSide (receiveStart_done_changes hu)
  | receiveWaits u hu => exact changesOnlyReceive_transmitSide (receiveStart_waits_changes hu _)
  | call i t hcall ht => cases i <;> simp_all [writesTransmitSide, isCall]
  | _ => rfl

theorem exec_receiveSide {s t : State} {i : Instr} (h : exec i s = .next t) (hi : writesReceiveSide i = false) :
    receiveSide t = receiveSide s := by
  cases exec_answers h with
  | encode seqno payload => simp [receiveSide]
  | send data => simp [receiveSide]
  | received u hu => cases hi
  | receiveWaits u hu => cases hi
  | call i t hcall ht => cases i <;> simp_all [writesReceiveSide, isCall]
  | _ => rfl

/-- Settles O50: the transmit side, the receive side and the caller's buffer, each with its own writers. -/
theorem buffersHaveTheirWriters : Obligations.BuffersHaveTheirWriters := by
  intro s t i h
  refine ⟨fun hi => ?_, fun hi => ?_, exec_callerBuf h⟩
  · have hw : writesTransmitSide i = false := by cases i <;> simp_all [writesTransmitSide, isCall]
    exact (transmitSide_eq_iff s t).1 (exec_transmitSide h hw)
  · have hw : writesReceiveSide i = false := by cases i <;> simp_all [writesReceiveSide, isCall]
    exact (receiveSide_eq_iff s t).1 (exec_receiveSide h hw)

end Sys2Proof.Proofs
end

section
/-! PROOFS. The invariant of the machine (spec/10_state.md R26, R29, R33; spec/43_channel.md R163; spec/60_exceptions.md
R205): it holds after reset, SEND, RECEIVE and the ends of the exchanges keep it, and so does every step. -/

namespace Sys2Proof.Proofs

open Sys2Proof Sys2Proof.Machine

/-! ### Reset -/

/-- Settles O1: the fields of the record after reset. -/
theorem resetValues : Obligations.ResetValues := ⟨rfl, rfl, rfl, rfl⟩

/-- With R36's values, nothing in RXBUF and TXBUF, Ok as the result and no RECEIVE waiting, the invariant holds. -/
theorem inv_of_resetValues {s : State} (hrxbuf : s.rxbuf = []) (htxbuf : s.txbuf = []) (htxLen : s.txLen = 0#33)
    (hcaller : s.callerBuf.wf) (hstatus : s.status = 0x00#8) (hresult : s.result = .ok) (hpending : s.pending = none) :
    Inv s where
  rxbuf_wf := hrxbuf ▸ List.Pairwise.nil
  rxbuf_within := hrxbuf ▸ List.forall_mem_nil _
  txbuf_wf := htxbuf ▸ List.Pairwise.nil
  txbuf_filled := ⟨[], htxbuf, htxLen ▸ rfl, Nat.zero_le _⟩
  callerBuf_wf := hcaller
  status_eq := by rw [hstatus, hresult, statusOf]
  status_legal := hstatus ▸ List.mem_cons_self
  errInfo_eq := by simp [codeInErrInfo, hresult]
  pending_ok := fun hwaits => absurd hpending hwaits

/-- Settles O2: the record after reset has those values. -/
theorem resetHasTheInvariant : Obligations.ResetHasTheInvariant :=
  inv_of_resetValues rfl rfl rfl List.Pairwise.nil rfl rfl rfl

/-! ### Returning a result -/

/-- The part of the invariant that a result does not bear on: the buffers, and a RECEIVE that waits. -/
structure BuffersWell (s : State) : Prop where
  rxbuf_wf : s.rxbuf.wf
  rxbuf_within : s.rxbuf.within bufCap
  txbuf_wf : s.txbuf.wf
  txbuf_filled : ∃ frame : List Byte, s.txbuf = bufferOf frame ∧ s.txLen.toNat = frame.length ∧ frame.length ≤ bufCap
  callerBuf_wf : s.callerBuf.wf
  pending_ok : s.pending ≠ none → waitingWell s

/-- It is a part of the invariant. -/
theorem buffersWell_of_inv {s : State} (h : Inv s) : BuffersWell s := { h with }

/-- Every result's code is one of R205's but that of Corrupt(Incomplete), which RECEIVE never returns (R174). -/
theorem statusOf_mem_legalStatus {x : Result} (hx : x ≠ .corrupt .incomplete) : statusOf x ∈ legalStatus := by
  cases x with
  | frameError e => cases e <;> simp [statusOf, frameErrorCode, legalStatus]
  | corrupt e =>
    cases e with
    | incomplete => exact absurd rfl hx
    | _ => simp [statusOf, frameErrorCode, legalStatus]
  | _ => simp [statusOf, legalStatus]

/-- `return X` gives STATUS its code; what is left to show is that a code X carries is in ERRINFO (R33, R205). -/
theorem inv_returnResult {x : Result} {s : State} (h : BuffersWell s) (hx : x ≠ .corrupt .incomplete)
    (hcode : codeInErrInfo (returnResult x s)) : Inv (returnResult x s) :=
  { h with
    status_eq := rfl
    status_legal := statusOf_mem_legalStatus hx
    errInfo_eq := hcode }

/-! ### What the decoder and RECEIVE find -/

/-- FDEC finds no unknown reply code (R140, R201): DECODE does, with the code. -/
theorem decodeRxbuf_ne_unknownReply {s : State} {n : Bits33} {r : Except FrameError FrameParts}
    (h : decodeRxbuf s n = some r) (c : Byte) : r ≠ .error (.unknownReply c) := by
  rintro rfl
  obtain e | e | e | e := decodeFrame_error h <;> cases e

theorem checkChain_ne_unknownReply (p : Crcp) (raw : List Byte) (c : Byte) :
    checkChain p raw ≠ .error (.unknownReply c) := by
  intro h
  obtain e | e | e | e := checkChain_error h <;> cases e

/-- DECODE's own error but for an unknown code is EmptyPayload; the others are FDEC's (R147 to R149). -/
theorem splitReply_error {p : Params} {r : Except FrameError FrameParts} {e : FrameError}
    (h : splitReply p r = .error e) : r = .error e ∨ e = .emptyPayload := by
  unfold splitReply at h
  split at h
  case h_1 => cases h; exact .inl rfl
  case h_2 =>
    split at h
    case h_1 => cases h; exact .inr rfl
    case h_2 => split at h <;> cases h

theorem splitReply_ne_unknownReply {p : Params} {r : Except FrameError FrameParts}
    (hr : ∀ c, r ≠ .error (.unknownReply c)) (c : Byte) : splitReply p r ≠ .error (.unknownReply c) := by
  intro h
  obtain e | e := splitReply_error h
  · exact hr c e
  · cases e

/-- The code of FDEC's error is carried by none (R140). -/
theorem codeInErrInfo_framed {r : Except FrameError FrameParts} (hr : ∀ c, r ≠ .error (.unknownReply c)) (s : State) :
    codeInErrInfo (returnResult (framedResult r) (defineRx (framedDefines r) s)) := by
  cases r with
  | ok f => trivial
  | error e =>
    cases e with
    | unknownReply c => exact absurd rfl (hr c)
    | _ => trivial

/-- DECODE and RECEIVE put an unknown reply code in ERRINFO (R149, R205). -/
theorem codeInErrInfo_decoded {d : Decoded} (hd : ∀ c, d ≠ .error (.unknownReply c)) (s : State) :
    codeInErrInfo (returnResult (decodeResult d) (defineRx (decodedDefines d) s)) := by
  cases d with
  | unknown f code => exact rfl
  | reply f r => trivial
  | error e =>
    cases e with
    | unknownReply c => exact absurd rfl (hd c)
    | _ => trivial

theorem codeInErrInfo_received {d : Decoded} (hd : ∀ c, d ≠ .error (.unknownReply c)) (buf : Memory) (s : State) :
    codeInErrInfo (endReceive (receiveResult s.seq d) (decodedDefines d) buf s) := by
  cases d with
  | unknown f code => exact rfl
  | reply f r =>
    simp only [receiveResult]
    split <;> trivial
  | error e =>
    cases e with
    | unknownReply c => exact absurd rfl (hd c)
    | _ => trivial

theorem framedResult_ne_corrupt (r : Except FrameError FrameParts) (e : FrameError) : framedResult r ≠ .corrupt e := by
  cases r <;> exact Result.noConfusion

theorem decodeResult_ne_corrupt (d : Decoded) (e : FrameError) : decodeResult d ≠ .corrupt e := by
  cases d <;> exact Result.noConfusion

theorem receiveResult_ne_corrupt_incomplete {d : Decoded} (hd : d ≠ .error .incomplete) (seq : Bits16) :
    receiveResult seq d ≠ .corrupt .incomplete := by
  cases d with
  | error e => exact fun h => hd (congrArg Decoded.error (Result.corrupt.inj h))
  | unknown f code => exact fun h => nomatch Result.corrupt.inj h
  | reply f r =>
    simp only [receiveResult]
    split <;> exact Result.noConfusion

/-! ### SEND -/

/-- The frame of a payload that fits is inside TXBUF, and TX_LEN is its length (R29, R83). -/
theorem buffersWell_writeTxbuf {s : State} {payload : List Byte} (h : BuffersWell s) (hfits : payload.length < 2 ^ 32)
    (seqno : Bits16) : BuffersWell (writeTxbuf (encodeFrame s.params.crcp seqno payload) s) := by
  have hlen := length_encodeFrame s.params.crcp seqno payload
  refine { h with txbuf_wf := bufferOf_wf _, txbuf_filled := ⟨_, rfl, ?_, ?_⟩ }
  · rw [writeTxbuf_txLen, BitVec.toNat_ofNat, hlen]
    omega
  · rw [hlen, bufCap]
    omega

theorem inv_sendFrame {s : State} {data : List Byte} (h : Inv s) (hfits : data.length < 2 ^ 32) :
    Inv (sendFrame data s) := by
  have hbuffers := buffersWell_writeTxbuf (buffersWell_of_inv h) hfits s.seq
  rw [sendFrame]
  refine inv_returnResult { hbuffers with } ?_ ?_ <;> cases nextWriteAnswer s
  · exact Result.noConfusion
  · exact Result.noConfusion
  · trivial
  · trivial

/-! ### RECEIVE -/

/-- RECEIVE returns with RXBUF in canonical form, and waits for nothing any more. -/
theorem inv_endReceive {x : Result} {d : RxDefines} {buf : Memory} {s : State} (h : Inv s) (hwf : buf.wf)
    (hwithin : buf.within bufCap) (hx : x ≠ .corrupt .incomplete) (hcode : codeInErrInfo (endReceive x d buf s)) :
    Inv (endReceive x d buf s) :=
  inv_returnResult
    { h with rxbuf_wf := hwf, rxbuf_within := hwithin, pending_ok := fun hwaits => absurd rfl hwaits } hx hcode

theorem inv_receiveNothing {s : State} (h : Inv s) : Inv (receiveNothing s) :=
  inv_endReceive h List.Pairwise.nil (List.forall_mem_nil _) Result.noConfusion trivial

theorem receivedBuffer_wf (frame : List Byte) (x : Result) : (receivedBuffer frame x).wf := by
  cases x with
  | received r => exact bufferOf_wf frame
  | _ => exact List.Pairwise.nil

theorem receivedBuffer_within {frame : List Byte} (h : frame.length ≤ bufCap) (x : Result) :
    (receivedBuffer frame x).within bufCap := by
  cases x with
  | received r => exact bufferOf_within h
  | _ => exact List.forall_mem_nil _

/-- The frame that the loop completes is no longer than its length field can say (R87, R166). -/
theorem completeFrame_length_le {all : List Byte} (h : frameDone all) :
    (all.take (needAfter all lenKnownAt)).length ≤ bufCap := by
  obtain ⟨len, -, e⟩ := needAfter_long h.1 lenKnownAt
  have hlen := len.isLt
  rw [List.length_take, e, bufCap]
  omega

/-- DECODE of that frame never ends Incomplete (R174), and its unknown code goes to ERRINFO. -/
theorem inv_receiveFrame {s : State} {all : List Byte} (h : Inv s) (hdone : frameDone all) :
    Inv (receiveFrame (all.take (needAfter all lenKnownAt)) s) := by
  unfold receiveFrame
  rw [decodeBytes_eq]
  have hcomplete := checkChain_ne_incomplete s.params.crcp hdone
  refine inv_endReceive h (receivedBuffer_wf _ _) (receivedBuffer_within (completeFrame_length_le hdone) _)
    (receiveResult_ne_corrupt_incomplete (fun he => ?_) s.seq)
    (codeInErrInfo_received (splitReply_ne_unknownReply (checkChain_ne_unknownReply _ _)) _ s)
  obtain e | e := splitReply_error he
  · exact hcomplete e
  · cases e

/-- While no frame is complete the bytes accumulated are in RXBUF, and RX_CNT and RX_NEED hold their counts without a
wrap (R163, D14). -/
theorem inv_waits {s : State} {acc : List Byte} (h : Inv s) (hopen : ¬ frameDone acc) (waits : Option Task) :
    Inv { s with
      readAnswers := []
      rxbuf := bufferOf acc
      rxCnt := BitVec.ofNat 33 acc.length
      rxNeed := BitVec.ofNat 33 (needAfter acc lenKnownAt)
      pending := waits } := by
  obtain ⟨hlen, hneed⟩ := not_frameDone_lt hopen
  rw [bufCap] at hlen hneed
  refine { h with
    rxbuf_wf := bufferOf_wf acc
    rxbuf_within := bufferOf_within (by rw [bufCap]; omega)
    pending_ok := fun _ => ⟨acc, rfl, ?_, ?_, hopen⟩ }
  · exact Nat.mod_eq_of_lt (by omega)
  · exact Nat.mod_eq_of_lt (by omega)

/-- A RECEIVE that has returned has left the invariant, and one that waits does, whatever it is for. -/
def PhaseWell : Phase → Prop
  | .done u => Inv u
  | .waits u => ∀ task, Inv { u with pending := some task }

/-- RECEIVE keeps the invariant, from its start or resumed. -/
theorem phaseWell_receiveFrom {s : State} {acc : List Byte} (h : Inv s) (hopen : ¬ frameDone acc) :
    PhaseWell (receiveFrom acc (needAfter acc lenKnownAt) s) := by
  obtain ⟨rest, e⟩ | ⟨all, rest, hdone, e⟩ | ⟨more, hmore, e⟩ := receiveFrom_cases acc s hopen <;> rw [e]
  · exact inv_receiveNothing { h with }
  · exact inv_receiveFrame (s := { s with readAnswers := rest }) { h with } hdone
  · exact fun task => inv_waits h hmore (some task)

theorem phaseWell_receiveStart {s : State} (h : Inv s) : PhaseWell (receiveStart s) := by
  have hphase := phaseWell_receiveFrom h not_frameDone_nil
  rwa [needAfter_nil] at hphase

/-- A RECEIVE that waits has the bytes and the estimate that the loop goes on from. -/
theorem phaseWell_receiveResume {s : State} {phase : Phase} (h : Inv s) (hwaits : s.pending ≠ none)
    (hphase : receiveResume s = some phase) : PhaseWell phase := by
  obtain ⟨acc, hopen, -, e⟩ := receiveResume_eq (h.pending_ok hwaits)
  obtain rfl := Option.some.inj (hphase.symm.trans e)
  obtain ⟨answers, draws, hdraw⟩ := drawReadAnswer_changes s
  refine phaseWell_receiveFrom ?_ hopen
  rw [hdraw]
  exact { h with }

/-! ### Instructions -/

theorem inv_advanceSeq {s : State} (h : Inv s) : Inv (advanceSeq s) :=
  inv_returnResult { h with } Result.noConfusion trivial

/-- The pieces that every exchange is made of keep the invariant. -/
theorem keeps_inv : Keeps Inv where
  send _ _ hfits h := inv_sendFrame h (fitsPayload_iff.1 hfits)
  done s u h hu := by
    have hphase := phaseWell_receiveStart h
    rwa [hu] at hphase
  waits s u task h hu := by
    have hphase := phaseWell_receiveStart h
    rw [hu] at hphase
    exact hphase task
  device _ _ h := inv_returnResult { h with } Result.noConfusion rfl
  unexpected _ _ h := inv_returnResult { h with } Result.noConfusion rfl
  ok _ h := inv_returnResult { h with } Result.noConfusion trivial
  byte _ _ h := inv_returnResult { h with } Result.noConfusion trivial
  range _ h := inv_returnResult { h with } Result.noConfusion trivial
  buf i b _ h := { h with callerBuf_wf := write_wf h.callerBuf_wf i b }

theorem exec_inv {s t : State} {i : Instr} (h : Inv s) (ht : exec i s = .next t) : Inv t := by
  cases exec_answers ht with
  | crcInit => exact inv_returnResult { h with } Result.noConfusion trivial
  | crcUpd b => exact inv_returnResult { h with } Result.noConfusion trivial
  | crcGet => exact inv_returnResult { h with } Result.noConfusion trivial
  | crcChk lo hi => exact inv_returnResult { h with } Result.noConfusion trivial
  | encode seqno payload hfits =>
    exact inv_returnResult (buffersWell_writeTxbuf (buffersWell_of_inv h) hfits seqno) Result.noConfusion trivial
  | fdec n r hr =>
    exact inv_returnResult { h with } (framedResult_ne_corrupt r _)
      (codeInErrInfo_framed (decodeRxbuf_ne_unknownReply hr) s)
  | decode n r hr =>
    exact inv_returnResult { h with } (decodeResult_ne_corrupt _ _)
      (codeInErrInfo_decoded (splitReply_ne_unknownReply (decodeRxbuf_ne_unknownReply hr)) s)
  | send data hfits => exact inv_sendFrame h hfits
  | received u hu => exact keeps_inv.done s t h hu
  | receiveWaits u hu => exact keeps_inv.waits s u .receive h hu
  | seqAdv => exact inv_advanceSeq h
  | seqRst => exact inv_returnResult { h with } Result.noConfusion trivial
  | frame seqno payload crcField => exact { h with }
  | call i t hi ht => exact keeps_inv.call hi (fun _ _ => inv_advanceSeq) h ht

/-! ### Events and steps -/

theorem inv_advance {s : State} (h : Inv s) (more : Option Event) : Inv (s.advance more) := { h with }

theorem inv_arrive {s : State} (h : Inv s) (bytes : List Byte) : Inv (arrive bytes s) := { h with }

theorem inv_readError {s : State} (h : Inv s) : Inv (readError s) := { h with }

/-- The reset of a later session empties the buffers and waits for nothing (R36, R230). -/
theorem inv_newSession {s : State} (h : Inv s) : Inv (newSession s) :=
  inv_of_resetValues rfl rfl rfl h.callerBuf_wf rfl rfl rfl

/-- The host's load stays inside RXBUF (R50); it happens while no RECEIVE waits, so none loses its bytes. -/
theorem loadRxbuf_inv {s t : State} {bytes : List Byte} (h : Inv s) (hp : s.pending = none)
    (ht : loadRxbuf bytes s = .next t) : Inv t := by
  unfold loadRxbuf at ht
  split at ht
  case isTrue hle =>
    obtain rfl := Host.Outcome.next.inj ht
    exact { h with
      rxbuf_wf := writeBytes_wf h.rxbuf_wf 0 bytes
      rxbuf_within := writeBytes_within h.rxbuf_within 0 bytes (by omega)
      pending_ok := fun hwaits => absurd hp hwaits }
  case isFalse => cases ht

/-- An event that presents no instruction: bytes that arrive, a read error, the host's load or its new session, or a
port with nothing left at it. -/
theorem stepEvent_inv_of_noInstr {s t : State} {e : Event} (h : Inv s)
    (hready : s.pending = none ∨ Event.ofLine e = true) (hdecode : decodeEvent e = none)
    (ht : stepEvent e s = .next t) : Inv t := by
  have hs := inv_advance h none
  cases e with
  | port bytes =>
    cases bytes with
    | nil => exact Host.Outcome.next.inj ht ▸ hs
    | cons op rest =>
      simp only [stepEvent, stepPort] at ht
      split at ht <;> simp_all [decodeEvent]
  | load bytes => exact loadRxbuf_inv hs (hready.resolve_right Bool.noConfusion) ht
  | call i => cases hdecode
  | newSession => exact Host.Outcome.next.inj ht ▸ inv_newSession hs
  | wire bytes =>
    simp only [stepEvent, stepWire, hdecode, Host.Outcome.next.injEq] at ht
    exact ht ▸ inv_arrive hs bytes
  | timeout => exact Host.Outcome.next.inj ht ▸ inv_readError hs

theorem stepEvent_inv {s t : State} {e : Event} (h : Inv s) (hready : s.pending = none ∨ Event.ofLine e = true)
    (ht : stepEvent e s = .next t) : Inv t := by
  cases hdecode : decodeEvent e with
  | none => exact stepEvent_inv_of_noInstr h hready hdecode ht
  | some found =>
    obtain ⟨i, more⟩ := found
    rw [stepEvent_of_decodeEvent hdecode] at ht
    exact exec_inv (inv_advance h more) ht

/-- The transport's answer to a RECEIVE that waits, and the end of what it is for. -/
theorem resume_inv {s t : State} {task : Task} (h : Inv s) (hp : s.pending = some task) (ht : resume task s = .next t) :
    Inv t := by
  unfold resume at ht
  split at ht
  case h_2 => cases ht
  case h_1 phase hphase =>
    have hwell := phaseWell_receiveResume h (by simp [hp]) hphase
    obtain ⟨u, rfl, hu⟩ | ⟨u, rfl, rfl⟩ := afterReceive_next ht
    · exact keeps_inv.endTask task (fun _ _ => inv_advanceSeq) hwell hu
    · exact hwell task

/-- Settles O4: nothing happens, the event at the head of the agenda does, or the waiting RECEIVE goes on. -/
theorem stepKeepsTheInvariant : Obligations.StepKeepsTheInvariant := by
  intro s t h ht
  obtain hnone | ⟨e, hready, -, he⟩ | ⟨task, hp, hr⟩ := step_cases s
  · exact Host.Outcome.next.inj (hnone.symm.trans ht) ▸ h
  · exact stepEvent_inv h hready (he ▸ ht)
  · exact resume_inv h hp (hr ▸ ht)

end Sys2Proof.Proofs
end

section
/-! PROOFS. The buffers of the memory family (spec/20_memory.md R50, R52, R53, R61, R62; spec/70_reset_and_hazards.md
R234): MemRead after MemWrite, the host's load of RXBUF, where the decoders stop, and the host's wait for a RECEIVE. -/

namespace Sys2Proof.Proofs

open Sys2Proof Sys2Proof.Machine

/-! ### MemRead after MemWrite -/

/-- MemWrite stores the value's bytes, lowest first, at its own offsets (R53). -/
theorem read_memWrite_inside (m : Memory) (o n v : Nat) {i : Nat} (h : i < n) :
    (memWrite m o n v).read (o + i) = (leBytes n v)[i]? := by
  have hinside : o ≤ o + i ∧ o + i < o + (leBytes n v).length := by
    rw [length_leBytes]
    omega
  rw [memWrite, read_writeBytes, if_pos hinside, Nat.add_sub_cancel_left]

theorem read_memWrite_outside (m : Memory) (o n v : Nat) {a : Nat} (h : a < o ∨ o + n ≤ a) :
    (memWrite m o n v).read a = m.read a := by
  have houtside : ¬ (o ≤ a ∧ a < o + (leBytes n v).length) := by
    rw [length_leBytes]
    omega
  rw [memWrite, read_writeBytes, if_neg houtside]

theorem memWrite_wf {m : Memory} (h : m.wf) (o n v : Nat) : (memWrite m o n v).wf := writeBytes_wf h o (leBytes n v)

theorem memRead1_memWrite (m : Memory) (o : Nat) (b : Byte) : memRead1 (memWrite m o 1 b.toNat).read o = some b := by
  have h0 := read_memWrite_inside m o 1 b.toNat (i := 0) (by omega)
  rwa [leBytes_one] at h0

theorem memRead2_memWrite (m : Memory) (o : Nat) (v : Bits16) : memRead2 (memWrite m o 2 v.toNat).read o = some v := by
  have hread : ∀ i < 2, (memWrite m o 2 v.toNat).read (o + i) = (bytesLe16 v)[i]? := fun i hi => by
    rw [read_memWrite_inside m o 2 v.toNat hi, leBytes_two]
  exact (memRead2_of_some (hread 0 (by omega)) (hread 1 (by omega))).trans (congrArg some (word16_bytesLe16 v))

theorem memRead4_memWrite (m : Memory) (o : Nat) (w : Bits32) : memRead4 (memWrite m o 4 w.toNat).read o = some w := by
  have hread : ∀ i < 4, (memWrite m o 4 w.toNat).read (o + i) = (bytesLe32 w)[i]? := fun i hi => by
    rw [read_memWrite_inside m o 4 w.toNat hi, leBytes_four]
  have hword := memRead4_of_some (hread 0 (by omega)) (hread 1 (by omega)) (hread 2 (by omega)) (hread 3 (by omega))
  exact hword.trans (congrArg some (word32_bytesLe32 w))

/-- Settles O17: the reads by width; the other bytes and the canonical form for any width. -/
theorem memReadAfterMemWrite : Obligations.MemReadAfterMemWrite := fun m o v w b hwf =>
  ⟨memRead1_memWrite m o b, memRead2_memWrite m o v, memRead4_memWrite m o w,
    fun _ => read_memWrite_outside m o 1 b.toNat, fun _ => read_memWrite_outside m o 2 v.toNat,
    fun _ => read_memWrite_outside m o 4 w.toNat,
    memWrite_wf hwf o 1 b.toNat, memWrite_wf hwf o 2 v.toNat, memWrite_wf hwf o 4 w.toNat⟩

/-! ### The host's load -/

/-- A load that fits writes RXBUF and nothing else (R50, R234). -/
theorem loadRxbuf_of_fits {bytes : List Byte} (h : bytes.length ≤ bufCap) (s : State) :
    loadRxbuf bytes s = .next { s with rxbuf := s.rxbuf.writeBytes 0 bytes } := if_pos h

/-- While no RECEIVE waits, the step of a load is the load, on the rest of the agenda. -/
theorem step_load {s : State} {raw : List Byte} {later : List Event} (ha : s.agenda = .load raw :: later)
    (hp : s.pending = none) (hfits : raw.length ≤ bufCap) :
    step s = .next { s with agenda := later, rxbuf := s.rxbuf.writeBytes 0 raw } := by
  have hrest : s.advance none = { s with agenda := later } := by rw [State.advance, ha]; rfl
  calc step s = stepEvent (.load raw) s := step_of_agenda ha (.inl hp)
    _ = loadRxbuf raw { s with agenda := later } := by rw [stepEvent, hrest]
    _ = _ := loadRxbuf_of_fits hfits _

/-- Settles O12: a load is a write from offset 0, which reads back at its own offsets and changes no other. -/
theorem loadedBytesAreInRxbuf : Obligations.LoadedBytesAreInRxbuf := by
  intro s raw later ha hp hfits
  refine ⟨_, step_load ha hp hfits, rfl, fun i hi => ?_, fun o ho => ?_⟩
  · simp [read_writeBytes, hi]
  · simp [read_writeBytes, ho]

/-! ### Where the decoders stop -/

/-- FDEC and DECODE read RXBUF alike: where the reading has a byte missing both stop, else both answer (R147). -/
theorem decoders_stop_or_answer (s : State) (n : Bits33) :
    (decodeRxbuf s n = none ∧ exec (.fdec n) s = .fault .unwrittenByte ∧ exec (.decode n) s = .fault .unwrittenByte) ∨
      ((∃ t, exec (.fdec n) s = .next t) ∧ ∃ t, exec (.decode n) s = .next t) := by
  cases hr : decodeRxbuf s n with
  | none => exact .inl ⟨rfl, by rw [exec, execFdec, hr], by rw [exec, execDecode, hr]⟩
  | some r => exact .inr ⟨⟨_, by rw [exec, execFdec, hr]⟩, ⟨_, by rw [exec, execDecode, hr]⟩⟩

/-- Settles O33: the byte missing from the reading is one of RXBUF[0:n). -/
theorem decodersStopOnlyOnUnwrittenBytes : Obligations.DecodersStopOnlyOnUnwrittenBytes := by
  intro s n
  obtain ⟨hr, hfdec, hdecode⟩ | hanswer := decoders_stop_or_answer s n
  · exact .inr ⟨hfdec, hdecode, decodeFrame_eq_none hr⟩
  · exact .inl hanswer

/-! ### The host's wait -/

/-- A resumed RECEIVE, and the end of what it is for, change no register of the CRC unit, no parameter and nothing of the
agenda, the host's SEQ.ADV between a range's bytes included. -/
theorem resume_crcUnit {s t : State} {task : Task} (h : resume task s = .next t) : crcUnit t = crcUnit s := by
  unfold resume at h
  split at h
  case h_2 => cases h
  case h_1 phase hphase =>
    have hunit : crcUnit (phaseState phase) = crcUnit s := changesOnlyReceive_crcUnit (receiveResume_changes hphase)
    obtain ⟨u, rfl, hu⟩ | ⟨u, rfl, rfl⟩ := afterReceive_next h
    · exact (keeps_crcUnit (crcUnit s)).endTask task (fun _ _ hs => hs) hunit hu
    · exact hunit

/-- While a RECEIVE waits and the host's event is next, the step is the transport's answer (R61, R62). -/
theorem step_of_hostWaits {s : State} {e : Event} {later : List Event} {task : Task} (ha : s.agenda = e :: later)
    (hl : Event.ofLine e = false) (hp : s.pending = some task) : step s = resume task s := by
  simp [step, stepNext, ha, hp, hl]

/-- Settles O8: the step is the waiting RECEIVE's, which leaves the whole of `crcUnit`. -/
theorem hostWaitsForReceive : Obligations.HostWaitsForReceive := by
  intro s t e later task ha hl hp h
  rw [step_of_hostWaits ha hl hp] at h
  obtain ⟨hcrc, hvalid, hmatch, hparams, hagenda⟩ := (crcUnit_eq_iff s t).1 (resume_crcUnit h)
  exact ⟨hagenda, hparams, hcrc, hvalid, hmatch⟩

end Sys2Proof.Proofs
end

section
/-! PROOFS. The encodings (spec/30_encoding.md R80, R87, R89, R92 to R94, R96): what the encoder presents at the port,
on the line or by name is decoded to the instruction it came from, whatever follows it; a reserved OP is refused; a
frame's header is one match/mask pair over its 64-bit word. -/

namespace Sys2Proof.Proofs

open Sys2Proof Sys2Proof.Machine

/-! ### The operation port -/

/-- Whatever the encoder presents at the port, the decoder takes exactly it and leaves the bytes after it (R92). -/
theorem decodePort_of_encode {i : Instr} {bytes : List Byte} (he : encode i = .port bytes) (hwf : i.wf = true)
    (rest : List Byte) : decodePort (bytes ++ rest) = .ok (i, rest) := by
  cases i
  case crcInit | crcUpd | crcGet | crcChk | receive | seqAdv | seqRst => cases he; rfl
  case encode seqno payload =>
    cases he
    have htake := takeBytes_encodeBytes payload rest (fitsPayload_iff.1 hwf)
    simp [decodePort, decodeOp, takeEncode, bytesLe16, htake]
  case fdec n | decode n =>
    cases he
    simp [decodePort, decodeOp, takeCount, takeBits33_bytesLe33]
  case send data =>
    cases he
    have htake := takeBytes_encodeBytes data rest (fitsPayload_iff.1 hwf)
    simp [decodePort, decodeOp, takeSend, htake]
  -- a frame and a call are not presented at the port
  all_goals cases he

/-- Settles O15: R92's operations are what the encoder presents at the port, the bytes after them left. -/
theorem portOperandsFollowTheOp : Obligations.PortOperandsFollowTheOp := by
  intro rest
  refine ⟨rfl, rfl, rfl, rfl, rfl, fun _ => rfl, fun _ _ => rfl, fun seqno payload hlen => ?_,
    fun n => decodePort_of_encode (i := .fdec n) rfl rfl rest,
    fun n => decodePort_of_encode (i := .decode n) rfl rfl rest, fun data hlen => ?_⟩
  · have hport := decodePort_of_encode (i := .encode seqno payload) rfl (fitsPayload_iff.2 hlen) rest
    simpa only [encodeBytes, List.append_assoc] using hport
  · exact decodePort_of_encode (i := .send data) rfl (fitsPayload_iff.2 hlen) rest

/-- The OP values that R92's table lists. -/
def listedOps : List Byte :=
  [0x01#8, 0x02#8, 0x03#8, 0x04#8, 0x08#8, 0x09#8, 0x0A#8, 0x10#8, 0x11#8, 0x12#8, 0x13#8]

/-- An OP byte that the table does not list selects no operation (R94). -/
theorem decodeOp_reserved {op : Byte} (h : op ∉ listedOps) (rest : List Byte) :
    decodeOp op rest = .error (.reservedOp op) := by
  have hop (n : Nat) (hn : op.toNat = n) : op = BitVec.ofNat 8 n := by
    rw [← hn, BitVec.ofNat_toNat, BitVec.setWidth_eq]
  unfold decodeOp
  split
  case h_12 => rfl
  all_goals
    rename_i hn
    obtain rfl := hop _ hn
    exact absurd (by decide) h

/-- Settles O10: with no RECEIVE waiting the step is the port's, where the OP selects nothing. -/
theorem reservedOpIsRefused : Obligations.ReservedOpIsRefused := by
  intro s op rest later hop ha hp
  have hdecode : decodePort (op :: rest) = .error (.reservedOp op) := decodeOp_reserved hop rest
  calc step s = stepPort (op :: rest) s := step_of_agenda ha (.inl hp)
    _ = _ := by rw [stepPort, hdecode]

/-! ### The wire -/

/-- A header that is not well formed begins no frame (R89). -/
theorem decodeWire_of_badHeader {b0 b7 : Byte} (h : ¬ (b0 = startByte ∧ b7 = tokenByte))
    (b1 b2 b3 b4 b5 b6 : Byte) (rest : List Byte) :
    decodeWire (b0 :: b1 :: b2 :: b3 :: b4 :: b5 :: b6 :: b7 :: rest) = none := if_neg h

/-- Behind a well formed header, the payload is as long as the length field says and the CRC field follows it (R87). -/
theorem decodeWire_of_header (s0 s1 l0 l1 l2 l3 c0 c1 : Byte) {payload : List Byte} (more : List Byte)
    (hlen : payload.length = (word32 l0 l1 l2 l3).toNat) :
    decodeWire (startByte :: s0 :: s1 :: l0 :: l1 :: l2 :: l3 :: tokenByte :: (payload ++ c0 :: c1 :: more)) =
      some (.frame (word16 s0 s1) payload (word16 c0 c1), more) := by
  simp only [decodeWire, ← hlen, and_self, if_true, List.drop_left, List.take_left]

/-- A frame on the line is decoded whatever follows it (R80). -/
theorem decodeWire_frameBytes (seqno crcField : Bits16) {payload : List Byte} (hlen : payload.length < 2 ^ 32)
    (more : List Byte) :
    decodeWire (frameBytes seqno payload crcField ++ more) = some (.frame seqno payload crcField, more) := by
  have hword : payload.length = (BitVec.ofNat 32 payload.length).toNat := (toNat_ofNat_length hlen).symm
  rw [← word32_bytesLe32 (BitVec.ofNat 32 payload.length)] at hword
  have hwire := decodeWire_of_header (seqno.extractLsb' 0 8) (seqno.extractLsb' 8 8) _ _ _ _
    (crcField.extractLsb' 0 8) (crcField.extractLsb' 8 8) more hword
  rw [word16_bytesLe16, word16_bytesLe16] at hwire
  simpa [frameBytes_cons, bytesLe16] using hwire

/-! ### Events -/

/-- What the port's first operation leaves is the port's again, if it leaves anything. -/
theorem decodeEvent_of_decodePort {bytes more : List Byte} {i : Instr} (h : decodePort bytes = .ok (i, more)) :
    decodeEvent (.port bytes) = some (i, if more = [] then none else some (.port more)) := by
  cases more <;> simp [decodeEvent, h]

theorem decodeEvent_of_decodeWire {bytes more : List Byte} {i : Instr} (h : decodeWire bytes = some (i, more)) :
    decodeEvent (.wire bytes) = some (i, if more = [] then none else some (.wire more)) := by
  cases more <;> simp [decodeEvent, h]

/-- The three ways to present an instruction: at the port, as a frame on the line, by name (R92, R80, R96). -/
theorem encode_cases (i : Instr) :
    (∃ bytes, encode i = .port bytes) ∨ (∃ seqno payload crcField, i = .frame seqno payload crcField) ∨
      encode i = .call i := by
  cases i
  case frame seqno payload crcField => exact .inr (.inl ⟨_, _, _, rfl⟩)
  case signOn | readRamByte | writeRamByte | setParam | getParam | enterProgMode | devReset | setDeviceDescriptor
      | readRange => exact .inr (.inr rfl)
  all_goals exact .inl ⟨_, rfl⟩

/-- Settles O13: by the way the instruction is presented, with nothing behind it. -/
theorem decodeOfEncodeIsTheInstruction : Obligations.DecodeOfEncodeIsTheInstruction := by
  intro i hwf
  obtain ⟨bytes, he⟩ | ⟨seqno, payload, crcField, rfl⟩ | he := encode_cases i
  · have hport := decodePort_of_encode he hwf []
    rw [List.append_nil] at hport
    rw [he, decodeEvent_of_decodePort hport, if_pos rfl]
  · have hwire := decodeWire_frameBytes seqno crcField (fitsPayload_iff.1 hwf) []
    rw [List.append_nil] at hwire
    rw [encode, decodeEvent_of_decodeWire hwire, if_pos rfl]
  · rw [he, decodeEvent]

/-! ### Words of the opcode table -/

/-- A word that stands at the port as the encoder presents an instruction, bytes after it, is that instruction. -/
theorem decodeTableWord_of_port {nbits w : Nat} {i : Instr} {bytes : List Byte} (rest : List Byte)
    (he : encode i = .port bytes) (hwf : i.wf = true) (hw : tableEvent nbits w = .port (bytes ++ rest)) :
    decodeTableWord nbits w = some i := by
  rw [decodeTableWord, hw, decodeEvent_of_decodePort (decodePort_of_encode he hwf rest), Option.map_some]

/-- So is a header word that, with the zeros above it, is a frame. -/
theorem decodeTableWord_of_wire {nbits w : Nat} {seqno crcField : Bits16} {payload : List Byte}
    (hlen : payload.length < 2 ^ 32) (hw : tableEvent nbits w = .wire (frameBytes seqno payload crcField)) :
    decodeTableWord nbits w = some (.frame seqno payload crcField) := by
  have hwire := decodeWire_frameBytes seqno crcField hlen []
  rw [List.append_nil] at hwire
  rw [decodeTableWord, hw, decodeEvent_of_decodeWire hwire, Option.map_some]

/-- A table word whose first byte is a reserved OP is no instruction (R94). -/
theorem decodeTableWord_of_reserved {nbits w : Nat} {op : Byte} {rest : List Byte} (h : op ∉ listedOps)
    (hw : tableEvent nbits w = .port (op :: rest)) : decodeTableWord nbits w = none := by
  rw [decodeTableWord, hw, decodeEvent, decodePort, decodeOp_reserved h, Option.map_none]

/-- Settles O14: each word with zeros above it begins with what the encoder presents for operands of zero, and the zeros
that the operands do not take are left; a header word of length 0 is a whole frame. -/
theorem tableWordsDecode : Obligations.TableWordsDecode :=
  ⟨decodeTableWord_of_port (List.replicate 8 0#8) rfl rfl rfl,
    decodeTableWord_of_port (List.replicate 8 0#8) rfl rfl rfl,
    decodeTableWord_of_port (List.replicate 1 0#8) rfl rfl rfl,
    decodeTableWord_of_port (List.replicate 3 0#8) rfl rfl rfl,
    decodeTableWord_of_port (List.replicate 8 0#8) rfl rfl rfl,
    decodeTableWord_of_port (List.replicate 8 0#8) rfl rfl rfl,
    decodeTableWord_of_reserved (by decide) rfl,
    decodeTableWord_of_wire (by decide) rfl⟩

/-! ### The header as one 64-bit word -/

/-- A field that begins above the low byte is a field of what stands above it. -/
theorem extractLsb'_above_byte {w : Nat} (x : BitVec w) (b : Byte) (start len : Nat) :
    (x ++ b).extractLsb' (start + 8) len = x.extractLsb' start len := by
  rw [BitVec.extractLsb'_append_eq_of_le (Nat.le_add_left 8 start), Nat.add_sub_cancel]

/-- A field that begins with the low byte is that byte below the rest of the field. -/
theorem extractLsb'_from_byte {w : Nat} (x : BitVec w) (b : Byte) (len : Nat) :
    (x ++ b).extractLsb' 0 (len + 8) = x.extractLsb' 0 len ++ b := by
  ext i hi
  simp only [BitVec.getElem_extractLsb', BitVec.getLsbD_append, BitVec.getElem_append, Nat.zero_add]
  split
  case isTrue hlow => exact BitVec.getLsbD_eq_getElem hlow
  case isFalse => rfl

/-- H: a frame's eight header bytes as one little-endian word (R89). -/
def headerWord (b0 b1 b2 b3 b4 b5 b6 b7 : Byte) : BitVec 64 := b7 ++ b6 ++ b5 ++ b4 ++ b3 ++ b2 ++ b1 ++ b0

section Header

variable (b0 b1 b2 b3 b4 b5 b6 b7 : Byte)

theorem headerWord_start : (headerWord b0 b1 b2 b3 b4 b5 b6 b7).extractLsb' 0 8 = b0 :=
  BitVec.extractLsb'_append_eq_right

theorem headerWord_token : (headerWord b0 b1 b2 b3 b4 b5 b6 b7).extractLsb' 56 8 = b7 := by
  rw [headerWord, extractLsb'_above_byte _ _ 48, extractLsb'_above_byte _ _ 40, extractLsb'_above_byte _ _ 32,
    extractLsb'_above_byte _ _ 24, extractLsb'_above_byte _ _ 16, extractLsb'_above_byte _ _ 8,
    BitVec.extractLsb'_append_eq_left]

theorem headerWord_seqno : (headerWord b0 b1 b2 b3 b4 b5 b6 b7).extractLsb' 8 16 = word16 b1 b2 := by
  rw [headerWord, extractLsb'_above_byte _ _ 0, extractLsb'_from_byte _ _ 8, BitVec.extractLsb'_append_eq_right, word16]

theorem headerWord_len : (headerWord b0 b1 b2 b3 b4 b5 b6 b7).extractLsb' 24 32 = word32 b3 b4 b5 b6 := by
  rw [headerWord, extractLsb'_above_byte _ _ 16, extractLsb'_above_byte _ _ 8, extractLsb'_above_byte _ _ 0,
    extractLsb'_from_byte _ _ 24, extractLsb'_from_byte _ _ 16, extractLsb'_from_byte _ _ 8,
    BitVec.extractLsb'_append_eq_right, word32]

/-- R89's mask keeps bytes 0 and 7 and clears the six between them. -/
theorem headerWord_and_mask :
    headerWord b0 b1 b2 b3 b4 b5 b6 b7 &&& 0xFF000000000000FF#64 = headerWord b0 0#8 0#8 0#8 0#8 0#8 0#8 b7 := by
  have hmask : 0xFF000000000000FF#64 = headerWord 0xFF#8 0#8 0#8 0#8 0#8 0#8 0#8 0xFF#8 := by decide
  have hones (b : Byte) : b &&& 0xFF#8 = b := BitVec.and_allOnes
  rw [hmask, headerWord, headerWord, headerWord]
  iterate 7 rw [BitVec.and_append]
  simp only [hones, BitVec.and_zero]

/-- R89's match is the start byte and the token byte. -/
theorem headerWord_match_iff :
    headerWord b0 b1 b2 b3 b4 b5 b6 b7 &&& 0xFF000000000000FF#64 = 0x0E0000000000001B#64 ↔
      b0 = startByte ∧ b7 = tokenByte := by
  have hmatch : 0x0E0000000000001B#64 = headerWord startByte 0#8 0#8 0#8 0#8 0#8 0#8 tokenByte := by decide
  rw [headerWord_and_mask, hmatch]
  constructor
  · intro h
    have hstart := congrArg (BitVec.extractLsb' 0 8) h
    have htoken := congrArg (BitVec.extractLsb' 56 8) h
    rw [headerWord_start, headerWord_start] at hstart
    rw [headerWord_token, headerWord_token] at htoken
    exact ⟨hstart, htoken⟩
  · rintro ⟨rfl, rfl⟩
    rfl

end Header

/-- Settles O16: the match/mask pair is the decoder's test of the header, and the fields are its operands. -/
theorem frameHeaderIsOneMatchMaskPair : Obligations.FrameHeaderIsOneMatchMaskPair := by
  intro b0 b1 b2 b3 b4 b5 b6 b7 h
  have hmatch := headerWord_match_iff b0 b1 b2 b3 b4 b5 b6 b7
  have hseqno : h.extractLsb' 8 16 = word16 b1 b2 := headerWord_seqno b0 b1 b2 b3 b4 b5 b6 b7
  have hlen : h.extractLsb' 24 32 = word32 b3 b4 b5 b6 := headerWord_len b0 b1 b2 b3 b4 b5 b6 b7
  refine ⟨hmatch, hseqno, hlen, fun rest => ⟨fun hbad => ?_, fun payload c0 c1 more hgood hrest hpayload => ?_⟩⟩
  · exact decodeWire_of_badHeader (mt hmatch.2 hbad) b1 b2 b3 b4 b5 b6 rest
  · obtain ⟨rfl, rfl⟩ := hmatch.1 hgood
    rw [hrest, hseqno]
    exact decodeWire_of_header b1 b2 b3 b4 b5 b6 c0 c1 more (hlen ▸ hpayload)

end Sys2Proof.Proofs
end

section
/-! PROOFS. The CRC algorithm (spec/40_crc.md R110, R111, R116, R120, R121): reflection reverses the bits; the step is
affine and, where CRC_POLY has its bit 0, a bijection; one flipped bit is seen; the shift-right form is the reflected
image of the shift-left one. -/

namespace Sys2Proof.Proofs

open Sys2Proof Sys2Proof.Machine

/-! ### Reflection -/

theorem getLsbD_reverse_of_lt {w i : Nat} (x : BitVec w) (h : i < w) :
    x.reverse.getLsbD i = x.getLsbD (w - 1 - i) := by
  rw [BitVec.getLsbD_reverse, BitVec.getMsbD, decide_eq_true h, Bool.true_and]

theorem reverse_xor {w : Nat} (x y : BitVec w) : (x ^^^ y).reverse = x.reverse ^^^ y.reverse := by
  apply BitVec.eq_of_getLsbD_eq
  intro i hi
  simp only [BitVec.getLsbD_xor, getLsbD_reverse_of_lt _ hi]

theorem reverse_bit {w k : Nat} (h : k < w) : (1#w <<< k).reverse = 1#w <<< (w - 1 - k) := by
  apply BitVec.eq_of_getLsbD_eq
  intro i hi
  have hpos : k = w - 1 - i ↔ w - 1 - k = i := by omega
  rw [getLsbD_reverse_of_lt _ hi, ← BitVec.twoPow_eq, ← BitVec.twoPow_eq, BitVec.getLsbD_twoPow,
    BitVec.getLsbD_twoPow, decide_eq_true h, decide_eq_true (show w - 1 - k < w by omega), decide_eq_decide.2 hpos]

/-- Settles O19: both reflections are the reversal of their width. -/
theorem reflectReversesBits : Obligations.ReflectReversesBits :=
  ⟨fun b _ hi => getLsbD_reverse_of_lt b hi, fun v _ hi => getLsbD_reverse_of_lt v hi,
    by decide, by decide, by decide, by decide⟩

/-! ### The step as an affine map (R120 (b)) -/

/-- The part of the step that depends on the accumulator alone is eight shifts of it. -/
theorem crcStep_xor_crcStep_zero (p : Crcp) (c : Bits16) (b : Byte) :
    crcStep p c b ^^^ crcStep p 0#16 b = crcShifts p 8 c := by
  rw [crcStep_xor, BitVec.xor_zero]

/-- Bit 0 of a shifted accumulator is CRC_POLY's, if the bit shifted out is set. -/
theorem crcShift_getLsbD_zero (p : Crcp) (c : Bits16) :
    (crcShift p c).getLsbD 0 = (c.getLsbD 15 && p.poly.getLsbD 0) := by
  unfold crcShift
  cases c.getLsbD 15 <;> simp

/-- With CRC_POLY's bit 0 set no bit is lost: the bit shifted out is seen in bit 0. -/
theorem crcShift_eq_zero {p : Crcp} (hpoly : p.poly.getLsbD 0 = true) {c : Bits16} (h : crcShift p c = 0#16) :
    c = 0#16 := by
  have htop : false = c.getLsbD 15 := by
    have h0 := crcShift_getLsbD_zero p c
    rwa [h, hpoly, Bool.and_true] at h0
  have hrest : c <<< 1 = 0#16 := by rwa [crcShift, ← htop] at h
  apply BitVec.eq_of_getLsbD_eq
  intro i hi
  obtain rfl | hi15 : i = 15 ∨ i + 1 < 16 := by omega
  · exact htop.symm
  · have hbit : (c <<< 1).getLsbD (i + 1) = false := by rw [hrest, BitVec.getLsbD_zero]
    rw [BitVec.getLsbD_zero, ← hbit, BitVec.getLsbD_shiftLeft]
    simp [hi15]

theorem crcShifts_eq_zero {p : Crcp} (hpoly : p.poly.getLsbD 0 = true) {k : Nat} {c : Bits16}
    (h : crcShifts p k c = 0#16) : c = 0#16 := by
  induction k generalizing c with
  | zero => exact h
  | succ k ih => exact crcShift_eq_zero hpoly (ih h)

theorem crcStep_injective {p : Crcp} (hpoly : p.poly.getLsbD 0 = true) (b : Byte) :
    Function.Injective (fun c => crcStep p c b) := by
  intro c d (h : crcStep p c b = crcStep p d b)
  have hzero : crcShifts p 8 (c ^^^ d) = 0#16 := by rw [← crcStep_xor p c d b, h, BitVec.xor_self]
  exact BitVec.xor_eq_zero_iff.1 (crcShifts_eq_zero hpoly hzero)

/-- With CRC_POLY's bit 0 clear the last of the eight shifts leaves bit 0 clear. -/
theorem crcStep_getLsbD_zero {p : Crcp} (hpoly : p.poly.getLsbD 0 = false) (c : Bits16) (b : Byte) :
    (crcStep p c b).getLsbD 0 = false := by
  rw [crcStep, crcShifts_add p 7 1, crcShifts, crcShifts, crcShift_getLsbD_zero, hpoly, Bool.and_false]

theorem crcStep_bijective_iff (p : Crcp) (b : Byte) :
    Function.Bijective (fun c => crcStep p c b) ↔ p.poly.getLsbD 0 = true := by
  constructor
  · rintro ⟨-, hsurj⟩
    obtain ⟨c, hc : crcStep p c b = 1#16⟩ := hsurj 1#16
    by_contra hpoly
    have h0 := crcStep_getLsbD_zero (Bool.not_eq_true _ ▸ hpoly) c b
    rw [hc] at h0
    cases h0
  · exact fun hpoly => Finite.injective_iff_bijective.1 (crcStep_injective hpoly b)

/-- Settles O25: the step's linear part is eight shifts, each linear, and each without a kernel exactly when CRC_POLY's
bit 0 is set. -/
theorem crcStepIsAffine : Obligations.CrcStepIsAffine := by
  intro p _
  refine ⟨fun b c d => ?_, crcStep_bijective_iff p⟩
  simp only [crcStep_xor_crcStep_zero, crcShifts_xor]

/-! ### One flipped bit (R120 (c)) -/

theorem crcInput_xor (p : Crcp) (b d : Byte) : crcInput p (b ^^^ d) = crcInput p b ^^^ crcInput p d := by
  unfold crcInput reflect8
  split
  · exact reverse_xor b d
  · rfl

/-- A single bit of a byte enters the accumulator as a single bit. -/
theorem crcInput_bit (p : Crcp) {k : Nat} (hk : k < 8) :
    ∃ i < 16, crcInput p (1#8 <<< k) ++ 0#8 = (1#16 <<< i : Bits16) := by
  have hbyte : ∃ i < 8, crcInput p (1#8 <<< k) = 1#8 <<< i := by
    unfold crcInput reflect8
    split
    · exact ⟨7 - k, by omega, reverse_bit hk⟩
    · exact ⟨k, hk, rfl⟩
  have hwide : ∀ i < 8, (1#8 <<< i : Byte) ++ 0#8 = (1#16 <<< (8 + i) : Bits16) := by decide
  obtain ⟨i, hi, heq⟩ := hbyte
  exact ⟨8 + i, by omega, heq ▸ hwide i hi⟩

/-- One accumulator that takes two bytes: the bytes' difference is shifted eight times. -/
theorem crcStep_xor_byte (p : Crcp) (c : Bits16) (b d : Byte) :
    crcStep p c (b ^^^ d) ^^^ crcStep p c b = crcShifts p 8 (crcInput p d ++ 0#8) := by
  have hsplit : crcInput p (b ^^^ d) ++ 0#8 = (crcInput p b ++ 0#8) ^^^ (crcInput p d ++ 0#8) := by
    rw [crcInput_xor, BitVec.xor_append, BitVec.xor_self]
  rw [crcStep, crcStep, ← crcShifts_xor, hsplit]
  congr 1
  ac_nf
  simp

/-- A flipped bit is shifted eight times for its own byte and for each byte after it, and never vanishes. -/
theorem crc16_flip_ne {p : Crcp} (hp : p.poly ≠ 0#16) (a z : List Byte) (b : Byte) {k : Nat} (hk : k < 8) :
    crc16 p (a ++ (b ^^^ (1#8 <<< k)) :: z) ≠ crc16 p (a ++ b :: z) := by
  intro h
  have hfold := crcFinal_injective p h
  simp only [crcFold_append, crcFold_cons] at hfold
  have hzero := BitVec.xor_eq_zero_iff.2 hfold
  obtain ⟨i, hi, hbit⟩ := crcInput_bit p hk
  rw [crcFold_xor, crcStep_xor_byte, ← crcShifts_add, hbit] at hzero
  exact crcShifts_bit_ne_zero p hp _ i hi hzero

/-- The same, the byte of a sequence at an index written anew. -/
theorem crc16_set_flip_ne {p : Crcp} (hp : p.poly ≠ 0#16) {body : List Byte} {j k : Nat} (hj : j < body.length)
    (hk : k < 8) : crc16 p (body.set j (body[j] ^^^ (1#8 <<< k))) ≠ crc16 p body := by
  have hsplit : body.take j ++ body[j] :: body.drop (j + 1) = body := by
    rw [List.getElem_cons_drop, List.take_append_drop]
  have hflip := crc16_flip_ne hp (body.take j) (body.drop (j + 1)) body[j] hk
  rw [List.set_eq_take_append_cons_drop, if_pos hj]
  rwa [hsplit] at hflip

theorem bit_ne_zero {k : Nat} (hk : k < 8) : 1#8 <<< k ≠ 0#8 := by
  revert k
  decide

theorem flip_ne (b : Byte) {k : Nat} (hk : k < 8) : b ^^^ (1#8 <<< k) ≠ b := fun h =>
  bit_ne_zero hk (by simpa using congrArg (b ^^^ ·) h)

theorem word16_inj {lo hi lo' hi' : Byte} : word16 lo hi = word16 lo' hi' ↔ lo = lo' ∧ hi = hi' := by
  constructor
  · intro h
    have hbytes := congrArg bytesLe16 h
    rw [bytesLe16_word16, bytesLe16_word16] at hbytes
    simpa using hbytes
  · rintro ⟨rfl, rfl⟩
    rfl

/-- The verifier's comparison on a sequence that ends with its two CRC bytes (R118). -/
theorem verifies_append_iff (p : Crcp) (body : List Byte) (lo hi : Byte) (n : Nat) (hn : body.length = n) :
    crc16 p ((body ++ [lo, hi]).take n) =
        (body ++ [lo, hi]).getD (n + 1) 0#8 ++ (body ++ [lo, hi]).getD n 0#8 ↔
      crc16 p body = word16 lo hi := by
  subst hn
  simp [word16]

/-- Settles O26: a flip in the body changes the computed CRC, a flip in a CRC byte the one it is compared with. -/
theorem oneBitChangesTheCrc : Obligations.OneBitChangesTheCrc := by
  intro p hp
  refine ⟨fun a z b k hk => crc16_flip_ne hp a z b hk, fun body j k hj hk => ?_⟩
  intro f g
  obtain ⟨lo, hi, hcrc⟩ : ∃ lo hi, crc16 p body = word16 lo hi := ⟨_, _, (word16_bytesLe16 _).symm⟩
  have hf : f = body ++ [lo, hi] := by rw [← bytesLe16_word16, ← hcrc]
  clear_value f
  subst hf
  obtain hbody | rfl | rfl : j < body.length ∨ j = body.length ∨ j = body.length + 1 := by omega
  · have hg : g = body.set j (body[j] ^^^ (1#8 <<< k)) ++ [lo, hi] := by
      simp [g, List.set_append_left _ _ hbody, List.getElem?_append_left hbody, hbody]
    rw [hg, Ne, verifies_append_iff _ _ _ _ _ List.length_set, ← hcrc]
    exact crc16_set_flip_ne hp hbody hk
  · have hg : g = body ++ [lo ^^^ (1#8 <<< k), hi] := by simp [g]
    rw [hg, Ne, verifies_append_iff _ _ _ _ _ rfl, hcrc, word16_inj]
    exact fun h => flip_ne lo hk h.1.symm
  · have hg : g = body ++ [lo, hi ^^^ (1#8 <<< k)] := by simp [g]
    rw [hg, Ne, verifies_append_iff _ _ _ _ _ rfl, hcrc, word16_inj]
    exact fun h => flip_ne hi hk h.2.symm

/-! ### The least-significant-bit-first form (R121) -/

theorem reflect16_shiftLeft (c : Bits16) : reflect16 (c <<< 1) = reflect16 c >>> 1 := by
  apply BitVec.eq_of_getLsbD_eq
  intro i hi
  rw [reflect16, reflect16, getLsbD_reverse_of_lt _ hi, BitVec.getLsbD_ushiftRight, BitVec.getLsbD_shiftLeft]
  obtain rfl | hi15 : i = 15 ∨ 1 + i < 16 := by omega
  · simp
  · rw [getLsbD_reverse_of_lt _ hi15]
    simp [show 15 - i < 16 by omega, show ¬ 15 - i < 1 by omega, show 15 - i - 1 = 15 - (1 + i) by omega]

/-- The shift-right form's shift is the reflected image of the shift. -/
theorem reflect16_crcShift (p : Crcp) (c : Bits16) : reflect16 (crcShift p c) = lsbShift p (reflect16 c) := by
  have htop : (reflect16 c).getLsbD 0 = c.getLsbD 15 := getLsbD_reverse_of_lt c (by decide)
  unfold crcShift lsbShift
  rw [htop, ← reflect16_shiftLeft]
  split
  · exact reverse_xor _ _
  · rfl

theorem reflect16_crcShifts (p : Crcp) (k : Nat) (c : Bits16) :
    reflect16 (crcShifts p k c) = lsbShifts p k (reflect16 c) := by
  induction k generalizing c with
  | zero => rfl
  | succ k ih => rw [crcShifts, lsbShifts, ih, reflect16_crcShift]

/-- A reflected byte in the high half is, reflected again, the byte in the low half. -/
theorem reflect16_reflect8 (b : Byte) : reflect16 (reflect8 b ++ 0#8) = b.zeroExtend 16 := by
  apply BitVec.eq_of_getLsbD_eq
  intro i hi
  rw [reflect16, getLsbD_reverse_of_lt _ hi, BitVec.getLsbD_append]
  by_cases hi8 : i < 8
  · rw [if_neg (by omega), reflect8, getLsbD_reverse_of_lt _ (by omega),
      show 8 - 1 - (16 - 1 - i - 8) = i by omega, BitVec.getLsbD_setWidth, decide_eq_true hi, Bool.true_and]
  · rw [if_pos (by omega), BitVec.getLsbD_zero, BitVec.getLsbD_setWidth, BitVec.getLsbD_of_ge _ _ (by omega),
      Bool.and_false]

theorem reflect16_crcStep {p : Crcp} (hin : p.refin = true) (c : Bits16) (b : Byte) :
    lsbStep p (reflect16 c) b = reflect16 (crcStep p c b) := by
  rw [lsbStep, crcStep, reflect16_crcShifts, crcInput, if_pos hin, ← reflect16_reflect8]
  exact congrArg _ (reverse_xor _ _).symm

/-- Settles O27: step by step the shift-right form's accumulator is the reflection of the accumulator. -/
theorem lsbFirstFormIsEquivalent : Obligations.LsbFirstFormIsEquivalent := by
  intro p bytes hin hout
  rw [lsbCrc16, crc16, crcFinal, if_pos hout, crcFold, List.foldl_hom reflect16 (reflect16_crcStep hin)]

end Sys2Proof.Proofs
end

section
/-! PROOFS. The CRC unit's operations (spec/40_crc.md R112 to R116): what each answers, by CRC_VALID, and that
CRC.INIT, CRC.UPD of each byte and CRC.GET compute crc16. -/

namespace Sys2Proof.Proofs

open Sys2Proof Sys2Proof.Machine

/-! ### What each operation answers -/

theorem exec_crcInit (s : State) : exec .crcInit s =
    .next { s with crc := s.params.crcp.init, crcValid := true, status := 0x00#8, result := .ok } := rfl

theorem exec_crcUpd_of_valid {s : State} (h : s.crcValid = true) (b : Byte) : exec (.crcUpd b) s =
    .next { s with crc := crcStep s.params.crcp s.crc b, status := 0x00#8, result := .ok } := if_pos h

theorem exec_crcGet_of_valid {s : State} (h : s.crcValid = true) : exec .crcGet s =
    .next { s with status := 0x00#8, result := .crcValue (crcFinal s.params.crcp s.crc) } := if_pos h

theorem exec_crcChk_of_valid {s : State} (h : s.crcValid = true) (lo hi : Byte) : exec (.crcChk lo hi) s =
    .next { s with
      matchFlag := crcMatches s.params.crcp s.crc lo hi, status := 0x00#8,
      result := .checked (crcMatches s.params.crcp s.crc lo hi) } := if_pos h

/-- The operations that need the accumulator (R113 to R115). -/
def readsAccumulator : Instr → Bool
  | .crcUpd _ => true
  | .crcGet => true
  | .crcChk _ _ => true
  | _ => false

/-- Before the first CRC.INIT there is no accumulator to use (U6). -/
theorem exec_refused_of_invalid {s : State} (h : s.crcValid = false) {i : Instr} (hi : readsAccumulator i = true) :
    exec i s = .refused .crcNotInitialised := by
  have hguard : ¬ s.crcValid = true := by rw [h]; decide
  cases i
  case crcUpd b => exact if_neg hguard
  case crcGet => exact if_neg hguard
  case crcChk lo hi => exact if_neg hguard
  all_goals cases hi

/-! ### CRC.INIT, CRC.UPD and CRC.GET -/

/-- An OP without operands selects its one operation. -/
theorem opSelects_of_noOperands {op : Byte} {i : Instr} (h : ∀ rest, decodePort (op :: rest) = .ok (i, rest)) :
    opSelects op (fun j => j = i) := by
  constructor
  · intro bytes j more hj
    rw [h] at hj
    cases hj
    rfl
  · rintro j rfl
    exact ⟨[], h []⟩

/-- Settles O20: CRC.INIT depends on the parameters only, which it leaves. -/
theorem crcInitLoadsTheInitialValue : Obligations.CrcInitLoadsTheInitialValue :=
  ⟨opSelects_of_noOperands fun _ => rfl, fun s => ⟨_, exec_crcInit s, exec_crcInit _, rfl⟩⟩

/-- Settles O21: the one byte after the OP is what CRC.UPD feeds, where CRC_VALID is set. -/
theorem crcUpdFeedsOneByte : Obligations.CrcUpdFeedsOneByte := by
  refine ⟨⟨fun bytes i more h => ?_, ?_⟩, fun s b hs => exec_refused_of_invalid hs rfl,
    fun s b hs => exec_crcUpd_of_valid hs b, by decide⟩
  · cases bytes with
    | nil => cases h
    | cons b rest => cases h; exact ⟨b, rfl⟩
  · rintro i ⟨b, rfl⟩
    exact ⟨[b], rfl⟩

/-- Settles O22: after CRC.INIT the accumulator is CRC_INIT, with no byte fed. -/
theorem crcGetReturnsTheFinalisedValue : Obligations.CrcGetReturnsTheFinalisedValue := by
  refine ⟨opSelects_of_noOperands fun _ => rfl, fun s hs => exec_refused_of_invalid hs rfl,
    fun s hs => exec_crcGet_of_valid hs, fun s t ht => ?_, by decide⟩
  rw [exec_crcInit] at ht
  cases ht
  exact ⟨_, exec_crcGet_of_valid rfl, rfl, rfl⟩

/-! ### CRC.CHK -/

theorem crcMatches_iff (p : Crcp) (c : Bits16) (lo hi : Byte) :
    crcMatches p c lo hi = true ↔ crcFinal p c = word16 lo hi := beq_iff_eq

/-- Whatever state CRC.CHK answers, its MATCH is the comparison. -/
theorem matchFlag_of_crcChk {s t : State} {lo hi : Byte} (h : exec (.crcChk lo hi) s = .next t) :
    t.matchFlag = crcMatches s.params.crcp s.crc lo hi := by
  obtain ⟨-, rfl⟩ := of_ite_next h
  rfl

/-- If the two bytes match, they match in no other order, unless they are equal. -/
theorem crcMatches_swap {p : Crcp} {c : Bits16} {lo hi : Byte} (hne : lo ≠ hi) (h : crcMatches p c lo hi = true) :
    crcMatches p c hi lo = false := by
  rw [crcMatches_iff] at h
  rw [← Bool.not_eq_true, crcMatches_iff, h, word16_inj]
  exact fun ⟨heq, _⟩ => hne heq

/-- Settles O23: MATCH is the 16-bit comparison, and a 16-bit word has its two bytes in one order only. -/
theorem crcChkComparesAllBits : Obligations.CrcChkComparesAllBits := by
  refine ⟨⟨fun bytes i more h => ?_, ?_⟩, fun s lo hi hs => exec_refused_of_invalid hs rfl,
    fun s lo hi hs => ⟨_, crcMatches_iff _ _ lo hi, exec_crcChk_of_valid hs lo hi⟩,
    fun s t u lo hi hne ht hmatch hu => ?_, fun s hs hfinal => ?_⟩
  · match bytes with
    | [] | [_] => cases h
    | lo :: hi :: _ => cases h; exact ⟨lo, hi, rfl⟩
  · rintro i ⟨lo, hi, rfl⟩
    exact ⟨[lo, hi], rfl⟩
  · rw [matchFlag_of_crcChk ht] at hmatch
    rw [matchFlag_of_crcChk hu]
    exact crcMatches_swap hne hmatch
  · have hmatch : crcMatches s.params.crcp s.crc 0xF3#8 0x97#8 = true := (crcMatches_iff _ _ _ _).2 hfinal
    exact ⟨⟨_, exec_crcChk_of_valid hs _ _, hmatch⟩, _, exec_crcChk_of_valid hs _ _,
      crcMatches_swap (by decide) hmatch⟩

/-! ### The CRC of a byte sequence -/

theorem execAll_cons {s t : State} {i : Instr} (h : exec i s = .next t) (rest : List Instr) :
    execAll (i :: rest) s = execAll rest t := by
  rw [execAll, h]

/-- CRC.UPD of each byte folds the step over them, and CRC.GET reads the accumulator off (R116). -/
theorem execAll_crcUpd_crcGet {s : State} (hs : s.crcValid = true) (bytes : List Byte) :
    ∃ t : State, execAll (bytes.map Instr.crcUpd ++ [.crcGet]) s = .next t ∧
      t.result = .crcValue (crcFinal s.params.crcp (crcFold s.params.crcp s.crc bytes)) ∧
      t.crc = crcFold s.params.crcp s.crc bytes := by
  induction bytes generalizing s with
  | nil => exact ⟨_, execAll_cons (exec_crcGet_of_valid hs) [], rfl, rfl⟩
  | cons b bytes ih =>
    rw [List.map_cons, List.cons_append, execAll_cons (exec_crcUpd_of_valid hs b)]
    exact ih hs

/-- Settles O24: the unit's program by its fold, the codec's frame by what an instruction outside the unit leaves. -/
theorem crcUnitComputesCrc16 : Obligations.CrcUnitComputesCrc16 := by
  refine ⟨fun _ _ => rfl, fun s bytes => ?_, fun s t i h hcodec => ?_⟩
  · rw [List.cons_append, execAll_cons (exec_crcInit s)]
    exact execAll_crcUpd_crcGet rfl bytes
  · have hunit : writesCrcUnit i = false := by
      cases i
      case encode | fdec | decode | send | receive => rfl
      all_goals cases hcodec
    obtain ⟨hcrc, hvalid, -⟩ := (crcUnit_eq_iff s t).1 (exec_crcUnit h hunit)
    exact ⟨hcrc, hvalid⟩

end Sys2Proof.Proofs
end

section
/-! PROOFS. The ENC unit (spec/41_frame_encode.md R130 to R135): the frame that ENCODE and SEND leave in TXBUF, as the
MemWrites that build it, as its fields, and byte by byte as the streaming encoder emits it. -/

namespace Sys2Proof.Proofs

open Sys2Proof Sys2Proof.Machine

/-! ### Where the encoder stops -/

/-- Settles O29: ENCODE and SEND share the guard on the payload's length. -/
theorem tooLongPayloadIsRefused : Obligations.TooLongPayloadIsRefused := by
  intro s seqno payload hlen
  have hguard : ¬ fitsPayload payload.length = true := by
    rw [fitsPayload_iff]
    omega
  exact ⟨if_neg hguard, if_neg hguard⟩

/-! ### The operands of ENCODE -/

/-- A `bytes` operand that is taken is shorter than 2^32 (R92). -/
theorem takeBytes_length_lt {bytes payload more : List Byte} (h : takeBytes bytes = .ok (payload, more)) :
    payload.length < 2 ^ 32 := by
  unfold takeBytes at h
  split at h
  case h_1 => cases h
  case h_2 n rest _ =>
    split_ifs at h with hlimit hshort
    cases h
    rw [List.length_take]
    rw [payloadLimit] at hlimit
    omega

theorem takeEncode_ok {bytes more : List Byte} {i : Instr} (h : takeEncode bytes = .ok (i, more)) :
    ∃ (seqno : Bits16) (payload : List Byte), payload.length < 2 ^ 32 ∧ i = .encode seqno payload := by
  match bytes with
  | [] | [_] => cases h
  | s0 :: s1 :: rest =>
    simp only [takeEncode] at h
    split at h
    case h_1 => cases h
    case h_2 payload rest htake =>
      cases h
      exact ⟨_, payload, takeBytes_length_lt htake, rfl⟩

theorem opSelects_encode : opSelects 0x08#8 (fun i => ∃ (seqno : Bits16) (payload : List Byte),
    payload.length < 2 ^ 32 ∧ i = .encode seqno payload) := by
  constructor
  · exact fun bytes i more h => takeEncode_ok h
  · rintro i ⟨seqno, payload, hlen, rfl⟩
    have hport := decodePort_of_encode (i := .encode seqno payload) rfl (fitsPayload_iff.2 hlen) []
    rw [List.append_nil] at hport
    exact ⟨_, hport⟩

/-! ### The frame of ENCODE -/

/-- TX_LEN holds the frame's length exactly (R29, R83). -/
theorem txLen_encodeFrame (p : Crcp) (seqno : Bits16) {payload : List Byte} (hlen : payload.length < 2 ^ 32)
    (s : State) : (writeTxbuf (encodeFrame p seqno payload) s).txLen.toNat = 10 + payload.length := by
  rw [writeTxbuf_txLen, BitVec.toNat_ofNat, length_encodeFrame]
  omega

/-- Settles O28: a `bytes` operand always fits, and the buffer made of the frame reads as the frame. -/
theorem encodeWritesTheFrame : Obligations.EncodeWritesTheFrame := by
  refine ⟨opSelects_encode, fun s seqno payload hlen => ?_⟩
  exact ⟨_, exec_encode s seqno payload hlen, rfl, txLen_encodeFrame s.params.crcp seqno hlen s,
    length_encodeFrame s.params.crcp seqno payload, fun o _ => read_bufferOf _ o⟩

/-- Where ENCODE answers, the payload fits and TXBUF is the frame alone (R130). -/
theorem txbuf_of_encode {s t : State} {seqno : Bits16} {payload : List Byte}
    (h : exec (.encode seqno payload) s = .next t) :
    payload.length < 2 ^ 32 ∧ t.txbuf = bufferOf (encodeFrame s.params.crcp seqno payload) := by
  cases exec_answers h with
  | encode _ _ hfits => exact ⟨hfits, rfl⟩
  | call _ _ hi => cases hi

/-- SEND leaves the frame that ENCODE with SEQ would (R160). -/
theorem txbuf_of_send {s t : State} {payload : List Byte} (h : exec (.send payload) s = .next t) :
    payload.length < 2 ^ 32 ∧ t.txbuf = bufferOf (encodeFrame s.params.crcp s.seq payload) := by
  cases exec_answers h with
  | send _ hfits => exact ⟨hfits, sendFrame_txbuf payload s⟩
  | call _ _ hi => cases hi

/-! ### The frame by MemWrites -/

/-- A MemWrite straight behind what a buffer holds extends it by the value's bytes. -/
theorem memWrite_bufferOf {s bytes : List Byte} {o n v : Nat} (ho : s.length = o) (hbytes : leBytes n v = bytes) :
    memWrite (bufferOf s) o n v = bufferOf (s ++ bytes) := by
  subst ho hbytes
  exact writeBytes_bufferOf s (leBytes n v)

/-- The header's four MemWrites (R131), each behind the one before it. -/
theorem frameHeader_by_memWrites (seqno : Bits16) {n : Nat} (hn : n < 2 ^ 32) :
    memWrite (memWrite (memWrite (memWrite [] 0 1 startByte.toNat) 1 2 seqno.toNat) 3 4 n) 7 1 tokenByte.toNat =
      bufferOf (frameHeader seqno (BitVec.ofNat 32 n)) := by
  have hlength : leBytes 4 n = bytesLe32 (BitVec.ofNat 32 n) := by
    rw [← leBytes_four, toNat_ofNat_length hn]
  have h0 : memWrite [] 0 1 startByte.toNat = bufferOf [startByte] :=
    memWrite_bufferOf (s := []) rfl (leBytes_one startByte)
  have h1 : memWrite (bufferOf [startByte]) 1 2 seqno.toNat = bufferOf ([startByte] ++ bytesLe16 seqno) :=
    memWrite_bufferOf rfl (leBytes_two seqno)
  have h3 : memWrite (bufferOf ([startByte] ++ bytesLe16 seqno)) 3 4 n =
      bufferOf ([startByte] ++ bytesLe16 seqno ++ bytesLe32 (BitVec.ofNat 32 n)) := memWrite_bufferOf rfl hlength
  rw [h0, h1, h3]
  exact memWrite_bufferOf rfl (leBytes_one tokenByte)

/-- The header, the payload's copy and the MemWrite of the CRC field (R131 to R133) make the frame. -/
theorem frameBytes_by_memWrites (seqno c : Bits16) {payload : List Byte} (hlen : payload.length < 2 ^ 32) :
    memWrite
      ((memWrite (memWrite (memWrite (memWrite [] 0 1 startByte.toNat) 1 2 seqno.toNat) 3 4 payload.length) 7 1
        tokenByte.toNat).writeBytes 8 payload) (8 + payload.length) 2 c.toNat =
      bufferOf (frameBytes seqno payload c) := by
  have hpayload : (bufferOf (frameHeader seqno (BitVec.ofNat 32 payload.length))).writeBytes 8 payload =
      bufferOf (frameHeader seqno (BitVec.ofNat 32 payload.length) ++ payload) :=
    writeBytes_bufferOf (frameHeader seqno (BitVec.ofNat 32 payload.length)) payload
  have hcovered : (frameHeader seqno (BitVec.ofNat 32 payload.length) ++ payload).length = 8 + payload.length := by
    rw [List.length_append, length_frameHeader]
  rw [frameHeader_by_memWrites seqno hlen, hpayload]
  exact memWrite_bufferOf hcovered (leBytes_two c)

/-- Settles O18: both operations leave TXBUF the frame alone, which ends at 10 + N and which the MemWrites make. -/
theorem txbufByMemWrites : Obligations.TxbufByMemWrites := by
  intro s t seqno payload h
  have hframe : payload.length < 2 ^ 32 ∧ t.txbuf = bufferOf (encodeFrame s.params.crcp seqno payload) := by
    obtain hencode | ⟨hsend, rfl⟩ := h
    · exact txbuf_of_encode hencode
    · exact txbuf_of_send hsend
  obtain ⟨hlen, htxbuf⟩ := hframe
  rw [htxbuf]
  constructor
  · intro o ho
    rw [read_bufferOf, List.getElem?_eq_none_iff, length_encodeFrame]
    exact ho
  · exact (frameBytes_by_memWrites seqno _ hlen).symm

/-! ### The streaming encoder -/

/-- Behind the header, the streaming encoder emits the payload and then the CRC field's two bytes (R135). -/
theorem encByte_add_eight (seqno : Bits16) (payload : List Byte) (c : Bits16) (j : Nat) :
    encByte seqno payload c (j + 8) =
      if j < payload.length then payload.getD j 0#8
      else if j = payload.length then c.extractLsb' 0 8
      else c.extractLsb' 8 8 := by
  have hheader : ¬ j + 8 ≤ 6 := by omega
  have hpayload : j + 8 < 8 + payload.length ↔ j < payload.length := by omega
  have hcrc : j + 8 = 8 + payload.length ↔ j = payload.length := by omega
  simp [encByte, hheader, hpayload, hcrc]

/-- The streaming encoder emits the frame with the CRC field it is given, byte for byte. -/
theorem frameBytes_getElem? (seqno : Bits16) (payload : List Byte) (c : Bits16) {i : Nat}
    (hi : i < 10 + payload.length) : (frameBytes seqno payload c)[i]? = some (encByte seqno payload c i) := by
  match i with
  | 0 | 1 | 2 | 3 | 4 | 5 | 6 | 7 => rfl
  | j + 8 =>
    have htail : (frameBytes seqno payload c)[j + 8]? = (payload ++ bytesLe16 c)[j]? := rfl
    rw [htail, encByte_add_eight]
    obtain hlt | rfl | rfl : j < payload.length ∨ j = payload.length ∨ j = payload.length + 1 := by omega
    · simp [hlt, List.getElem?_append_left hlt]
    · simp [bytesLe16]
    · simp [bytesLe16]

/-- The accumulator after k bytes is the fold over the frame's first k, whose CRC field is not among them yet (R135). -/
theorem encAccumulator_eq_crcFold (p : Crcp) (seqno : Bits16) (payload : List Byte) {k : Nat}
    (hk : k ≤ 10 + payload.length) :
    encAccumulator p seqno payload k = crcFold p p.init ((frameBytes seqno payload 0#16).take k) := by
  induction k with
  | zero => rfl
  | succ k ih =>
    rw [encAccumulator, ih (by omega), List.take_add_one, frameBytes_getElem? seqno payload 0#16 hk, crcFold_append]
    rfl

/-- After the header and the payload, the finalised accumulator is the CRC of the two (R133, R135). -/
theorem crcFinal_encAccumulator (p : Crcp) (seqno : Bits16) (payload : List Byte) :
    crcFinal p (encAccumulator p seqno payload (8 + payload.length)) =
      crc16 p (frameHeader seqno (BitVec.ofNat 32 payload.length) ++ payload) := by
  have hcovered : (frameBytes seqno payload 0#16).take (8 + payload.length) =
      frameHeader seqno (BitVec.ofNat 32 payload.length) ++ payload := by
    apply List.take_left'
    rw [List.length_append, length_frameHeader]
  rw [encAccumulator_eq_crcFold p seqno payload (by omega), hcovered, crc16]

/-- Settles O30: the streamed CRC field is the frame's own, so the streamed bytes are the frame's. -/
theorem streamingEncoderIsTheFrame : Obligations.StreamingEncoderIsTheFrame := by
  intro s t seqno payload h i hi
  obtain ⟨-, htxbuf⟩ := txbuf_of_encode h
  rw [htxbuf, read_bufferOf, encodeFrame, crcFinal_encAccumulator]
  exact frameBytes_getElem? seqno payload _ hi

end Sys2Proof.Proofs
end

section
/-! PROOFS. The DEC unit (spec/42_frame_decode.md R140 to R154): FDEC and DECODE answer what the chain of checks answers
on RXBUF[0:n), DECODE with the reply code split off; the chain on a whole frame, on a part of one, on one with bytes
behind it and on one with a flipped bit. -/

namespace Sys2Proof.Proofs

open Sys2Proof Sys2Proof.Machine

/-! ### The operand of FDEC and DECODE -/

theorem takeCount_ok {f : Bits33 → Instr} {bytes more : List Byte} {i : Instr} (h : takeCount f bytes = .ok (i, more)) :
    ∃ n, i = f n := by
  unfold takeCount at h
  split at h
  case h_1 => cases h
  case h_2 n rest _ => cases h; exact ⟨n, rfl⟩

/-- An OP whose one operand is a count selects one operation for each count (R92). -/
theorem opSelects_of_takeCount {op : Byte} {f : Bits33 → Instr}
    (h : ∀ rest, decodePort (op :: rest) = takeCount f rest) : opSelects op (fun i => ∃ n, i = f n) := by
  constructor
  · intro bytes i more hi
    rw [h] at hi
    exact takeCount_ok hi
  · rintro i ⟨n, rfl⟩
    refine ⟨bytesLe33 n, ?_⟩
    have htake := takeBits33_bytesLe33 n []
    rw [List.append_nil] at htake
    rw [h, takeCount, htake]

/-! ### What the decoders answer -/

/-- What FDEC and DECODE return and the STATUS they set, by what the reading of RXBUF finds (R140, R147). -/
theorem decoders_answer {s : State} {n : Bits33} {r : Except FrameError FrameParts} (h : decodeRxbuf s n = some r) :
    ∃ t u : State, exec (.fdec n) s = .next t ∧ exec (.decode n) s = .next u ∧
      t.result = framedResult r ∧ u.result = decodeResult (splitReply s.params r) ∧
      t.status = statusOf t.result ∧ u.status = statusOf u.result :=
  ⟨_, _, by rw [exec, execFdec, h], by rw [exec, execDecode, h], rfl, rfl, rfl, rfl⟩

/-- An error of FDEC is DECODE's error too (R147). -/
theorem decoders_answer_error {s : State} {n : Bits33} {raw : List Byte} {e : FrameError} (hraw : holdsRaw s n raw)
    (he : checkChain s.params.crcp raw = .error e) :
    ∃ t u : State, exec (.fdec n) s = .next t ∧ exec (.decode n) s = .next u ∧
      t.result = .frameError e ∧ u.result = .frameError e ∧
      t.status = statusOf t.result ∧ u.status = statusOf u.result :=
  decoders_answer ((decodeRxbuf_of_holds hraw).trans (congrArg some he))

/-- Two readings of RXBUF that find the same are answered with the same values. -/
theorem decoders_agree {s u : State} {n m : Bits33} (hparams : s.params = u.params)
    (h : decodeRxbuf u m = decodeRxbuf s n) :
    (∀ t, exec (.fdec n) s = .next t → ∃ v, exec (.fdec m) u = .next v ∧ v.result = t.result) ∧
      ∀ t, exec (.decode n) s = .next t → ∃ v, exec (.decode m) u = .next v ∧ v.result = t.result := by
  constructor
  · intro t ht
    obtain ⟨r, hr, rfl⟩ := execFdec_next ht
    obtain ⟨v, -, hv, -, hresult, -⟩ := decoders_answer (h.trans hr)
    exact ⟨v, hv, hresult⟩
  · intro t ht
    obtain ⟨r, hr, rfl⟩ := execDecode_next ht
    obtain ⟨-, v, -, hv, -, hresult, -⟩ := decoders_answer (h.trans hr)
    exact ⟨v, hv, by rw [hresult, ← hparams]; rfl⟩

/-! ### FDEC's checks -/

/-- Behind a well formed header the frame's length, and then its CRC, decide (R144 to R146). -/
theorem checkChain_of_headerFields (p : Crcp) {raw : List Byte} (hlong : ¬ raw.length < 8)
    (hstart : ¬ raw.getD 0 0#8 ≠ startByte) (htoken : ¬ raw.getD 7 0#8 ≠ tokenByte) :
    checkChain p raw =
      let len : Bits32 := raw.getD 6 0#8 ++ raw.getD 5 0#8 ++ raw.getD 4 0#8 ++ raw.getD 3 0#8
      let total := 8 + len.toNat + 2
      if raw.length < total then .error .incomplete
      else if crc16 p (raw.take (total - 2)) ≠ raw.getD (total - 1) 0#8 ++ raw.getD (total - 2) 0#8 then
        .error .crcMismatch
      else .ok ⟨raw.getD 2 0#8 ++ raw.getD 1 0#8, len, (raw.take (total - 2)).drop 8⟩ := by
  rw [checkChain, if_neg (by omega), if_neg hstart, if_neg hlong, if_neg htoken]
  rfl

/-- Settles O31: FDEC answers the chain of checks, whose branches are taken here one by one. -/
theorem fdecChecksInOrder : Obligations.FdecChecksInOrder := by
  refine ⟨opSelects_of_takeCount fun _ => rfl, fun s n raw hraw => ?_⟩
  refine ⟨_, exec_fdec_of_holds hraw, rfl, rfl, ?_⟩
  split
  case isTrue hempty => rw [checkChain, if_pos hempty]; rfl
  case isFalse hempty =>
  split
  case isTrue hstart => rw [checkChain, if_neg hempty, if_pos hstart]; rfl
  case isFalse hstart =>
  split
  case isTrue hlong => rw [checkChain, if_neg hempty, if_neg hstart, if_pos hlong]; rfl
  case isFalse hlong =>
  split
  case isTrue htoken => rw [checkChain, if_neg hempty, if_neg hstart, if_neg hlong, if_pos htoken]; rfl
  case isFalse htoken =>
  rw [checkChain_of_headerFields _ hlong hstart htoken]
  dsimp only
  split
  case isTrue => rfl
  case isFalse =>
  split
  case isTrue => rfl
  case isFalse => exact ⟨rfl, rfl, rfl⟩

/-! ### DECODE's split -/

/-- A payload that is not empty begins with the reply code (R147, R148). -/
theorem splitReply_cons (p : Params) (seqno : Bits16) (len : Bits32) (code : Byte) (data : List Byte) :
    splitReply p (.ok ⟨seqno, len, code :: data⟩) =
      if replyClass p code = .unknown then .unknown ⟨seqno, len, code :: data⟩ code
      else .reply ⟨seqno, len, code :: data⟩ ⟨code, replyClass p code, data⟩ := rfl

/-- Settles O32: the split of the reply code, for an error, an empty payload, an unknown code and a known one. -/
theorem decodeSplitsTheReplyCode : Obligations.DecodeSplitsTheReplyCode := by
  refine ⟨opSelects_of_takeCount fun _ => rfl, fun s n raw hraw => ?_⟩
  refine ⟨_, _, exec_fdec_of_holds hraw, exec_decode_of_holds hraw, rfl, rfl, ?_, ?_⟩
  · rw [decodeBytes_eq, returnResult_result]
  cases checkChain s.params.crcp raw with
  | error e => rfl
  | ok parts =>
    obtain ⟨seqno, len, payload⟩ := parts
    cases payload with
    | nil => rfl
    | cons code data =>
      rw [splitReply_cons]
      by_cases hunknown : replyClass s.params code = .unknown
      · rw [if_pos hunknown]
        exact And.intro rfl ⟨rfl, rfl, (if_pos hunknown).mpr ⟨rfl, rfl⟩⟩
      · rw [if_neg hunknown]
        exact And.intro rfl ⟨rfl, rfl, (if_neg hunknown).mpr rfl⟩

/-! ### A sequence that begins with a header -/

/-- Behind the header of a frame, the fields are the header's own and the payload is what follows it (R142, R146). -/
theorem checkChain_of_frameHeader (p : Crcp) {raw rest : List Byte} {seqno : Bits16} {len : Bits32}
    (hraw : raw = frameHeader seqno len ++ rest) :
    checkChain p raw =
      if raw.length < 10 + len.toNat then .error .incomplete
      else if crc16 p (raw.take (8 + len.toNat)) ≠ raw.getD (9 + len.toNat) 0#8 ++ raw.getD (8 + len.toNat) 0#8 then
        .error .crcMismatch
      else .ok ⟨seqno, len, rest.take len.toNat⟩ := by
  have hlong : ¬ raw.length < 8 := by simp [hraw]
  have hseqno : raw.getD 2 0#8 ++ raw.getD 1 0#8 = seqno := hraw ▸ word16_bytesLe16 seqno
  have hlen : raw.getD 6 0#8 ++ raw.getD 5 0#8 ++ raw.getD 4 0#8 ++ raw.getD 3 0#8 = len :=
    hraw ▸ word32_bytesLe32 len
  have hpayload : (raw.take (8 + len.toNat)).drop 8 = rest.take len.toNat := by
    rw [hraw, List.take_add]
    rfl
  have htotal : 8 + len.toNat + 2 = 10 + len.toNat := by omega
  have hlow : 10 + len.toNat - 2 = 8 + len.toNat := by omega
  have hhigh : 10 + len.toNat - 1 = 9 + len.toNat := by omega
  rw [checkChain_of_headerFields p hlong (by simp [hraw, frameHeader]) (hraw ▸ not_not_intro rfl)]
  dsimp only
  rw [hseqno, hlen, htotal, hlow, hhigh, hpayload]

theorem encodeFrame_eq (p : Crcp) (seqno : Bits16) (payload : List Byte) :
    encodeFrame p seqno payload = frameHeader seqno (BitVec.ofNat 32 payload.length) ++
      (payload ++ bytesLe16 (crc16 p (frameHeader seqno (BitVec.ofNat 32 payload.length) ++ payload))) :=
  List.append_assoc ..

/-- A sequence of at least eight bytes, its header spelled out. -/
theorem exists_header_cons {raw : List Byte} (h : 8 ≤ raw.length) :
    ∃ b0 s0 s1 l0 l1 l2 l3 t rest, raw = b0 :: s0 :: s1 :: l0 :: l1 :: l2 :: l3 :: t :: rest := by
  match raw, h with
  | b0 :: s0 :: s1 :: l0 :: l1 :: l2 :: l3 :: t :: rest, _ => exact ⟨b0, s0, s1, l0, l1, l2, l3, t, rest, rfl⟩

/-! ### Truncated frames -/

/-- Every part of a frame cut short is Incomplete: none of it, a part of the header, or less than the header announces
(R151). -/
theorem checkChain_take_encodeFrame (p : Crcp) (seqno : Bits16) {payload : List Byte} {k : Nat}
    (hlen : payload.length < 2 ^ 32) (hk : k < 10 + payload.length) :
    checkChain p ((encodeFrame p seqno payload).take k) = .error .incomplete := by
  by_cases hheader : 8 ≤ k
  · obtain ⟨m, rfl⟩ := Nat.exists_eq_add_of_le hheader
    obtain ⟨rest, hframe⟩ : ∃ rest, encodeFrame p seqno payload =
        frameHeader seqno (BitVec.ofNat 32 payload.length) ++ rest := ⟨_, encodeFrame_eq p seqno payload⟩
    have htaken : (encodeFrame p seqno payload).take (8 + m) =
        frameHeader seqno (BitVec.ofNat 32 payload.length) ++ rest.take m := by
      rw [hframe, List.take_add]
      rfl
    have hshort : ((encodeFrame p seqno payload).take (8 + m)).length < 10 + payload.length := by
      rw [List.length_take]
      omega
    rw [checkChain_of_frameHeader p htaken, toNat_ofNat_length hlen, if_pos hshort]
  · have hk8 : k < 8 := by omega
    -- the start byte stands or nothing does, and the length test decides
    interval_cases k <;> rfl

/-- Settles O34: the reading of RXBUF takes no byte past n, and a frame cut short is read as Incomplete. -/
theorem truncatedFrameIsIncomplete : Obligations.TruncatedFrameIsIncomplete := by
  constructor
  · intro s u n hparams hread
    have hsame : decodeRxbuf u n = decodeRxbuf s n := by
      rw [decodeRxbuf, decodeRxbuf, hparams]
      exact decodeFrame_congr hread
    exact decoders_agree hparams hsame
  · intro s n seqno payload hlen hn hraw
    obtain ⟨t, u, ht, hu, htresult, huresult, htstatus, hustatus⟩ :=
      decoders_answer_error hraw (checkChain_take_encodeFrame s.params.crcp seqno hlen hn)
    exact ⟨t, u, ht, hu, htresult, huresult, by rw [htstatus, htresult]; rfl, by rw [hustatus, huresult]; rfl⟩

/-! ### Bytes past the frame -/

/-- The chain of checks looks at no byte past the frame's own length (R150). -/
theorem checkChain_append (p : Crcp) {raw : List Byte} {len : Bits32} (hfield : memRead4 (ofList raw) 3 = some len)
    (htotal : raw.length = 10 + len.toNat) (excess : List Byte) : checkChain p (raw ++ excess) = checkChain p raw := by
  obtain ⟨b0, s0, s1, l0, l1, l2, l3, t, rest, rfl⟩ := exists_header_cons (raw := raw) (by omega)
  obtain rfl : word32 l0 l1 l2 l3 = len := Option.some.inj hfield
  have hrest : rest.length = (word32 l0 l1 l2 l3).toNat + 2 := by
    simp only [List.length_cons] at htotal
    omega
  simp only [List.cons_append, checkChain_header]
  rw [List.take_append_of_le_length (by omega), List.getD_append _ _ _ _ (by omega),
    List.getD_append _ _ _ _ (by omega), if_neg (c := (rest ++ excess).length < _) (by rw [List.length_append]; omega),
    if_neg (c := rest.length < _) (by omega)]

/-- Settles O35: both sequences are answered by the same chain of checks. -/
theorem excessBytesAreIgnored : Obligations.ExcessBytesAreIgnored := by
  intro s u n m raw excess len hparams hs hu hfield htotal
  have hsame : decodeRxbuf u m = decodeRxbuf s n := by
    rw [decodeRxbuf_of_holds hs, decodeRxbuf_of_holds hu, ← hparams, checkChain_append _ hfield htotal]
  obtain ⟨hfdec, hdecode⟩ := decoders_agree hparams hsame
  obtain ⟨t, v, ht, hv, -⟩ := decoders_answer (decodeRxbuf_of_holds hs)
  exact ⟨⟨t, (hfdec t ht).imp fun _ h => ⟨ht, h⟩⟩, ⟨v, (hdecode v hv).imp fun _ h => ⟨hv, h⟩⟩⟩

/-! ### The round trip -/

/-- Settles O36: the chain accepts an encoded frame, and the split sees its payload. -/
theorem roundTripOfAFrame : Obligations.RoundTripOfAFrame := by
  intro s n seqno payload hlen hraw
  have hchain := checkChain_encodeFrame s.params.crcp seqno payload [] hlen
  rw [List.append_nil] at hchain
  have hfdec := exec_fdec_of_holds hraw
  have hdecode := exec_decode_of_holds hraw
  rw [hchain] at hfdec hdecode
  refine ⟨⟨_, hfdec, rfl, rfl, rfl, rfl, toNat_ofNat_length hlen⟩, ⟨_, hdecode, rfl, rfl, ?_⟩⟩
  cases payload with
  | nil => rfl
  | cons code data =>
    rw [returnResult_result, splitReply_cons]
    by_cases hunknown : replyClass s.params code = .unknown
    · rw [if_pos hunknown]
      exact (if_pos hunknown).mpr rfl
    · rw [if_neg hunknown]
      exact (if_neg hunknown).mpr rfl

/-! ### One flipped bit -/

/-- Bit k of the byte at j, flipped. -/
def flipBit (f : List Byte) (j k : Nat) : List Byte := f.set j (f.getD j 0#8 ^^^ (1#8 <<< k))

@[simp] theorem length_flipBit (f : List Byte) (j k : Nat) : (flipBit f j k).length = f.length := List.length_set

theorem getD_flipBit_of_ne {f : List Byte} {i j : Nat} (k : Nat) (h : i ≠ j) :
    (flipBit f j k).getD i 0#8 = f.getD i 0#8 := by
  simp [flipBit, List.getElem?_set_ne h.symm]

/-- A flip in the first of two sequences. -/
theorem flipBit_append_left {a b : List Byte} {j : Nat} (k : Nat) (h : j < a.length) :
    flipBit (a ++ b) j k = flipBit a j k ++ b := by
  rw [flipBit, flipBit, List.set_append_left _ _ h, List.getD_append _ _ _ _ h]

/-- A wrong start byte is found first (R141). -/
theorem checkChain_flip_start (p : Crcp) (seqno : Bits16) (payload : List Byte) {k : Nat} (hk : k < 8) :
    checkChain p (flipBit (encodeFrame p seqno payload) 0 k) = .error .badStart :=
  (checkChain_header p (startByte ^^^ (1#8 <<< k)) _ _ _ _ _ _ _ _).trans (if_pos (flip_ne startByte hk))

/-- A wrong token byte hides the length and the CRC (R143). -/
theorem checkChain_flip_token (p : Crcp) (seqno : Bits16) (payload : List Byte) {k : Nat} (hk : k < 8) :
    checkChain p (flipBit (encodeFrame p seqno payload) 7 k) = .error .badToken :=
  (checkChain_header p startByte _ _ _ _ _ _ (tokenByte ^^^ (1#8 <<< k)) _).trans
    ((if_neg (not_not_intro rfl)).trans (if_pos (flip_ne tokenByte hk)))

/-! ### A flipped bit outside start, length and token -/

/-- The length field is read as it was, and the CRC does not verify (R120, R145). -/
theorem checkChain_flip_covered {p : Crcp} (hp : p.poly ≠ 0#16) (seqno : Bits16) {payload : List Byte} {j k : Nat}
    (hlen : payload.length < 2 ^ 32) (hk : k < 8) (hj : j < 10 + payload.length)
    (hplace : j ≠ 0 ∧ j ≠ 7 ∧ ¬ (3 ≤ j ∧ j ≤ 6)) :
    checkChain p (flipBit (encodeFrame p seqno payload) j k) = .error .crcMismatch := by
  obtain ⟨h0, h7, hfield⟩ := hplace
  have hbody : (frameHeader seqno (BitVec.ofNat 32 payload.length) ++ payload).length = 8 + payload.length := by simp
  have hcrc := (oneBitChangesTheCrc p hp).2 _ j k (by rw [hbody]; omega) hk
  rw [hbody] at hcrc
  set g := flipBit (encodeFrame p seqno payload) j k with hg
  have hkept (i : Nat) (hi : i ≠ j) : g.getD i 0#8 = (encodeFrame p seqno payload).getD i 0#8 :=
    getD_flipBit_of_ne k hi
  have hstart : g.getD 0 0#8 = startByte := hkept 0 (by omega)
  have htoken : g.getD 7 0#8 = tokenByte := hkept 7 (by omega)
  have hlength : g.length = 10 + payload.length := by rw [hg, length_flipBit, length_encodeFrame]
  have hsame : g.getD 6 0#8 ++ g.getD 5 0#8 ++ g.getD 4 0#8 ++ g.getD 3 0#8 = BitVec.ofNat 32 payload.length := by
    rw [hkept 6 (by omega), hkept 5 (by omega), hkept 4 (by omega), hkept 3 (by omega)]
    exact word32_bytesLe32 _
  rw [checkChain_of_headerFields p (by omega) (not_not_intro hstart) (not_not_intro htoken)]
  dsimp only
  rw [hsame, toNat_ofNat_length hlen, if_neg (by omega)]
  exact if_pos hcrc

/-! ### A flipped bit of the length field -/

theorem xor_eq_or_of_and_eq_zero {w : Nat} {x y : BitVec w} (h : x &&& y = 0#w) : x ^^^ y = x ||| y := by
  apply BitVec.eq_of_getLsbD_eq
  intro m _
  have hm : (x.getLsbD m && y.getLsbD m) = false := by rw [← BitVec.getLsbD_and, h, BitVec.getLsbD_zero]
  rw [BitVec.getLsbD_xor, BitVec.getLsbD_or]
  revert hm
  cases x.getLsbD m <;> simp

/-- Setting a bit that was 0 adds its weight. -/
theorem toNat_xor_bit {w i : Nat} {v : BitVec w} (hi : i < w) (h : v.getLsbD i = false) :
    (v ^^^ 1#w <<< i).toNat = v.toNat + 2 ^ i := by
  have hdisjoint : v &&& BitVec.twoPow w i = 0#w := by rw [BitVec.and_twoPow, h]; rfl
  calc (v ^^^ BitVec.twoPow w i).toNat = v.toNat + (BitVec.twoPow w i).toNat := by
        rw [xor_eq_or_of_and_eq_zero hdisjoint, ← BitVec.add_eq_or_of_and_eq_zero _ _ hdisjoint,
          BitVec.toNat_add_of_and_eq_zero hdisjoint]
    _ = v.toNat + 2 ^ i := by rw [BitVec.toNat_twoPow_of_lt hi]

/-- Clearing a bit that was 1 takes its weight away. -/
theorem toNat_xor_bit_of_set {w i : Nat} {v : BitVec w} (hi : i < w) (h : v.getLsbD i = true) :
    v.toNat = (v ^^^ 1#w <<< i).toNat + 2 ^ i := by
  have hclear : (v ^^^ 1#w <<< i).getLsbD i = false := by simp [h, hi]
  rw [← toNat_xor_bit hi hclear, BitVec.xor_assoc, BitVec.xor_self, BitVec.xor_zero]

/-- A flip in a byte of the length field is the flip of one bit of the length. -/
theorem flipBit_bytesLe32 (v : Bits32) {i k : Nat} (hi : i < 4) (hk : k < 8) :
    flipBit (bytesLe32 v) i k = bytesLe32 (v ^^^ 1#32 <<< (8 * i + k)) := by
  have hbit : ∀ i < 4, ∀ k < 8, ∀ m < 4,
      (1#32 <<< (8 * i + k)).extractLsb' (8 * m) 8 = if m = i then 1#8 <<< k else 0#8 := by decide
  have hbyte (m : Nat) (hm : m < 4) : (v ^^^ 1#32 <<< (8 * i + k)).extractLsb' (8 * m) 8 =
      v.extractLsb' (8 * m) 8 ^^^ if m = i then 1#8 <<< k else 0#8 := by
    rw [BitVec.extractLsb'_xor, hbit i hi k hk m hm]
  have hbytes : bytesLe32 (v ^^^ 1#32 <<< (8 * i + k)) =
      [v.extractLsb' 0 8 ^^^ if 0 = i then 1#8 <<< k else 0#8, v.extractLsb' 8 8 ^^^ if 1 = i then 1#8 <<< k else 0#8,
        v.extractLsb' 16 8 ^^^ if 2 = i then 1#8 <<< k else 0#8,
        v.extractLsb' 24 8 ^^^ if 3 = i then 1#8 <<< k else 0#8] := by
    rw [← hbyte 0 (by decide), ← hbyte 1 (by decide), ← hbyte 2 (by decide), ← hbyte 3 (by decide)]
    rfl
  rw [hbytes]
  match i, hi with
  | 0, _ | 1, _ | 2, _ | 3, _ => simp [flipBit, bytesLe32]

theorem flipBit_frameHeader (seqno : Bits16) (len : Bits32) {i k : Nat} (hi : i < 4) (hk : k < 8) :
    flipBit (frameHeader seqno len) (3 + i) k = frameHeader seqno (len ^^^ 1#32 <<< (8 * i + k)) := by
  have hfield : flipBit (frameHeader seqno len) (3 + i) k =
      [startByte] ++ bytesLe16 seqno ++ flipBit (bytesLe32 len) i k ++ [tokenByte] := by
    match i, hi with
    | 0, _ | 1, _ | 2, _ | 3, _ => rfl
  rw [hfield, flipBit_bytesLe32 len hi hk, frameHeader]

/-- The frame announces another length, and is otherwise as it was. -/
theorem flipBit_encodeFrame_length (p : Crcp) (seqno : Bits16) (payload : List Byte) {i k : Nat} (hi : i < 4)
    (hk : k < 8) :
    flipBit (encodeFrame p seqno payload) (3 + i) k =
      frameHeader seqno (BitVec.ofNat 32 payload.length ^^^ 1#32 <<< (8 * i + k)) ++
        (payload ++ bytesLe16 (crc16 p (frameHeader seqno (BitVec.ofNat 32 payload.length) ++ payload))) := by
  rw [encodeFrame_eq, flipBit_append_left k (by rw [length_frameHeader]; omega), flipBit_frameHeader seqno _ hi hk]

/-- Bit k of byte i of the length field is bit 8i + k of the length. -/
theorem getLsbD_encodeFrame_length (p : Crcp) (seqno : Bits16) (payload : List Byte) {i k : Nat} (hi : i < 4)
    (hk : k < 8) :
    ((encodeFrame p seqno payload).getD (3 + i) 0#8).getLsbD k =
      (BitVec.ofNat 32 payload.length).getLsbD (8 * i + k) := by
  have hbyte : (encodeFrame p seqno payload).getD (3 + i) 0#8 =
      (BitVec.ofNat 32 payload.length).extractLsb' (8 * i) 8 := by
    match i, hi with
    | 0, _ | 1, _ | 2, _ | 3, _ => rfl
  rw [hbyte, BitVec.getLsbD_extractLsb', decide_eq_true hk, Bool.true_and]

/-- A length bit set to 1: the frame claims more bytes than there are (R154). -/
theorem checkChain_flip_length_set (p : Crcp) (seqno : Bits16) {payload : List Byte} {i k : Nat}
    (hlen : payload.length < 2 ^ 32) (hi : i < 4) (hk : k < 8)
    (hbit : (BitVec.ofNat 32 payload.length).getLsbD (8 * i + k) = false) :
    checkChain p (flipBit (encodeFrame p seqno payload) (3 + i) k) = .error .incomplete := by
  have hlonger := toNat_xor_bit (by omega) hbit
  rw [toNat_ofNat_length hlen] at hlonger
  have hweight : 0 < 2 ^ (8 * i + k) := Nat.two_pow_pos _
  rw [checkChain_of_frameHeader p (flipBit_encodeFrame_length p seqno payload hi hk), hlonger, if_pos]
  rw [length_flipBit, length_encodeFrame]
  omega

/-- A length bit cleared to 0: the CRC of the shorter frame decides (R154). -/
theorem checkChain_flip_length_cleared (p : Crcp) (seqno : Bits16) {payload g : List Byte} {i k shorter : Nat}
    (hlen : payload.length < 2 ^ 32) (hi : i < 4) (hk : k < 8)
    (hbit : (BitVec.ofNat 32 payload.length).getLsbD (8 * i + k) = true)
    (hg : g = flipBit (encodeFrame p seqno payload) (3 + i) k)
    (hshorter : shorter = payload.length - 2 ^ (8 * i + k)) :
    checkChain p g =
      if crc16 p (g.take (8 + shorter)) ≠ g.getD (9 + shorter) 0#8 ++ g.getD (8 + shorter) 0#8 then .error .crcMismatch
      else .ok ⟨seqno, BitVec.ofNat 32 payload.length ^^^ 1#32 <<< (8 * i + k), payload.take shorter⟩ := by
  have hcleared := toNat_xor_bit_of_set (by omega) hbit
  rw [toNat_ofNat_length hlen] at hcleared
  have hweight : 0 < 2 ^ (8 * i + k) := Nat.two_pow_pos _
  have hn : (BitVec.ofNat 32 payload.length ^^^ 1#32 <<< (8 * i + k)).toNat = shorter := by omega
  have hlength : g.length = 10 + payload.length := by rw [hg, length_flipBit, length_encodeFrame]
  rw [checkChain_of_frameHeader p (hg.trans (flipBit_encodeFrame_length p seqno payload hi hk)), hn,
    if_neg (by omega), List.take_append_of_le_length (by omega)]

/-! ### R154's table -/

/-- The error of R154's table for byte j, whose flipped bit was `bit`. -/
def flipError (j : Nat) (bit : Bool) : FrameError :=
  if j = 0 then .badStart
  else if j = 7 then .badToken
  else if 3 ≤ j ∧ j ≤ 6 ∧ bit = false then .incomplete
  else .crcMismatch

theorem flipError_of_covered {j : Nat} (h : j ≠ 0 ∧ j ≠ 7 ∧ ¬ (3 ≤ j ∧ j ≤ 6)) (bit : Bool) :
    flipError j bit = .crcMismatch := by
  obtain ⟨hstart, htoken, hfield⟩ := h
  rw [flipError, if_neg hstart, if_neg htoken, if_neg fun ⟨hlow, hhigh, _⟩ => hfield ⟨hlow, hhigh⟩]

theorem flipError_of_length {i : Nat} (hi : i < 4) (bit : Bool) :
    flipError (3 + i) bit = if bit = false then .incomplete else .crcMismatch := by
  rw [flipError, if_neg (by omega), if_neg (by omega)]
  simp [show 3 + i ≤ 6 by omega]

/-- The chain on a frame with a flipped bit: R154's table, and the one coincidence that it names. -/
theorem checkChain_flip {p : Crcp} (hp : p.poly ≠ 0#16) (seqno : Bits16) {payload f g : List Byte} {j k shorter : Nat}
    (hlen : payload.length < 2 ^ 32) (hk : k < 8) (hj : j < 10 + payload.length) (hf : f = encodeFrame p seqno payload)
    (hg : g = flipBit f j k) (hshorter : shorter = payload.length - 2 ^ (8 * (j - 3) + k)) :
    if 3 ≤ j ∧ j ≤ 6 ∧ (f.getD j 0#8).getLsbD k = true ∧
        crc16 p (g.take (8 + shorter)) = g.getD (9 + shorter) 0#8 ++ g.getD (8 + shorter) 0#8 then
      ∃ len, checkChain p g = .ok ⟨seqno, len, payload.take shorter⟩
    else checkChain p g = .error (flipError j ((f.getD j 0#8).getLsbD k)) := by
  subst hf
  by_cases hfield : 3 ≤ j ∧ j ≤ 6
  · obtain ⟨i, rfl⟩ := Nat.exists_eq_add_of_le hfield.1
    have hi : i < 4 := by omega
    rw [Nat.add_sub_cancel_left] at hshorter
    rw [getLsbD_encodeFrame_length p seqno payload hi hk, flipError_of_length hi]
    cases hbit : (BitVec.ofNat 32 payload.length).getLsbD (8 * i + k) with
    | false =>
      rw [if_neg fun ⟨_, _, h, _⟩ => Bool.false_ne_true h, hg]
      exact checkChain_flip_length_set p seqno hlen hi hk hbit
    | true =>
      rw [checkChain_flip_length_cleared p seqno hlen hi hk hbit hg hshorter]
      by_cases hcrc : crc16 p (g.take (8 + shorter)) = g.getD (9 + shorter) 0#8 ++ g.getD (8 + shorter) 0#8
      · rw [if_pos ⟨hfield.1, hfield.2, rfl, hcrc⟩, if_neg (not_not_intro hcrc)]
        exact ⟨_, rfl⟩
      · rw [if_neg fun ⟨_, _, _, h⟩ => hcrc h, if_pos hcrc]
        rfl
  · rw [if_neg fun ⟨hlow, hhigh, _⟩ => hfield ⟨hlow, hhigh⟩, hg]
    obtain rfl | hstart := eq_or_ne j 0
    · exact checkChain_flip_start p seqno payload hk
    obtain rfl | htoken := eq_or_ne j 7
    · exact checkChain_flip_token p seqno payload hk
    rw [flipError_of_covered ⟨hstart, htoken, hfield⟩]
    exact checkChain_flip_covered hp seqno hlen hk hj ⟨hstart, htoken, hfield⟩

/-- Settles O37: FDEC and DECODE answer what the chain of checks finds, and DECODE has FDEC's error. -/
theorem oneFlippedBit : Obligations.OneFlippedBit := by
  intro s n seqno payload j k hlen hp hk f g shorter hj hraw
  rw [length_encodeFrame] at hj
  have hchain := checkChain_flip hp seqno (f := f) (g := g) (shorter := shorter) hlen hk hj rfl rfl rfl
  split at hchain
  case isTrue hcoincidence =>
    obtain ⟨len, hchain⟩ := hchain
    obtain ⟨t, u, ht, hu, hresult, -⟩ := decoders_answer ((decodeRxbuf_of_holds hraw).trans (congrArg some hchain))
    exact ⟨t, u, ht, hu, by rw [if_pos hcoincidence]; exact hresult⟩
  case isFalse hcoincidence =>
    obtain ⟨t, u, ht, hu, htresult, huresult, -⟩ := decoders_answer_error hraw hchain
    exact ⟨t, u, ht, hu, by rw [if_neg hcoincidence]; exact ⟨htresult, huresult⟩⟩

end Sys2Proof.Proofs
end

section
/-! PROOFS. The CHN unit's operations (spec/43_channel.md R160 to R175): SEND's one frame, the sequence number's two
operations, and RECEIVE, whose frame is complete or not by the bytes delivered alone, whatever the chunks. -/

namespace Sys2Proof.Proofs

open Sys2Proof Sys2Proof.Machine

/-! ### SEQ.ADV and SEQ.RST -/

/-- Settles O46: the sum of two bits16 is the sum modulo 2^16. -/
theorem seqAdvIncrementsModulo : Obligations.SeqAdvIncrementsModulo :=
  ⟨opSelects_of_noOperands fun _ => rfl, fun s => ⟨advanceSeq s, rfl, rfl, BitVec.toNat_add s.seq 1#16⟩⟩

/-- Settles O47: SEQ_RESET is 0x0000. -/
theorem seqRstClearsSeq : Obligations.SeqRstClearsSeq :=
  ⟨opSelects_of_noOperands fun _ => rfl, fun _ => rfl⟩

/-! ### SEND -/

theorem takeSend_ok {bytes more : List Byte} {i : Instr} (h : takeSend bytes = .ok (i, more)) :
    ∃ data : List Byte, data.length < 2 ^ 32 ∧ i = .send data := by
  unfold takeSend at h
  split at h
  case h_1 => cases h
  case h_2 data rest htake =>
    cases h
    exact ⟨data, takeBytes_length_lt htake, rfl⟩

theorem opSelects_send :
    opSelects 0x10#8 (fun i => ∃ data : List Byte, data.length < 2 ^ 32 ∧ i = .send data) := by
  constructor
  · exact fun bytes i more h => takeSend_ok h
  · rintro i ⟨data, hlen, rfl⟩
    have hport := decodePort_of_encode (i := .send data) rfl (fitsPayload_iff.2 hlen) []
    rw [List.append_nil] at hport
    exact ⟨_, hport⟩

theorem exec_send {data : List Byte} (hlen : data.length < 2 ^ 32) (s : State) :
    exec (.send data) s = .next (sendFrame data s) :=
  if_pos (fitsPayload_iff.2 hlen)

theorem nextWriteAnswer_of_cons {s : State} {a : WriteAnswer} {later : List WriteAnswer}
    (h : s.writeAnswers = a :: later) : nextWriteAnswer s = a := by
  rw [nextWriteAnswer, h]

/-- SEND writes its own registers, TXBUF and the line (R32, R160). -/
theorem sendFrame_changes (data : List Byte) (s : State) :
    sendFrame data s = { s with
      txbuf := (sendFrame data s).txbuf, txLen := (sendFrame data s).txLen, status := (sendFrame data s).status,
      result := (sendFrame data s).result, sent := (sendFrame data s).sent, writeAnswers := s.writeAnswers.tail,
      draws := (sendFrame data s).draws } := rfl

/-- All of the frame is on the line and SEND is Ok, or a prefix of it is and SEND is TransportError (R57, R161). -/
theorem sendFrame_reached (data : List Byte) (s : State) :
    ∃ reached, reached <+: encodeFrame s.params.crcp s.seq data ∧ (sendFrame data s).sent = s.sent ++ [reached] ∧
      ((sendFrame data s).result = .ok ∧ reached = encodeFrame s.params.crcp s.seq data ∨
        (sendFrame data s).result = .transportError) := by
  rw [sendFrame_sent, sendFrame_result]
  cases nextWriteAnswer s with
  | ok => exact ⟨_, List.prefix_rfl, rfl, .inl ⟨rfl, rfl⟩⟩
  | error k => exact ⟨_, List.take_prefix k _, rfl, .inr rfl⟩

/-- Settles O38: SEND's fields are those of `sendFrame`, by the transport's answer to its one write. -/
theorem sendWritesOneFrame : Obligations.SendWritesOneFrame := by
  refine ⟨opSelects_send, fun s data hlen => ?_⟩
  refine ⟨sendFrame data s, exec_send hlen s, sendFrame_changes data s, ?_, ?_, ?_, ?_, sendFrame_reached data s⟩
  · rw [sendFrame_txLen, BitVec.toNat_ofNat, length_encodeFrame]
    omega
  · intro o _
    rw [sendFrame_txbuf, read_bufferOf]
  · intro later hwrite
    rw [sendFrame_result, sendFrame_status, sendFrame_sent, nextWriteAnswer_of_cons hwrite]
    exact ⟨rfl, rfl, rfl⟩
  · intro k later hwrite
    rw [sendFrame_result, sendFrame_status, sendFrame_sent, nextWriteAnswer_of_cons hwrite]
    exact ⟨rfl, rfl, rfl⟩

theorem eq_sendFrame_of_exec_send {s t : State} {data : List Byte} (h : exec (.send data) s = .next t) :
    t = sendFrame data s := by
  cases exec_answers h with
  | send => rfl
  | call _ _ hi => cases hi

theorem sendFrame_sent_of_ok {s : State} {data : List Byte} {later : List WriteAnswer}
    (h : s.writeAnswers = .ok :: later) :
    (sendFrame data s).sent = s.sent ++ [encodeFrame s.params.crcp s.seq data] := by
  rw [sendFrame_sent, nextWriteAnswer_of_cons h, reachedLine]

/-- Settles O39: SEND leaves SEQ and the parameters, on which its frame depends beside the data. -/
theorem twoSendsCarryTheSameSeqno : Obligations.TwoSendsCarryTheSameSeqno := by
  intro s t u data later hwrites ht hu
  obtain rfl := eq_sendFrame_of_exec_send ht
  obtain rfl := eq_sendFrame_of_exec_send hu
  have hsecond : (sendFrame data s).writeAnswers = .ok :: later := by
    rw [sendFrame_writeAnswers, hwrites, List.tail_cons]
  constructor
  · rw [sendFrame_sent_of_ok hsecond, sendFrame_sent_of_ok hwrites, sendFrame_params, sendFrame_seq, List.append_assoc,
      List.singleton_append]
  · rw [sendFrame_seq, sendFrame_seq]

/-! ### Whether the bytes delivered hold a frame -/

/-- Of the beginnings of bytes with this length field, those that have all of the frame are complete (R165, R166). -/
theorem frameDone_iff_of_isPrefix {part all : List Byte} {len : Bits32} (hpart : part <+: all)
    (hlen : memRead4 (ofList all) 3 = some len) : frameDone part ↔ 10 + len.toNat ≤ part.length := by
  obtain ⟨rest, rfl⟩ := hpart
  by_cases h7 : 7 ≤ part.length
  · rw [memRead4_append h7] at hlen
    rw [frameDone, needAfter_of_len hlen, lenKnownAt]
    omega
  · rw [frameDone, lenKnownAt]
    omega

/-- Bytes shorter than their own length field says are no frame, and so are bytes without one. -/
theorem not_frameDone_of_short {all : List Byte}
    (hshort : ∀ len, memRead4 (ofList all) 3 = some len → all.length < 10 + len.toNat) : ¬ frameDone all := by
  intro hdone
  obtain ⟨len, hlen, -⟩ := needAfter_long hdone.1 lenKnownAt
  have htotal := (frameDone_iff_of_isPrefix List.prefix_rfl hlen).1 hdone
  exact absurd (hshort len hlen) (Nat.not_lt.2 htotal)

/-! ### RECEIVE, by its answers -/

/-- RECEIVE reads none of the registers that hold its progress: it goes on from the bytes and the estimate it is given
and from the answers, wherever it is. -/
theorem receiveFrom_congr {acc acc' : List Byte} {need need' : Nat} {s v : State}
    (hloop : reassemble v.readAnswers acc' need' = reassemble s.readAnswers acc need)
    (hstate : v = { s with readAnswers := v.readAnswers, rxbuf := v.rxbuf, rxCnt := v.rxCnt, rxNeed := v.rxNeed }) :
    receiveFrom acc' need' v = receiveFrom acc need s := by
  unfold receiveFrom
  rw [hloop, hstate]
  cases reassemble s.readAnswers acc need <;> rfl

theorem receiveFrom_error {s : State} {later : List ReadAnswer} (h : s.readAnswers = .error :: later)
    (acc : List Byte) (need : Nat) :
    receiveFrom acc need s = .done (receiveNothing { s with readAnswers := later }) := by
  rw [receiveFrom, h, reassemble]

/-- A chunk with which the frame is complete ends RECEIVE (R166). -/
theorem receiveFrom_complete {s : State} {acc c : List Byte} {later : List ReadAnswer}
    (h : s.readAnswers = .chunk c :: later) (hdone : frameDone (acc ++ c)) :
    receiveFrom acc (needAfter acc lenKnownAt) s =
      .done (receiveFrame ((acc ++ c).take (needAfter (acc ++ c) lenKnownAt)) { s with readAnswers := later }) := by
  rw [receiveFrom, h, reassemble_chunk, if_pos hdone]

/-- A chunk with which it is not is appended, and RECEIVE goes on (R164). -/
theorem receiveFrom_append {s : State} {acc c : List Byte} {later : List ReadAnswer}
    (h : s.readAnswers = .chunk c :: later) (hopen : ¬ frameDone (acc ++ c)) :
    receiveFrom acc (needAfter acc lenKnownAt) s =
      receiveFrom (acc ++ c) (needAfter (acc ++ c) lenKnownAt) { s with readAnswers := later } :=
  receiveFrom_congr (by rw [h, reassemble_chunk, if_neg hopen]) rfl

/-- With no answer left RECEIVE waits, its progress in the registers (R163). -/
theorem receiveFrom_nil {s : State} (h : s.readAnswers = []) (acc : List Byte) (need : Nat) :
    receiveFrom acc need s = .waits { s with
      readAnswers := [], rxbuf := bufferOf acc, rxCnt := BitVec.ofNat 33 acc.length,
      rxNeed := BitVec.ofNat 33 need } := by
  rw [receiveFrom, h, reassemble]

theorem receiveStart_eq (s : State) : receiveStart s = receiveFrom [] (needAfter [] lenKnownAt) s := by
  rw [needAfter_nil, receiveStart]

/-- RECEIVE of one chunk that holds a frame, whatever else it holds (R166). -/
theorem receiveStart_complete {s : State} {c : List Byte} {later : List ReadAnswer}
    (h : s.readAnswers = .chunk c :: later) (hdone : frameDone c) :
    receiveStart s = .done (receiveFrame (c.take (needAfter c lenKnownAt)) { s with readAnswers := later }) := by
  rw [receiveStart_eq, receiveFrom_complete (acc := []) h hdone, List.nil_append]

/-! ### What RECEIVE makes of a frame -/

section Frame

variable {frame : List Byte} {s : State}

/-- The answers after the frame's last chunk are left (R166). -/
theorem receiveFrame_readAnswers : (receiveFrame frame s).readAnswers = s.readAnswers := rfl

theorem receiveFrame_of_error {e : FrameError}
    (hd : splitReply s.params (decodeBytes s.params.crcp frame) = .error e) :
    (receiveFrame frame s).result = .corrupt e := by
  rw [receiveFrame, hd]
  rfl

theorem receiveFrame_of_unknown {f : FrameParts} {code : Byte}
    (hd : splitReply s.params (decodeBytes s.params.crcp frame) = .unknown f code) :
    (receiveFrame frame s).result = .corrupt (.unknownReply code) ∧ (receiveFrame frame s).errInfo = code ∧
      (receiveFrame frame s).rxSeq = f.seqno ∧ (receiveFrame frame s).rxLen = f.len ∧
      (receiveFrame frame s).rxCode = code := by
  rw [receiveFrame, hd]
  exact ⟨rfl, rfl, rfl, rfl, rfl⟩

theorem receiveFrame_of_reply {f : FrameParts} {r : Reply}
    (hd : splitReply s.params (decodeBytes s.params.crcp frame) = .reply f r) :
    (receiveFrame frame s).rxSeq = f.seqno ∧ (receiveFrame frame s).rxLen = f.len ∧
      (receiveFrame frame s).rxCode = r.code ∧
      if f.seqno = s.seq then
        (receiveFrame frame s).result = .received r ∧ (receiveFrame frame s).rxbuf = bufferOf frame
      else (receiveFrame frame s).result = .seqMismatch := by
  rw [receiveFrame, hd]
  refine ⟨rfl, rfl, rfl, ?_⟩
  by_cases hseq : f.seqno = s.seq
  · simp [receiveResult, receivedBuffer, hseq]
  · simp [receiveResult, hseq]

/-- RECEIVE's result is that of DECODE of its frame, wherever RXBUF holds that, and then of the seqno check (R163, R167,
R168). -/
theorem receiveFrame_agrees_with_decode {v : State} {n : Bits33} (hparams : v.params = s.params)
    (hraw : holdsRaw v n frame) :
    ∃ w : State, exec (.decode n) v = .next w ∧
      match w.result with
      | .frameError e => (receiveFrame frame s).result = .corrupt e
      | .decoded seqno r =>
        (receiveFrame frame s).rxSeq = seqno ∧ (receiveFrame frame s).rxLen = w.rxLen ∧
          (receiveFrame frame s).rxCode = r.code ∧
          (receiveFrame frame s).result = if seqno = s.seq then .received r else .seqMismatch
      | _ => False := by
  refine ⟨_, exec_decode_of_holds hraw, ?_⟩
  rw [receiveFrame, decodeBytes_eq, hparams]
  cases splitReply s.params (checkChain s.params.crcp frame) with
  | error e => rfl
  | unknown f code => rfl
  | reply f r => exact ⟨rfl, rfl, rfl, rfl⟩

end Frame

/-! ### RECEIVE of whole frames -/

/-- Settles O40: the loop hands RECEIVE the frame's own bytes, whatever the chunks, and ends with the chunk in which the
last of them arrives. -/
theorem receiveIsIndependentOfChunking : Obligations.ReceiveIsIndependentOfChunking := by
  intro s chunks later len hdeliver hlen hwhole frame d
  have hdone : frameDone chunks.flatten := (frameDone_iff_of_isPrefix List.prefix_rfl hlen).2 hwhole
  obtain ⟨taken, rest, hcut, htaken, hbefore, hreceive⟩ := receiveStart_done s chunks later hdeliver hdone
  rw [needAfter_of_len hlen] at hreceive
  refine ⟨_, exec_receive_done hreceive, receiveStart_done_changes hreceive, rfl, rfl, ?_, fun v n hparams hraw =>
    receiveFrame_agrees_with_decode hparams hraw, taken, rest, hcut, ?_, ?_, rfl⟩
  · cases hd : d with
    | error e => exact receiveFrame_of_error hd
    | unknown f code => exact receiveFrame_of_unknown hd
    | reply f r => exact receiveFrame_of_reply hd
  · have hprefix : taken.flatten <+: chunks.flatten := hcut ▸ ⟨rest.flatten, List.flatten_append.symm⟩
    exact (frameDone_iff_of_isPrefix hprefix hlen).1 htaken
  · have hprefix : taken.dropLast.flatten <+: chunks.flatten :=
      ((List.dropLast_prefix taken).trans ⟨rest, hcut.symm⟩).flatten
    rw [frameDone_iff_of_isPrefix hprefix hlen] at hbefore
    omega

/-- Settles O41: the frame is one chunk that decodes to a reply, and its seqno is not SEQ. -/
theorem wrongSeqnoIsSeqMismatch : Obligations.WrongSeqnoIsSeqMismatch := by
  intro s seqno code data later hseqno hlen hknown hanswers
  obtain ⟨hdone, hneed⟩ := frameDone_encodeFrame s.params.crcp seqno (code :: data) [] hlen
  have hchain := checkChain_encodeFrame s.params.crcp seqno (code :: data) [] hlen
  rw [List.append_nil] at hdone hneed hchain
  have hreceive := receiveStart_complete hanswers hdone
  rw [hneed, List.take_of_length_le (length_encodeFrame ..).le] at hreceive
  have hsplit : splitReply s.params (decodeBytes s.params.crcp (encodeFrame s.params.crcp seqno (code :: data))) =
      .reply ⟨seqno, BitVec.ofNat 32 (code :: data).length, code :: data⟩
        ⟨code, replyClass s.params code, data⟩ := by
    rw [decodeBytes_eq, hchain, splitReply_cons, if_neg hknown]
  obtain ⟨hrxSeq, -, -, hresult⟩ := receiveFrame_of_reply (s := { s with readAnswers := later }) hsplit
  rw [if_neg hseqno] at hresult
  obtain ⟨-, hstatus, -⟩ := receiveStart_result hreceive
  exact ⟨_, exec_receive_done hreceive, hresult, hstatus.trans (congrArg statusOf hresult), hrxSeq,
    changesOnlyReceive_seq (receiveStart_done_changes hreceive), receiveFrame_readAnswers⟩

/-! ### RECEIVE of less than a frame -/

/-- Settles O42: the loop comes to the error with no frame complete. -/
theorem failedReadIsNoReply : Obligations.FailedReadIsNoReply := by
  intro s chunks later hdeliver hshort
  have hreceive := receiveStart_error s chunks later hdeliver (not_frameDone_of_short hshort)
  exact ⟨_, exec_receive_done hreceive, receiveStart_done_changes hreceive, rfl, rfl, rfl, rfl, rfl⟩

/-- RX_CNT and RX_NEED hold the counts of a RECEIVE that waits without a wrap (R163, D14). -/
theorem toNat_counts_of_not_frameDone {acc : List Byte} (hopen : ¬ frameDone acc) :
    (BitVec.ofNat 33 acc.length).toNat = acc.length ∧
      (BitVec.ofNat 33 (needAfter acc lenKnownAt)).toNat = needAfter acc lenKnownAt := by
  obtain ⟨hlen, hneed⟩ := not_frameDone_lt hopen
  rw [bufCap] at hlen hneed
  exact ⟨Nat.mod_eq_of_lt (by omega), Nat.mod_eq_of_lt (by omega)⟩

/-- Settles O43: the loop uses up the chunks with no frame complete, and the estimate is R164's 7 or R165's total. -/
theorem receiveWaitsForTheFrame : Obligations.ReceiveWaitsForTheFrame := by
  intro s chunks hdeliver hshort
  have hopen := not_frameDone_of_short hshort
  have hreceive := receiveStart_waits s chunks hdeliver hopen
  obtain ⟨hcnt, hneed⟩ := toNat_counts_of_not_frameDone hopen
  refine ⟨_, exec_receive_waits hreceive, receiveStart_waits_changes hreceive .receive, rfl, rfl, hcnt, ?_, rfl, rfl⟩
  split
  case isTrue h7 => exact congrArg (BitVec.ofNat 33) (needAfter_short h7 lenKnownAt)
  case isFalse h7 =>
    obtain ⟨len, hlen, htotal⟩ := needAfter_long (Nat.not_lt.1 h7) lenKnownAt
    exact ⟨len, hlen, hneed.trans htotal⟩

/-- While no frame is complete an empty chunk is a turn of the loop that changes nothing (R175). -/
theorem reassemble_empty_chunk {acc : List Byte} (hopen : ¬ frameDone acc) (later : List ReadAnswer) :
    reassemble (.chunk [] :: later) acc (needAfter acc lenKnownAt) =
      reassemble later acc (needAfter acc lenKnownAt) := by
  rw [reassemble_chunk, List.append_nil, if_neg hopen]

/-- Settles O44: the loop reaches the empty chunk with what was delivered before it, and goes on with the same. -/
theorem emptyChunkChangesNothing : Obligations.EmptyChunkChangesNothing := by
  intro s before later hshort
  have hopen := not_frameDone_of_short hshort
  have hloop : reassemble (before.map ReadAnswer.chunk ++ .chunk [] :: later) [] (needAfter [] lenKnownAt) =
      reassemble (before.map ReadAnswer.chunk ++ later) [] (needAfter [] lenKnownAt) := by
    rw [reassemble_short before _ [] hopen, reassemble_short before _ [] hopen]
    exact reassemble_empty_chunk hopen later
  have hstart : receiveStart { s with readAnswers := before.map ReadAnswer.chunk ++ .chunk [] :: later } =
      receiveStart { s with readAnswers := before.map ReadAnswer.chunk ++ later } := by
    rw [receiveStart_eq, receiveStart_eq]
    exact receiveFrom_congr hloop rfl
  exact congrArg (afterReceive .receive .next) hstart

/-! ### Corrupt(Incomplete) -/

/-- DECODE of a frame that the loop has completed is never Incomplete (R174). -/
theorem receiveFrame_ne_corrupt_incomplete {all : List Byte} (hdone : frameDone all) (s : State) :
    (receiveFrame (all.take (needAfter all lenKnownAt)) s).result ≠ .corrupt .incomplete := by
  refine receiveResult_ne_corrupt_incomplete (fun he => ?_) s.seq
  rw [decodeBytes_eq] at he
  obtain e | e := splitReply_error he
  · exact checkChain_ne_incomplete s.params.crcp hdone e
  · cases e

theorem receiveStart_ne_corrupt_incomplete {s t : State} (h : receiveStart s = .done t) :
    t.result ≠ .corrupt .incomplete := by
  obtain ⟨rest, e⟩ | ⟨all, rest, hdone, e⟩ | ⟨acc, -, e⟩ := receiveStart_cases s <;> rw [e] at h <;> cases h
  · exact Result.noConfusion
  · exact receiveFrame_ne_corrupt_incomplete hdone _

/-- Settles O45: of the results' codes only Corrupt(Incomplete)'s is outside R205's list, and 0x23 is outside it. -/
theorem receiveNeverReturnsCorruptIncomplete : Obligations.ReceiveNeverReturnsCorruptIncomplete := by
  intro s t h hreturned
  cases exec_answers h with
  | received u hu =>
    have hresult := receiveStart_ne_corrupt_incomplete hu
    obtain ⟨-, hstatus, -⟩ := receiveStart_result hu
    have hlegal : t.status ∈ legalStatus := hstatus ▸ statusOf_mem_legalStatus hresult
    have habsent : 0x23#8 ∉ legalStatus := by decide
    exact ⟨hresult, fun hbad => habsent (hbad ▸ hlegal)⟩
  | receiveWaits u hu => cases hreturned
  | call _ _ hi => cases hi

end Sys2Proof.Proofs
end

section
/-! PROOFS. A RECEIVE that waits (spec/43_channel.md R163, R165, R166, R169, R173) and the end of what it is for
(spec/44_session_pseudo_ops.md R180, R182, R183, R193): the step is RECEIVE from the bytes accumulated, turn by turn,
and then the task's end, by the class of the reply. -/

namespace Sys2Proof.Proofs

open Sys2Proof Sys2Proof.Machine

/-! ### The end of an exchange, by the class of the reply -/

/-- The kind of reply that a task expects; RECEIVE itself expects none (R180, R182, R183, R193). -/
def expects : Task → Option SuccessKind
  | .receive => none
  | .exchange expect => some expect
  | .writeByte => some .ok
  | .readByte => some .memory
  | .range _ _ _ _ => some .memory

/-- A task other than RECEIVE expects some kind. -/
theorem exists_expects {task : Task} (h : task ≠ .receive) : ∃ expect, expects task = some expect := by
  cases task with
  | receive => exact absurd rfl h
  | _ => exact ⟨_, rfl⟩

/-- Where the exchange has ended in an error, the task has: it makes nothing more of that (R180, R207). -/
theorem endTask_of_classify_error {task : Task} {expect : SuccessKind} {u t : State}
    (hexpect : expects task = some expect) (hclassify : classify expect u = t) (hreply : ∀ r, t.result ≠ .received r)
    (hbyte : ∀ b, t.result ≠ .byteRead b) : endTask task u = .next t := by
  have hread (hmemory : classify .memory u = t) : endReadByte u = .next t := by
    rw [endReadByte, hmemory]
    split
    case h_1 r hr => exact absurd hr (hreply r)
    case h_2 => rfl
  cases task with
  | receive => cases hexpect
  | exchange k => cases hexpect; rw [endTask, hclassify]
  | writeByte =>
    cases hexpect
    rw [endTask, endWriteByte, hclassify]
    split
    case h_1 r hr => exact absurd hr (hreply r)
    case h_2 => rfl
  | readByte => cases hexpect; exact hread hclassify
  | range addr i left advance =>
    cases hexpect
    rw [endTask, endRangeByte, hread hclassify]
    dsimp only
    split
    case h_1 b hb => exact absurd hb (hbyte b)
    case h_2 => rfl

section Reply

variable {u : State} {r : Reply} (hr : u.result = .received r)

include hr

theorem classify_of_deviceFailure {k : FailureKind} (hcls : r.cls = .deviceFailure k) (expect : SuccessKind) :
    classify expect u = { u with errInfo := r.code, status := 0x30#8, result := .deviceError r.code } := by
  rw [classify, hr]
  simp only [hcls]
  rfl

theorem classify_of_success {k : SuccessKind} (hcls : r.cls = .success k) (expect : SuccessKind) :
    classify expect u =
      if k = expect then u else { u with errInfo := r.code, status := 0x31#8, result := .unexpectedReply r.code } := by
  rw [classify, hr]
  simp only [hcls]
  rfl

/-- A device failure ends every call with its code (R180, R192). -/
theorem endTask_of_deviceFailure {task : Task} {k : FailureKind} (htask : task ≠ .receive)
    (hcls : r.cls = .deviceFailure k) :
    endTask task u = .next { u with errInfo := r.code, status := 0x30#8, result := .deviceError r.code } := by
  obtain ⟨expect, hexpect⟩ := exists_expects htask
  exact endTask_of_classify_error hexpect (classify_of_deviceFailure hr hcls expect) (fun _ => Result.noConfusion)
    fun _ => Result.noConfusion

/-- So does a success of another kind than the call expects (R180). -/
theorem endTask_of_unexpected {task : Task} {expect k : SuccessKind} (hexpect : expects task = some expect)
    (hcls : r.cls = .success k) (hk : k ≠ expect) :
    endTask task u = .next { u with errInfo := r.code, status := 0x31#8, result := .unexpectedReply r.code } := by
  have hclassify := classify_of_success hr hcls expect
  rw [if_neg hk] at hclassify
  exact endTask_of_classify_error hexpect hclassify (fun _ => Result.noConfusion) fun _ => Result.noConfusion

/-- An exchange returns the reply it expects (R180). -/
theorem endTask_exchange_of_success {k : SuccessKind} (hcls : r.cls = .success k) (expect : SuccessKind) :
    endTask (.exchange expect) u = .next (if k = expect then u
      else { u with errInfo := r.code, status := 0x31#8, result := .unexpectedReply r.code }) :=
  congrArg Host.Outcome.next (classify_of_success hr hcls expect)

/-- WRITE_RAM_BYTE returns Ok with no value (R183). -/
theorem endTask_writeByte_of_success {k : SuccessKind} (hcls : r.cls = .success k) :
    endTask .writeByte u = .next (if k = .ok then { u with status := 0x00#8, result := .ok }
      else { u with errInfo := r.code, status := 0x31#8, result := .unexpectedReply r.code }) := by
  by_cases hk : k = .ok
  · have hclassify := classify_of_success hr hcls .ok
    rw [if_pos hk] at hclassify
    rw [if_pos hk, endTask, endWriteByte, hclassify, hr]
    rfl
  · rw [if_neg hk, endTask_of_unexpected hr rfl hcls hk]

section Memory

variable (hcls : r.cls = .success .memory)

include hcls

/-- A Memory-reply without a data byte has no byte to return (R182, U16). -/
theorem endReadByte_of_noData (hdata : r.data = []) : endReadByte u = .fault .noDataByte := by
  have hclassify : classify .memory u = u := classify_of_success hr hcls .memory
  rw [endReadByte, hclassify, hr]
  simp only [hdata]

/-- With one, it is returned and the rest is dropped (R182). -/
theorem endReadByte_of_data {b : Byte} {rest : List Byte} (hdata : r.data = b :: rest) :
    endReadByte u = .next (returnResult (.byteRead b) u) := by
  have hclassify : classify .memory u = u := classify_of_success hr hcls .memory
  rw [endReadByte, hclassify, hr]
  simp only [hdata]

/-- In a range it is stored, and the range goes on (R193). -/
theorem endTask_range_of_data {b : Byte} {rest : List Byte} (hdata : r.data = b :: rest) (addr : Bits16) (i left : Nat)
    (advance : Bool) :
    endTask (.range addr i left advance) u =
      rangeFrom addr advance left (i + 1) (betweenBytes advance left
        { u with status := 0x00#8, result := .byteRead b, callerBuf := u.callerBuf.write i b }) := by
  rw [endTask, endRangeByte, endReadByte_of_data hr hcls hdata]
  rfl

theorem endTask_range_of_noData (hdata : r.data = []) (addr : Bits16) (i left : Nat) (advance : Bool) :
    endTask (.range addr i left advance) u = .fault .noDataByte := by
  rw [endTask, endRangeByte, endReadByte_of_noData hr hcls hdata]

end Memory

end Reply

/-! ### The step while a RECEIVE waits -/

/-- Whether the agenda is empty or the host's event is next, the step is the transport's answer (R61, R62, R163). -/
theorem step_of_waits {s : State} {task : Task} (hhost : ∀ e, s.agenda.head? = some e → Event.ofLine e = false)
    (hp : s.pending = some task) : step s = resume task s := by
  cases ha : s.agenda with
  | nil => simp only [step, stepNext, ha, hp]
  | cons e later => exact step_of_hostWaits ha (hhost e (by rw [ha, List.head?_cons])) hp

/-- It is RECEIVE from the progress that the registers hold. -/
theorem step_of_progress {s : State} {task : Task} {acc : List Byte} (hbuf : s.rxbuf = bufferOf acc)
    (hcnt : s.rxCnt.toNat = acc.length) (hhost : ∀ e, s.agenda.head? = some e → Event.ofLine e = false)
    (hp : s.pending = some task) :
    step s = afterReceive task (endTask task) (receiveFrom acc s.rxNeed.toNat (drawReadAnswer s)) := by
  rw [step_of_waits hhost hp, resume, receiveResume_of hbuf hcnt]

/-- An answer at hand is the next one: no free one is drawn. -/
theorem drawReadAnswer_of_cons {s : State} {a : ReadAnswer} {later : List ReadAnswer} (h : s.readAnswers = a :: later) :
    drawReadAnswer s = s := by
  unfold drawReadAnswer
  split
  case h_1 hnil => cases hnil.symm.trans h
  case h_2 => rfl

/-- The state that the instruction RECEIVE answers with a phase. -/
def receiveState : Phase → State
  | .done u => u
  | .waits u => { u with pending := some .receive }

/-- RECEIVE whose first chunk is the bytes accumulated goes on as the waiting one does (R173). -/
theorem exec_receive_of_accumulated {acc : List Byte} (hopen : ¬ frameDone acc) (answers : List ReadAnswer)
    (s : State) :
    exec .receive { s with readAnswers := .chunk acc :: answers } =
      .next (receiveState (receiveFrom acc (needAfter acc lenKnownAt) { s with readAnswers := answers })) := by
  rw [← receiveStart_chunk s hopen answers]
  cases hstart : receiveStart { s with readAnswers := .chunk acc :: answers } with
  | done u => exact exec_receive_done hstart
  | waits u => exact exec_receive_waits hstart

theorem receiveState_changes (acc : List Byte) (need : Nat) (s : State) :
    changesOnlyReceive s (receiveState (receiveFrom acc need s)) := by
  have hchanges := receiveFrom_changes acc need s
  cases hphase : receiveFrom acc need s with
  | done u => rw [hphase] at hchanges; exact hchanges
  | waits u => rw [hphase] at hchanges; exact changesOnlyReceive_pending hchanges (some .receive)

theorem receiveFrom_done_pending {acc : List Byte} {need : Nat} {s u : State} (h : receiveFrom acc need s = .done u) :
    u.pending = none := by
  unfold receiveFrom at h
  split at h <;> cases h <;> rfl

/-- What follows a RECEIVE can be read off the state it answers: the task's end, or the same wait for the task. -/
theorem afterReceive_eq_ite (task : Task) (k : State → Host.Outcome State Fault Refusal) (acc : List Byte) (need : Nat)
    (s : State) :
    afterReceive task k (receiveFrom acc need s) =
      if (receiveState (receiveFrom acc need s)).pending = none then k (receiveState (receiveFrom acc need s))
      else .next { receiveState (receiveFrom acc need s) with pending := some task } := by
  cases hphase : receiveFrom acc need s with
  | done u => exact (if_pos (receiveFrom_done_pending hphase)).symm
  | waits u => exact (if_neg (Option.some_ne_none _)).symm

theorem receiveFrame_ne_byteRead (frame : List Byte) (s : State) (b : Byte) :
    (receiveFrame frame s).result ≠ .byteRead b := by
  rw [receiveFrame, endReceive_result]
  cases splitReply s.params (decodeBytes s.params.crcp frame) with
  | error e => exact Result.noConfusion
  | unknown f code => exact Result.noConfusion
  | reply f r =>
    rw [receiveResult]
    split <;> exact Result.noConfusion

/-- The state with the progress of a RECEIVE that has accumulated these bytes (R26, R163). -/
def withProgress (acc : List Byte) (s : State) : State :=
  { s with
    rxbuf := bufferOf acc, rxCnt := BitVec.ofNat 33 acc.length, rxNeed := BitVec.ofNat 33 (needAfter acc lenKnownAt) }

/-- With an answer behind a chunk that completes no frame, the step is that of a RECEIVE that waits with the chunk
appended, its counts in RX_CNT and RX_NEED (R164, R165). -/
theorem step_of_chunk_appended {s : State} {task : Task} {acc c : List Byte} {b : ReadAnswer} {later : List ReadAnswer}
    (hanswers : s.readAnswers = .chunk c :: b :: later) (hopen : ¬ frameDone (acc ++ c))
    (hhost : ∀ e, s.agenda.head? = some e → Event.ofLine e = false) (hp : s.pending = some task)
    (hstep : step s = afterReceive task (endTask task) (receiveFrom acc (needAfter acc lenKnownAt) s)) :
    step s = step (withProgress (acc ++ c) { s with readAnswers := b :: later }) := by
  obtain ⟨hcnt, hneed⟩ := toNat_counts_of_not_frameDone hopen
  have hnext := step_of_progress (s := withProgress (acc ++ c) { s with readAnswers := b :: later }) rfl hcnt hhost hp
  rw [hstep, receiveFrom_append hanswers hopen, hnext, drawReadAnswer_of_cons rfl]
  exact congrArg _ (receiveFrom_congr (congrArg _ hneed) rfl).symm

/-- Settles O9: the step is RECEIVE from the bytes accumulated, taken apart by the transport's next answer; the task's
end goes by the kind of the reply. -/
theorem waitingReceiveTakesTheNextAnswer : Obligations.WaitingReceiveTakesTheNextAnswer := by
  constructor
  · intro s task a later hinv hhost hp hanswer
    obtain ⟨acc, hbuf, hcnt, hneed, hopen⟩ := hinv.pending_ok (by simp [hp])
    obtain ⟨d, hdraw⟩ := drawReadAnswer_eq hanswer
    have hstep := step_of_progress hbuf hcnt hhost hp
    rw [hneed, hdraw] at hstep
    refine ⟨acc, d, _, hbuf, exec_receive_of_accumulated hopen (a :: later) { s with draws := d },
      receiveState_changes acc _ _, hstep.trans (afterReceive_eq_ite task _ acc _ _), ?_⟩
    cases a with
    | error =>
      have hphase := receiveFrom_error (s := { s with readAnswers := .error :: later, draws := d }) rfl acc
        (needAfter acc lenKnownAt)
      rw [hphase] at hstep ⊢
      have hend := endTask_error (u := receiveNothing { s with readAnswers := later, draws := d })
        (fun _ => Result.noConfusion) (fun _ => Result.noConfusion) task
      exact ⟨hstep.trans hend, rfl, rfl, rfl, rfl, rfl⟩
    | chunk c =>
      dsimp only
      split
      case isTrue hdone =>
        have hphase := receiveFrom_complete (s := { s with readAnswers := .chunk c :: later, draws := d }) rfl hdone
        rw [hphase] at hstep ⊢
        refine ⟨hstep, fun hreply => hstep.trans (endTask_error hreply (receiveFrame_ne_byteRead _ _) task),
          rfl, rfl, rfl, rfl, ?_⟩
        cases hd : splitReply s.params (decodeBytes s.params.crcp ((acc ++ c).take (needAfter (acc ++ c) 7))) with
        | error e => trivial
        | unknown f code =>
          obtain ⟨-, hregisters⟩ := receiveFrame_of_unknown (s := { s with readAnswers := later, draws := d }) hd
          exact hregisters
        | reply f r =>
          obtain ⟨hseq, hlen, hcode, hend⟩ :=
            receiveFrame_of_reply (s := { s with readAnswers := later, draws := d }) hd
          refine ⟨hseq, hlen, hcode, fun hmatch => ?_⟩
          rw [if_pos hmatch] at hend
          exact hend.2
      case isFalse hmore =>
        obtain ⟨hcnt, hneed⟩ := toNat_counts_of_not_frameDone hmore
        cases later with
        | nil =>
          have hphase := receiveFrom_append (s := { s with readAnswers := [.chunk c], draws := d }) rfl hmore
          rw [receiveFrom_nil (s := { s with readAnswers := [], draws := d }) rfl] at hphase
          rw [hphase] at hstep ⊢
          exact (if_pos rfl).mpr ⟨hstep, rfl, rfl, hcnt, hneed, rfl, rfl, rfl⟩
        | cons b later =>
          obtain hanswers | ⟨-, -, hnone⟩ := hanswer
          · rw [← hdraw, drawReadAnswer_of_cons hanswers] at hstep
            exact (if_neg (List.cons_ne_nil b later)).mpr
              ⟨_, step_of_chunk_appended hanswers hmore hhost hp hstep, rfl, hcnt, hneed⟩
          · cases hnone
  · intro u r hr unexpected
    refine ⟨rfl, fun task k htask hcls => endTask_of_deviceFailure hr htask hcls, fun k hcls => ?_⟩
    refine ⟨endTask_exchange_of_success hr hcls, endTask_writeByte_of_success hr hcls, fun addr i left advance => ?_⟩
    split
    case isTrue hk =>
      subst hk
      cases hdata : r.data with
      | nil => exact ⟨endReadByte_of_noData hr hcls hdata, endTask_range_of_noData hr hcls hdata addr i left advance⟩
      | cons b rest =>
        exact ⟨endReadByte_of_data hr hcls hdata, endTask_range_of_data hr hcls hdata addr i left advance⟩
    case isFalse hk => exact ⟨endTask_of_unexpected hr rfl hcls hk, endTask_of_unexpected hr rfl hcls hk⟩

end Sys2Proof.Proofs
end

section
/-! PROOFS. A call is one exchange (spec/44_session_pseudo_ops.md R180 to R188, R192): SEND of its command, RECEIVE, and
the end of its task; so what it answers goes by SEND's result, by RECEIVE's and by the class of the reply. -/

namespace Sys2Proof.Proofs

open Sys2Proof Sys2Proof.Machine

/-! ### What an exchange leaves unchanged -/

theorem sendFrame_changesOnlyExchange (cmd : List Byte) (s : State) : changesOnlyExchange s (sendFrame cmd s) := rfl

/-- RECEIVE writes nothing that is not the exchange's to write (R180). -/
theorem changesOnlyExchange_receive {s v u : State} (hv : changesOnlyExchange s v) (hu : changesOnlyReceive v u) :
    changesOnlyExchange s u := by
  rw [changesOnlyExchange, show u = _ from hu, show v = _ from hv]

section Frame

variable {s t : State} (h : changesOnlyExchange s t)

include h

/-- The value returned and its code are the exchange's to write (R205). -/
theorem changesOnlyExchange_return (x : Result) (status code : Byte) :
    changesOnlyExchange s { t with errInfo := code, status := status, result := x } :=
  (congrArg (fun u : State => { u with errInfo := code, status := status, result := x }) (show t = _ from h) :)

theorem changesOnlyExchange_seq : t.seq = s.seq := (congrArg State.seq (show t = _ from h) :)
theorem changesOnlyExchange_params : t.params = s.params := (congrArg State.params (show t = _ from h) :)
theorem changesOnlyExchange_callerBuf : t.callerBuf = s.callerBuf := (congrArg State.callerBuf (show t = _ from h) :)

end Frame

/-! ### The commands of the memory calls -/

theorem length_memArgs (p : Params) (addr : Bits16) : (memArgs p addr).length = p.countBytes + p.addrBytes + 1 := by
  simp only [memArgs, List.cons_append, List.length_cons, List.length_append, length_leBytes]

theorem length_readCommand (p : Params) (addr : Bits16) :
    (readCommand p addr).length = p.countBytes + p.addrBytes + 2 := by
  rw [readCommand, List.length_cons, length_memArgs]

theorem length_writeCommand (p : Params) (addr : Bits16) (value : Byte) :
    (writeCommand p addr value).length = p.countBytes + p.addrBytes + 3 := by
  rw [writeCommand, List.length_append, List.length_cons, length_memArgs, List.length_singleton]

/-! ### A call whose reply arrives -/

/-- The next frame goes out, and behind it a reply with SEQ arrives, in any chunks (R57, R58, R180). -/
def replyArrives (s : State) (code : Byte) (data : List Byte) : Prop :=
  ∃ sends chunks later excess, s.writeAnswers = .ok :: sends ∧ delivers s chunks later ∧
    chunks.flatten = encodeFrame s.params.crcp s.seq (code :: data) ++ excess ∧ data.length + 1 < 2 ^ 32

/-- The call answers the end of its task, in the state in which RECEIVE has returned the reply. -/
theorem call_of_reply {s : State} {i : Instr} {cmd : List Byte} {task : Task} {code : Byte} {data : List Byte}
    (hcmd : firstCommand s.params i = some cmd) (htask : firstTask s.params i = some task) (hlen : cmd.length < 2 ^ 32)
    (harrives : replyArrives s code data) (hknown : replyClass s.params code ≠ .unknown) :
    ∃ u : State, exec i s = endTask task u ∧ changesOnlyExchange s u ∧
      u.result = .received ⟨code, replyClass s.params code, data⟩ ∧ u.status = 0x00#8 ∧ u.pending = none ∧
      u.sent = s.sent ++ [encodeFrame s.params.crcp s.seq cmd] ∧ u.rxSeq = s.seq ∧ u.rxCode = code := by
  obtain ⟨sends, chunks, later, excess, hwrite, hdeliver, hframe, hdata⟩ := harrives
  obtain ⟨task', htask', hexec⟩ := exec_call_task hcmd
  obtain rfl : task = task' := Option.some.inj (htask.symm.trans htask')
  obtain ⟨u, hexchange, hchanges, hresult, hstatus, hpending, hsent, hrxSeq, hrxCode, -⟩ :=
    exchange_reply hwrite hdeliver hframe hdata hknown hlen
  exact ⟨u, hexec.trans (hexchange _ _), hchanges, hresult, hstatus, hpending, hsent, hrxSeq, hrxCode⟩

/-- Settles O52: the end of an exchange leaves a reply of the expected kind as RECEIVE has returned it. -/
theorem exchangeReturnsTheExpectedReply : Obligations.ExchangeReturnsTheExpectedReply := by
  intro s i cmd expect hcall hlen sends chunks later code data excess hwrite hdeliver hframe hdata hclass
  have ⟨hcmd, htask⟩ : firstCommand s.params i = some cmd ∧ firstTask s.params i = some (.exchange expect) := by
    obtain ⟨rfl, rfl, rfl⟩ | ⟨args, rfl, rfl, rfl⟩ | ⟨args, rfl, rfl, rfl⟩ | ⟨args, rfl, rfl, rfl⟩ |
      ⟨args, rfl, rfl, rfl⟩ | ⟨args, rfl, rfl, rfl⟩ := hcall <;> exact ⟨rfl, rfl⟩
  obtain ⟨u, hexec, hchanges, hresult, hstatus, hpending, hsent, hrxSeq, hrxCode⟩ := call_of_reply hcmd htask hlen
    ⟨sends, chunks, later, excess, hwrite, hdeliver, hframe, hdata⟩ (by simp [hclass])
  have hend := endTask_exchange_of_success hresult hclass expect
  rw [if_pos rfl] at hend
  rw [hclass] at hresult
  exact ⟨u, hexec.trans hend, hchanges, hresult, hstatus, hsent, hrxSeq, hrxCode, hpending⟩

/-- Settles O53: the end of READ_RAM_BYTE, by whether the Memory-reply has a data byte. -/
theorem readRamByteReturnsTheFirstByte : Obligations.ReadRamByteReturnsTheFirstByte := by
  intro s addr sends chunks later code data excess hwidths hwrite hdeliver hframe hdata hclass
  obtain ⟨u, hexec, hchanges, hresult, -, hpending, hsent, -, -⟩ :=
    call_of_reply (i := .readRamByte addr) rfl rfl ((length_readCommand s.params addr).trans_lt hwidths)
      ⟨sends, chunks, later, excess, hwrite, hdeliver, hframe, hdata⟩ (by simp [hclass])
  cases data with
  | nil => exact hexec.trans (endReadByte_of_noData hresult hclass rfl)
  | cons b rest =>
    exact ⟨_, hexec.trans (endReadByte_of_data hresult hclass rfl),
      changesOnlyExchange_return hchanges (.byteRead b) 0x00#8 u.errInfo, rfl, rfl, hpending, hsent⟩

/-- Settles O54: the end of WRITE_RAM_BYTE on the kind that it expects. -/
theorem writeRamByteSucceedsOnOk : Obligations.WriteRamByteSucceedsOnOk := by
  intro s addr value sends chunks later code data excess hwidths hwrite hdeliver hframe hdata hclass
  obtain ⟨u, hexec, hchanges, hresult, -, hpending, hsent, -, -⟩ :=
    call_of_reply (i := .writeRamByte addr value) rfl rfl ((length_writeCommand s.params addr value).trans_lt hwidths)
      ⟨sends, chunks, later, excess, hwrite, hdeliver, hframe, hdata⟩ (by simp [hclass])
  have hend := endTask_writeByte_of_success hresult hclass
  rw [if_pos rfl] at hend
  exact ⟨_, hexec.trans hend, changesOnlyExchange_return hchanges .ok 0x00#8 u.errInfo, rfl, rfl, hpending, hsent⟩

/-- Settles O55: a device failure, or a success of another kind than the task expects, ends the task with its code. -/
theorem exchangeCarriesTheObservedCode : Obligations.ExchangeCarriesTheObservedCode := by
  intro s i expect hcall sends chunks later code data excess hwrite hdeliver hframe hdata hknown hother
  have ⟨cmd, task, hcmd, htask, hexpect, hlen⟩ : ∃ cmd task, firstCommand s.params i = some cmd ∧
      firstTask s.params i = some task ∧ expects task = some expect ∧ cmd.length < 2 ^ 32 := by
    obtain ⟨rfl, rfl⟩ | ⟨addr, rfl, rfl, hwidths⟩ | ⟨addr, value, rfl, rfl, hwidths⟩ | ⟨args, rfl, rfl, hargs⟩ |
      ⟨args, rfl, rfl, hargs⟩ | ⟨args, rfl, rfl, hargs⟩ | ⟨args, rfl, rfl, hargs⟩ | ⟨args, rfl, rfl, hargs⟩ := hcall
    · exact ⟨_, _, rfl, rfl, rfl, by decide⟩
    · exact ⟨_, _, rfl, rfl, rfl, (length_readCommand s.params addr).trans_lt hwidths⟩
    · exact ⟨_, _, rfl, rfl, rfl, (length_writeCommand s.params addr value).trans_lt hwidths⟩
    all_goals exact ⟨_, _, rfl, rfl, rfl, hargs⟩
  obtain ⟨u, hexec, hchanges, hresult, -, hpending, -, -, -⟩ := call_of_reply hcmd htask hlen
    ⟨sends, chunks, later, excess, hwrite, hdeliver, hframe, hdata⟩ hknown
  cases hclass : replyClass s.params code with
  | unknown => exact absurd hclass hknown
  | deviceFailure k =>
    have htask' : task ≠ .receive := by rintro rfl; cases hexpect
    exact ⟨_, hexec.trans (endTask_of_deviceFailure hresult htask' hclass), changesOnlyExchange_return hchanges _ _ _,
      rfl, hpending, fun _ => ⟨rfl, rfl⟩, by simp⟩
  | success k =>
    have hk : k ≠ expect := fun e => hother (e ▸ hclass)
    exact ⟨_, hexec.trans (endTask_of_unexpected hresult hexpect hclass hk), changesOnlyExchange_return hchanges _ _ _,
      rfl, hpending, by simp, fun _ => ⟨rfl, rfl⟩⟩

/-! ### A call whose SEND fails -/

/-- No RECEIVE is made (R180). -/
theorem exchange_of_error {s : State} {cmd : List Byte} {n : Nat} (hlen : cmd.length < 2 ^ 32)
    (hwrite : nextWriteAnswer s = .error n) (task : Task) (k : State → Host.Outcome State Fault Refusal) :
    exchange task cmd k s = .next (sendFrame cmd s) := by
  rw [exchange, if_pos (fitsPayload_iff.2 hlen), hwrite]

/-- Settles O56: the call answers the state that SEND leaves. -/
theorem exchangeEndsOnTransportError : Obligations.ExchangeEndsOnTransportError := by
  intro s i cmd k sends hcmd hlen hwrites
  have hwrite := nextWriteAnswer_of_cons hwrites
  obtain ⟨task, -, hexec⟩ := exec_call_task hcmd
  refine ⟨sendFrame cmd s, hexec.trans (exchange_of_error hlen hwrite task _), sendFrame_changesOnlyExchange cmd s,
    ?_, ?_, ?_, sendFrame_seq cmd s, sendFrame_readAnswers cmd s, sendFrame_rxbuf cmd s, sendFrame_pending cmd s⟩
  · rw [sendFrame_result, hwrite, sendResult]
  · rw [sendFrame_status, hwrite]
    rfl
  · rw [sendFrame_sent, hwrite, reachedLine]

/-! ### A call as SEND, RECEIVE and the end of its task -/

theorem exec_receive_eq (s : State) : exec .receive s = .next (receiveState (receiveStart s)) := by
  cases hstart : receiveStart s with
  | done u => exact exec_receive_done hstart
  | waits u => exact exec_receive_waits hstart

theorem exchange_of_ok {s : State} {cmd : List Byte} (hlen : cmd.length < 2 ^ 32) (hwrite : nextWriteAnswer s = .ok)
    (task : Task) (k : State → Host.Outcome State Fault Refusal) :
    exchange task cmd k s = afterReceive task k (receiveStart (sendFrame cmd s)) := by
  rw [exchange, if_pos (fitsPayload_iff.2 hlen), hwrite]

/-- A command too long for the length field is refused (R134, U14). -/
theorem exchange_of_long {s : State} {cmd : List Byte} (hlen : ¬ cmd.length < 2 ^ 32) (task : Task)
    (k : State → Host.Outcome State Fault Refusal) : exchange task cmd k s = .refused .payloadTooLong := by
  rw [exchange, if_neg (mt fitsPayload_iff.1 hlen)]

/-- SEND that answers Ok: its data fits, and the transport has taken the frame (R160, R161). -/
theorem exec_send_ok {s m : State} {data : List Byte} (h : exec (.send data) s = .next m) (hok : m.result = .ok) :
    data.length < 2 ^ 32 ∧ nextWriteAnswer s = .ok ∧ m = sendFrame data s := by
  cases exec_answers h with
  | send data hfits =>
    refine ⟨hfits, ?_, rfl⟩
    rw [sendFrame_result] at hok
    cases hwrite : nextWriteAnswer s with
    | ok => rfl
    | error n => rw [hwrite, sendResult] at hok; cases hok
  | call _ _ hi => cases hi

/-- Settles O57: by whether RECEIVE has returned; where it has returned no reply, the task makes nothing more of it. -/
theorem callIsSendThenReceive : Obligations.CallIsSendThenReceive := by
  intro s m u i cmd hcmd hsend hok hreceive
  obtain ⟨hlen, hwrite, rfl⟩ := exec_send_ok hsend hok
  obtain ⟨task, htask, hexec⟩ := exec_call_task hcmd
  rw [exchange_of_ok hlen hwrite] at hexec
  rw [exec_receive_eq] at hreceive
  obtain rfl := Host.Outcome.next.inj hreceive
  cases hstart : receiveStart (sendFrame cmd s) with
  | waits v =>
    rw [hstart] at hexec
    exact ⟨.inr rfl, ⟨task, htask, hexec⟩, fun hnone => absurd hnone (Option.some_ne_none _)⟩
  | done v =>
    rw [hstart] at hexec
    have hchanges := changesOnlyExchange_receive (sendFrame_changesOnlyExchange cmd s)
      (receiveStart_done_changes hstart)
    obtain ⟨hpending, hstatus, hresult⟩ := receiveStart_result hstart
    refine ⟨.inl hpending, ⟨task, htask, hexec.trans (if_pos hpending).symm⟩, fun _ hreply => ?_⟩
    have herror : v.result = .noReply ∨ v.result = .seqMismatch ∨ ∃ e, v.result = .corrupt e := by
      obtain h | h | h | ⟨r, h⟩ := hresult
      · exact .inl h
      · exact .inr (.inl h)
      · exact .inr (.inr h)
      · exact absurd h (hreply r)
    have hbyte : ∀ b, v.result ≠ .byteRead b := by
      intro b hb
      rw [hb] at herror
      simp at herror
    exact ⟨hexec.trans (endTask_error hreply hbyte task), hchanges, changesOnlyExchange_seq hchanges, hstatus, herror⟩

end Sys2Proof.Proofs
end

section
/-! PROOFS. READ_RANGE (spec/44_session_pseudo_ops.md R193, R190, R182): a turn of the range is READ_RAM_BYTE of that
byte's address; a turn that reads its byte leaves a state from which a range of any length goes on. -/

namespace Sys2Proof.Proofs

open Sys2Proof Sys2Proof.Machine

/-! ### The end of a byte's exchange -/

theorem classify_pending (expect : SuccessKind) (s : State) : (classify expect s).pending = s.pending := by
  obtain e | ⟨r, x, -, -, e⟩ := classify_cases expect s <;> rw [e]
  rfl

theorem endReadByte_pending {s t : State} (h : endReadByte s = .next t) : t.pending = s.pending := by
  obtain rfl | ⟨b, rfl⟩ := endReadByte_next h
  · exact classify_pending .memory s
  · exact classify_pending .memory s

theorem endReadByte_ne_rangeRead {s t : State} (hs : s.result ≠ .rangeRead) (h : endReadByte s = .next t) :
    t.result ≠ .rangeRead := by
  obtain rfl | ⟨b, rfl⟩ := endReadByte_next h
  · obtain e | ⟨r, x, -, rfl | rfl, e⟩ := classify_cases .memory s <;> rw [e]
    · exact hs
    · exact Result.noConfusion
    · exact Result.noConfusion
  · exact Result.noConfusion

theorem receiveStart_ne_rangeRead {s u : State} (h : receiveStart s = .done u) : u.result ≠ .rangeRead := by
  obtain ⟨-, -, e | e | ⟨_, e⟩ | ⟨_, e⟩⟩ := receiveStart_result h <;> rw [e] <;> exact Result.noConfusion

theorem sendResult_ne_rangeRead (a : WriteAnswer) : sendResult a ≠ .rangeRead := by
  cases a <;> exact Result.noConfusion

/-- Where READ_RAM_BYTE has returned a byte, it is stored and the range goes on (R193). -/
theorem endRangeByte_of_byte {i : Nat} {k : State → Host.Outcome State Fault Refusal} {s t : State} {b : Byte}
    (h : endReadByte s = .next t) (hb : t.result = .byteRead b) :
    endRangeByte i k s = k { t with callerBuf := t.callerBuf.write i b } := by
  rw [endRangeByte, h]
  simp only [hb]

/-- Where it has ended in another way, so does the range (R207, log 12). -/
theorem endRangeByte_of_error {i : Nat} {k : State → Host.Outcome State Fault Refusal} {s t : State}
    (h : endReadByte s = .next t) (hb : ∀ b, t.result ≠ .byteRead b) : endRangeByte i k s = .next t := by
  rw [endRangeByte, h]
  dsimp only
  split
  case h_1 b hr => exact absurd hr (hb b)
  case h_2 => rfl

/-! ### A turn of the range -/

/-- What a range makes of READ_RAM_BYTE's answer (R193). -/
def rangeTurn (addr : Bits16) (advance : Bool) (left i : Nat) :
    Host.Outcome State Fault Refusal → Host.Outcome State Fault Refusal
  | .next u =>
    if u.pending = none then
      match u.result with
      | .byteRead b =>
        rangeFrom addr advance left (i + 1) (betweenBytes advance left { u with callerBuf := u.callerBuf.write i b })
      | _ => .next u
    else .next { u with pending := some (.range addr i left advance) }
  | .fault f => .fault f
  | .refused r => .refused r

theorem betweenBytes_eq_ite (advance : Bool) (left : Nat) (s : State) :
    betweenBytes advance left s =
      if advance = true ∧ left ≠ 0 then { s with seq := s.seq + 1#16, status := 0x00#8, result := .ok } else s := by
  simp only [betweenBytes, Bool.and_eq_true, bne_iff_ne]
  rfl

theorem betweenBytes_zero (advance : Bool) (s : State) : betweenBytes advance 0 s = s := by
  rw [betweenBytes_eq_ite, if_neg fun hadv => hadv.2 rfl]

/-- How many bytes are left does not matter, once any is. -/
theorem betweenBytes_eq_one (advance : Bool) {left : Nat} (hleft : left ≠ 0) (s : State) :
    betweenBytes advance left s = betweenBytes advance 1 s := by
  simp only [betweenBytes_eq_ite, ne_eq, hleft, Nat.one_ne_zero]

/-- What was returned last does not matter to a range with a byte to read, with SEQ.ADV before it or without. -/
theorem rangeFrom_betweenBytes_returnResult (addr : Bits16) (advance : Bool) (left i k : Nat) (x : Result) (s : State) :
    rangeFrom addr advance (left + 1) i (betweenBytes advance k (returnResult x s)) =
      rangeFrom addr advance (left + 1) i (betweenBytes advance k s) := by
  rw [betweenBytes_eq_ite, betweenBytes_eq_ite]
  split <;> rfl

section Turn

variable (addr : Bits16) (advance : Bool) (left i : Nat)

theorem rangeTurn_of_byte {u : State} {b : Byte} (hp : u.pending = none) (hb : u.result = .byteRead b) :
    rangeTurn addr advance left i (.next u) = rangeFrom addr advance left (i + 1)
      (betweenBytes advance left { u with callerBuf := u.callerBuf.write i b }) := by
  simp only [rangeTurn, if_pos hp, hb]

theorem rangeTurn_of_error {u : State} (hp : u.pending = none) (hb : ∀ b, u.result ≠ .byteRead b) :
    rangeTurn addr advance left i (.next u) = .next u := by
  rw [rangeTurn, if_pos hp]
  split
  case h_1 b hr => exact absurd hr (hb b)
  case h_2 => rfl

theorem rangeTurn_of_waits {u : State} (hp : u.pending ≠ none) :
    rangeTurn addr advance left i (.next u) = .next { u with pending := some (.range addr i left advance) } := by
  rw [rangeTurn, if_neg hp]

/-- Once RECEIVE has returned, the end of the range's byte is the turn made of the end of READ_RAM_BYTE. -/
theorem endRangeByte_eq_rangeTurn {u : State} (hp : u.pending = none) :
    endRangeByte i (fun t => rangeFrom addr advance left (i + 1) (betweenBytes advance left t)) u =
      rangeTurn addr advance left i (endReadByte u) := by
  cases hread : endReadByte u with
  | next t =>
    have ht : t.pending = none := (endReadByte_pending hread).trans hp
    by_cases hbyte : ∃ b, t.result = .byteRead b
    · obtain ⟨b, hb⟩ := hbyte
      rw [endRangeByte_of_byte hread hb, rangeTurn_of_byte addr advance left i ht hb]
    · rw [not_exists] at hbyte
      rw [endRangeByte_of_error hread hbyte, rangeTurn_of_error addr advance left i ht hbyte]
  | fault f => rw [endRangeByte, hread, rangeTurn]
  | refused r => rw [endRangeByte, hread, rangeTurn]

/-- With nothing waiting at its start, the range's turn is READ_RAM_BYTE of the byte's address (R193). -/
theorem rangeFrom_succ {m : State} (hp : m.pending = none) :
    rangeFrom addr advance (left + 1) i m =
      rangeTurn addr advance left i (exec (.readRamByte (rangeAddr addr i)) m) := by
  rw [rangeFrom, exec, execReadRamByte]
  by_cases hlen : (readCommand m.params (rangeAddr addr i)).length < 2 ^ 32
  · cases hwrite : nextWriteAnswer m with
    | error n =>
      rw [exchange_of_error hlen hwrite, exchange_of_error hlen hwrite, rangeTurn_of_error]
      · rw [sendFrame_pending, hp]
      · rw [sendFrame_result, hwrite]
        exact fun _ => Result.noConfusion
    | ok =>
      rw [exchange_of_ok hlen hwrite, exchange_of_ok hlen hwrite]
      cases hstart : receiveStart (sendFrame (readCommand m.params (rangeAddr addr i)) m) with
      | waits u => exact (rangeTurn_of_waits addr advance left i (u := { u with pending := some .readByte })
        (Option.some_ne_none _)).symm
      | done u =>
        obtain ⟨hpending, -, -⟩ := receiveStart_result hstart
        exact endRangeByte_eq_rangeTurn addr advance left i hpending
  · rw [exchange_of_long hlen, exchange_of_long hlen, rangeTurn]

end Turn

theorem rangeAddr_of_lt {addr : Bits16} {i : Nat} (h : addr.toNat + i < 2 ^ 16) :
    rangeAddr addr i = addr + BitVec.ofNat 16 i := if_pos h

/-- Settles O58: the turn of the range, with the host's SEQ.ADV written out. -/
theorem rangeIsOneExchangeAByte : Obligations.RangeIsOneExchangeAByte := by
  refine ⟨fun _ _ _ _ => rfl, fun _ _ _ _ => rfl, fun m addr i left advance hp => ⟨rangeAddr_of_lt, ?_⟩⟩
  rw [rangeFrom_succ addr advance left i hp]
  cases exec (.readRamByte (rangeAddr addr i)) m with
  | next u =>
    dsimp only
    split
    case isTrue hu =>
      split
      case h_1 b hb => rw [rangeTurn_of_byte addr advance left i hu hb, betweenBytes_eq_ite]
      case h_2 hb => exact rangeTurn_of_error addr advance left i hu hb
    case isFalse hu => exact rangeTurn_of_waits addr advance left i hu
  | fault f => rfl
  | refused r => rfl

/-! ### A range that fills the caller's buffer -/

/-- SEQ of a range's byte i, as the host's policy has it, from the SEQ at the range's start (R190). -/
def seqAt (advance : Bool) (seq : Bits16) (i : Nat) : Bits16 := if advance then seq + BitVec.ofNat 16 i else seq

theorem seqAt_zero (advance : Bool) (seq : Bits16) : seqAt advance seq 0 = seq := by
  cases advance <;> simp [seqAt]

/-- SEQ after a byte with `left` bytes behind it: the host issues SEQ.ADV only between two bytes (R190). -/
def seqBetween (advance : Bool) (left : Nat) (seq : Bits16) : Bits16 :=
  if advance = true ∧ left ≠ 0 then seq + 1#16 else seq

/-- Between two bytes the host touches SEQ and what an operation returns, and nothing else (R171). -/
theorem betweenBytes_changes (advance : Bool) (left : Nat) (s : State) :
    betweenBytes advance left s = { s with
      seq := seqBetween advance left s.seq, status := (betweenBytes advance left s).status,
      result := (betweenBytes advance left s).result } := by
  rw [betweenBytes_eq_ite, seqBetween]
  split <;> rfl

section Between

variable (advance : Bool) (left : Nat) (s : State)

@[simp] theorem betweenBytes_seq : (betweenBytes advance left s).seq = seqBetween advance left s.seq :=
  (congrArg State.seq (betweenBytes_changes advance left s) :)
@[simp] theorem betweenBytes_params : (betweenBytes advance left s).params = s.params :=
  (congrArg State.params (betweenBytes_changes advance left s) :)
@[simp] theorem betweenBytes_pending : (betweenBytes advance left s).pending = s.pending :=
  (congrArg State.pending (betweenBytes_changes advance left s) :)
@[simp] theorem betweenBytes_callerBuf : (betweenBytes advance left s).callerBuf = s.callerBuf :=
  (congrArg State.callerBuf (betweenBytes_changes advance left s) :)
@[simp] theorem betweenBytes_readAnswers : (betweenBytes advance left s).readAnswers = s.readAnswers :=
  (congrArg State.readAnswers (betweenBytes_changes advance left s) :)
@[simp] theorem betweenBytes_writeAnswers : (betweenBytes advance left s).writeAnswers = s.writeAnswers :=
  (congrArg State.writeAnswers (betweenBytes_changes advance left s) :)
@[simp] theorem betweenBytes_sent : (betweenBytes advance left s).sent = s.sent :=
  (congrArg State.sent (betweenBytes_changes advance left s) :)

end Between

/-- Byte i of what is left is byte i + 1 of the whole. -/
theorem seqAt_seqBetween (advance : Bool) {left : Nat} (hleft : left ≠ 0) (seq : Bits16) (i : Nat) :
    seqAt advance (seqBetween advance left seq) i = seqAt advance seq (i + 1) := by
  cases advance with
  | false => rfl
  | true =>
    rw [seqBetween, if_pos ⟨rfl, hleft⟩, seqAt, seqAt, if_pos rfl, if_pos rfl, Nat.add_comm i 1, BitVec.ofNat_add,
      BitVec.add_assoc]

/-- So the range's last byte is the last of what is left, or the byte itself. -/
theorem seqAt_last (advance : Bool) (left : Nat) (seq : Bits16) :
    seqAt advance (seqBetween advance left seq) (left - 1) = seqAt advance seq left := by
  cases left with
  | zero => rw [seqBetween, if_neg fun h => h.2 rfl]
  | succ n => exact seqAt_seqBetween advance (Nat.succ_ne_zero n) seq n

/-- A turn whose reply arrives in one chunk: the range goes on, whatever its length, from a state with the byte
stored. -/
theorem rangeFrom_of_reply {s : State} {addr : Bits16} {i : Nat} {code b : Byte} {sends : List WriteAnswer}
    {later : List ReadAnswer} (hwidths : s.params.countBytes + s.params.addrBytes + 2 < 2 ^ 32)
    (hclass : replyClass s.params code = .success .memory) (hwrites : s.writeAnswers = .ok :: sends)
    (hreads : s.readAnswers = .chunk (encodeFrame s.params.crcp s.seq [code, b]) :: later) (advance : Bool) :
    ∃ w : State, (∀ left, rangeFrom addr advance (left + 1) i s =
        rangeFrom addr advance left (i + 1) (betweenBytes advance left w)) ∧
      w.params = s.params ∧ w.seq = s.seq ∧ w.callerBuf = s.callerBuf.write i b ∧ w.writeAnswers = sends ∧
      w.readAnswers = later ∧
      w.sent = s.sent ++ [encodeFrame s.params.crcp s.seq (readCommand s.params (rangeAddr addr i))] := by
  have hdeliver : delivers s [encodeFrame s.params.crcp s.seq [code, b]] later := hreads
  obtain ⟨u, hexchange, hchanges, hresult, -, -, hsent, -, -, hsends, taken, rest, hcut, htaken, hrest⟩ :=
    exchange_reply (code := code) (data := [b]) (excess := []) hwrites hdeliver (by simp) (by simp) (by simp [hclass])
      ((length_readCommand s.params (rangeAddr addr i)).trans_lt hwidths)
  have hall : rest = [] := by
    cases taken with
    | nil => exact absurd htaken not_frameDone_nil
    | cons c taken => exact (List.append_eq_nil_iff.1 (List.cons.inj hcut).2.symm).2
  have hparams := changesOnlyExchange_params hchanges
  have hseq := changesOnlyExchange_seq hchanges
  have hbuf := congrArg (Memory.write · i b) (changesOnlyExchange_callerBuf hchanges)
  refine ⟨{ u with status := 0x00#8, result := .byteRead b, callerBuf := u.callerBuf.write i b }, fun left => ?_,
    hparams, hseq, hbuf, hsends, ?_, hsent⟩
  · rw [rangeFrom, hexchange]
    exact endTask_range_of_data hresult hclass rfl addr i left advance
  · rw [hall] at hrest
    exact hrest

/-- The replies that a range reads, one chunk a byte (R182, R193). -/
def rangeReplies (p : Params) (advance : Bool) (seq : Bits16) (code : Byte) (bytes : List Byte) : List ReadAnswer :=
  bytes.mapIdx fun j b => .chunk (encodeFrame p.crcp (seqAt advance seq j) [code, b])

/-- The frames that it sends for its bytes from byte i on. -/
def rangeFrames (p : Params) (advance : Bool) (seq : Bits16) (addr : Bits16) (i : Nat) (bytes : List Byte) :
    List (List Byte) :=
  bytes.mapIdx fun j _ => encodeFrame p.crcp (seqAt advance seq j) (readCommand p (rangeAddr addr (i + j)))

theorem rangeReplies_cons (p : Params) (advance : Bool) (seq : Bits16) (code b : Byte) (bytes : List Byte) :
    rangeReplies p advance seq code (b :: bytes) =
      .chunk (encodeFrame p.crcp seq [code, b]) ::
        rangeReplies p advance (seqBetween advance bytes.length seq) code bytes := by
  cases bytes with
  | nil => simp [rangeReplies, seqAt_zero]
  | cons c bytes =>
    simp only [rangeReplies, List.mapIdx_cons, List.length_cons, seqAt_zero,
      seqAt_seqBetween advance (Nat.succ_ne_zero bytes.length)]

theorem rangeFrames_cons (p : Params) (advance : Bool) (seq addr : Bits16) (i : Nat) (b : Byte) (bytes : List Byte) :
    rangeFrames p advance seq addr i (b :: bytes) =
      encodeFrame p.crcp seq (readCommand p (rangeAddr addr i)) ::
        rangeFrames p advance (seqBetween advance bytes.length seq) addr (i + 1) bytes := by
  cases bytes with
  | nil => simp [rangeFrames, seqAt_zero]
  | cons c bytes =>
    simp only [rangeFrames, List.mapIdx_cons, List.length_cons, seqAt_zero,
      seqAt_seqBetween advance (Nat.succ_ne_zero bytes.length), Nat.add_zero, Nat.zero_add, Nat.add_assoc,
      Nat.add_comm 1]

/-- A range whose replies all arrive stores its bytes from offset i on and takes exactly its answers (R193). -/
theorem rangeFrom_of_replies (addr : Bits16) (advance : Bool) {code : Byte} {sends : List WriteAnswer}
    {later : List ReadAnswer} (bytes : List Byte) (i : Nat) (s : State)
    (hwidths : s.params.countBytes + s.params.addrBytes + 2 < 2 ^ 32)
    (hclass : replyClass s.params code = .success .memory)
    (hwrites : s.writeAnswers = bytes.map (fun _ => WriteAnswer.ok) ++ sends)
    (hreads : s.readAnswers = rangeReplies s.params advance s.seq code bytes ++ later) :
    ∃ t : State, rangeFrom addr advance bytes.length i s = .next t ∧ t.result = .rangeRead ∧ t.status = 0x00#8 ∧
      t.callerBuf = s.callerBuf.writeBytes i bytes ∧ t.seq = seqAt advance s.seq (bytes.length - 1) ∧
      t.readAnswers = later ∧ t.sent = s.sent ++ rangeFrames s.params advance s.seq addr i bytes := by
  induction bytes generalizing i s with
  | nil => exact ⟨_, rfl, rfl, rfl, rfl, (seqAt_zero advance s.seq).symm, hreads, (List.append_nil s.sent).symm⟩
  | cons b bytes ih =>
    rw [rangeReplies_cons, List.cons_append] at hreads
    obtain ⟨w, hturn, hparams, hseq, hbuf, hsends, hlater, hsent⟩ :=
      rangeFrom_of_reply (addr := addr) (i := i) hwidths hclass hwrites hreads advance
    obtain ⟨t, hexec, hresult, hstatus, hbuf', hseq', hlater', hsent'⟩ :=
      ih (i + 1) (betweenBytes advance bytes.length w) (by rwa [betweenBytes_params, hparams])
        (by rwa [betweenBytes_params, hparams]) (by rw [betweenBytes_writeAnswers, hsends]; rfl)
        (by rw [betweenBytes_readAnswers, hlater, betweenBytes_params, hparams, betweenBytes_seq, hseq])
    refine ⟨t, (hturn bytes.length).trans hexec, hresult, hstatus, ?_, ?_, hlater', ?_⟩
    · rw [hbuf', betweenBytes_callerBuf, hbuf, Memory.writeBytes]
    · rw [hseq', betweenBytes_seq, hseq, seqAt_last, List.length_cons, Nat.add_sub_cancel]
    · rw [hsent', betweenBytes_sent, hsent, betweenBytes_params, hparams, betweenBytes_seq, hseq, rangeFrames_cons,
        List.append_assoc, List.singleton_append]

/-- Settles O59: the CRC unit's part is every call's, and no address of the range is past 0xFFFF. -/
theorem readRangeFillsTheBuffer : Obligations.ReadRangeFillsTheBuffer := by
  intro s addr advance bytes code sends later hwidths haddr hclass _ hwrites hreads
  obtain ⟨t, hexec, hresult, hstatus, hbuf, hseq, hlater, hsent⟩ :=
    rangeFrom_of_replies addr advance bytes 0 s hwidths hclass hwrites hreads
  obtain ⟨hcrc, hvalid, hmatch, hparams, hagenda⟩ :=
    (crcUnit_eq_iff s t).1 (call_crcUnit (i := .readRange addr bytes.length advance) rfl hexec)
  refine ⟨t, hexec, hresult, hstatus, fun i hi => ?_, fun i hi => ?_, hseq, hlater, ?_, hcrc, hvalid, hmatch, hparams,
    hagenda⟩
  · rw [hbuf, read_writeBytes, if_pos (by omega), Nat.sub_zero]
  · rw [hbuf, read_writeBytes, if_neg (by omega)]
  · rw [hsent, rangeFrames, List.mapIdx_eq_mapIdx_iff.2 fun i hi => ?_]
    rw [Nat.zero_add, rangeAddr_of_lt (by omega)]
    rfl

/-! ### A range that ends with a failing byte -/

/-- A turn of a range that is read whole has read its byte: from the state with that byte stored a range of any other
length goes on as well. -/
theorem rangeFrom_turn_of_rangeRead {addr : Bits16} {advance : Bool} {left i : Nat} {s t : State}
    (h : rangeFrom addr advance (left + 1) i s = .next t) (hresult : t.result = .rangeRead) (hp : t.pending = none) :
    ∃ w : State, ∀ left', rangeFrom addr advance (left' + 1) i s =
      rangeFrom addr advance left' (i + 1) (betweenBytes advance left' w) := by
  rw [rangeFrom] at h
  obtain ⟨hfits, ⟨-, rfl⟩ | ⟨hwrite, ⟨u, hu, ht⟩ | ⟨u, -, rfl⟩⟩⟩ := exchange_next h
  · rw [sendFrame_result] at hresult
    exact absurd hresult (sendResult_ne_rangeRead _)
  · obtain ⟨v, hv, -⟩ := endRangeByte_next ht
    by_cases hbyte : ∃ b, v.result = .byteRead b
    · obtain ⟨b, hb⟩ := hbyte
      refine ⟨{ v with callerBuf := v.callerBuf.write i b }, fun left' => ?_⟩
      rw [rangeFrom, exchange_done hwrite (fitsPayload_iff.1 hfits) hu, endRangeByte_of_byte hv hb]
    · rw [endRangeByte_of_error hv (not_exists.1 hbyte)] at ht
      obtain rfl := Host.Outcome.next.inj ht
      exact absurd hresult (endReadByte_ne_rangeRead (receiveStart_ne_rangeRead hu) hv)
  · cases hp

/-- A longer range goes on where a range that was read whole has ended, after the host's SEQ.ADV where it issues one. -/
theorem rangeFrom_add {addr : Bits16} {advance : Bool} {n i : Nat} {s t : State}
    (h : rangeFrom addr advance n i s = .next t) (hresult : t.result = .rangeRead) (hp : t.pending = none)
    (left : Nat) :
    rangeFrom addr advance (n + (left + 1)) i s =
      rangeFrom addr advance (left + 1) (i + n) (betweenBytes advance n t) := by
  induction n generalizing i s with
  | zero =>
    obtain rfl := Host.Outcome.next.inj h
    rw [betweenBytes_zero, rangeFrom_returnResult, Nat.zero_add]
    rfl
  | succ n ih =>
    obtain ⟨w, hturn⟩ := rangeFrom_turn_of_rangeRead h hresult hp
    rw [hturn] at h
    rw [Nat.add_right_comm n 1, hturn, betweenBytes_eq_one advance (show n + (left + 1) ≠ 0 by omega),
      betweenBytes_eq_one advance (show n + 1 ≠ 0 by omega)]
    cases n with
    | zero =>
      rw [betweenBytes_zero] at h
      obtain rfl := Host.Outcome.next.inj h
      rw [rangeFrom_betweenBytes_returnResult, Nat.zero_add, Nat.zero_add]
    | succ n =>
      have hrest := ih h
      rwa [betweenBytes_eq_one advance (Nat.succ_ne_zero n), betweenBytes_eq_one advance (Nat.succ_ne_zero n),
        Nat.add_right_comm i 1] at hrest

/-- Settles O60: the longer range comes to the failing byte's READ_RAM_BYTE, whose end is the range's. -/
theorem readRangeEndsAtTheFirstError : Obligations.ReadRangeEndsAtTheFirstError := by
  intro s t m addr n left advance hrange hresult hp hadv
  obtain rfl : m = betweenBytes advance n t := by
    rw [betweenBytes_eq_ite]
    split at hadv
    case isTrue hbetween => rw [if_pos hbetween]; exact (Host.Outcome.next.inj hadv).symm
    case isFalse hbetween => rw [if_neg hbetween, hadv]
  have hlonger : exec (.readRange addr (n + 1 + left) advance) s =
      rangeTurn addr advance left n (exec (.readRamByte (rangeAddr addr n)) (betweenBytes advance n t)) := by
    have hadd := rangeFrom_add hrange hresult hp left
    rw [Nat.zero_add, rangeFrom_succ addr advance left n (by rw [betweenBytes_pending, hp])] at hadd
    rw [Nat.add_assoc, Nat.add_comm 1]
    exact hadd
  refine ⟨fun u hu hpu hbyte => ⟨?_, ?_, ?_⟩, fun f hf => ?_⟩
  · rw [hlonger, hu, rangeTurn_of_error addr advance left n hpu hbyte]
  · rw [exec_callerBuf hu fun _ _ _ => Instr.noConfusion, betweenBytes_callerBuf]
  · exact exec_seq hu Instr.noConfusion Instr.noConfusion fun _ _ => Instr.noConfusion
  · rw [hlonger, hf, rangeTurn]

end Sys2Proof.Proofs
end

section
/-! PROOFS. The exceptions (spec/60_exceptions.md R205, R207, R209): every result that is returned puts its own code in
STATUS, whatever the buffers hold; and what arrives on the line, or fails there, waits behind what waits already. -/

namespace Sys2Proof.Proofs

open Sys2Proof Sys2Proof.Machine

/-! ### STATUS, the result and ERRINFO -/

/-- The clauses of the invariant that speak of the last result (R33, R205). -/
def StatusWell (s : State) : Prop := s.status = statusOf s.result ∧ s.status ∈ legalStatus ∧ codeInErrInfo s

/-- `return X` makes them true, whatever was returned before, if a code that X carries is in ERRINFO. -/
theorem statusWell_returnResult {x : Result} {s : State} (hx : x ≠ .corrupt .incomplete)
    (hcode : codeInErrInfo (returnResult x s)) : StatusWell (returnResult x s) :=
  ⟨rfl, statusOf_mem_legalStatus hx, hcode⟩

/-- SEND returns Ok or TransportError, and neither carries a code (R160, R161). -/
theorem statusWell_sendFrame (data : List Byte) (s : State) : StatusWell (sendFrame data s) := by
  rw [sendFrame]
  cases nextWriteAnswer s with
  | ok => exact statusWell_returnResult Result.noConfusion trivial
  | error reached => exact statusWell_returnResult Result.noConfusion trivial

/-- The one error of RECEIVE that carries a code has it from DECODE (R149, R167). -/
theorem codeInErrInfo_receiveFrame (frame : List Byte) (s : State) : codeInErrInfo (receiveFrame frame s) := by
  unfold receiveFrame
  rw [decodeBytes_eq]
  exact codeInErrInfo_received (splitReply_ne_unknownReply (checkChain_ne_unknownReply _ _)) _ s

theorem statusWell_of_received {s u : State} (h : receiveStart s = .done u) : StatusWell u := by
  obtain ⟨-, hstatus, -⟩ := receiveStart_result h
  refine ⟨hstatus, hstatus ▸ statusOf_mem_legalStatus (receiveStart_ne_corrupt_incomplete h), ?_⟩
  obtain ⟨rest, e⟩ | ⟨all, rest, -, e⟩ | ⟨acc, -, e⟩ := receiveStart_cases s <;> rw [e] at h <;> cases h
  · trivial
  · exact codeInErrInfo_receiveFrame _ _

/-- A RECEIVE that waits has returned nothing yet (R163). -/
theorem statusWell_of_waits {s u : State} {task : Task} (hs : StatusWell s) (h : receiveStart s = .waits u) :
    StatusWell { u with pending := some task } := by
  obtain ⟨rest, e⟩ | ⟨all, rest, -, e⟩ | ⟨acc, -, e⟩ := receiveStart_cases s <;> rw [e] at h <;> cases h
  exact hs

/-- The pieces of the calls return a result each, or none. -/
theorem keeps_statusWell : Keeps StatusWell where
  send cmd s _ _ := statusWell_sendFrame cmd s
  done _ _ _ hu := statusWell_of_received hu
  waits _ _ _ h hu := statusWell_of_waits h hu
  device _ _ _ := statusWell_returnResult Result.noConfusion rfl
  unexpected _ _ _ := statusWell_returnResult Result.noConfusion rfl
  ok _ _ := statusWell_returnResult Result.noConfusion trivial
  byte _ _ _ := statusWell_returnResult Result.noConfusion trivial
  range _ _ := statusWell_returnResult Result.noConfusion trivial
  buf _ _ _ h := h

theorem statusWell_advanceSeq (s : State) : StatusWell (advanceSeq s) :=
  statusWell_returnResult Result.noConfusion trivial

theorem exec_statusWell {s t : State} {i : Instr} (h : StatusWell s) (ht : exec i s = .next t) : StatusWell t := by
  cases exec_answers ht with
  | crcInit => exact statusWell_returnResult Result.noConfusion trivial
  | crcUpd b => exact statusWell_returnResult Result.noConfusion trivial
  | crcGet => exact statusWell_returnResult Result.noConfusion trivial
  | crcChk lo hi => exact statusWell_returnResult Result.noConfusion trivial
  | encode seqno payload => exact statusWell_returnResult Result.noConfusion trivial
  | fdec n r hr =>
    exact statusWell_returnResult (framedResult_ne_corrupt r _)
      (codeInErrInfo_framed (decodeRxbuf_ne_unknownReply hr) s)
  | decode n r hr =>
    exact statusWell_returnResult (decodeResult_ne_corrupt _ _)
      (codeInErrInfo_decoded (splitReply_ne_unknownReply (decodeRxbuf_ne_unknownReply hr)) s)
  | send data => exact statusWell_sendFrame data s
  | received u hu => exact statusWell_of_received hu
  | receiveWaits u hu => exact statusWell_of_waits h hu
  | seqAdv => exact statusWell_advanceSeq s
  | seqRst => exact statusWell_returnResult Result.noConfusion trivial
  | frame seqno payload crcField => exact h
  | call i t hi ht => exact keeps_statusWell.call hi (fun _ s _ => statusWell_advanceSeq s) h ht

/-- Settles O5: the codes are the table's, read off `statusOf`; every instruction keeps the three premises together. -/
theorem statusCodes : Obligations.StatusCodes :=
  ⟨⟨rfl, rfl, rfl, rfl, fun _ => rfl, rfl, rfl, rfl, rfl, fun _ => rfl, fun _ => rfl, fun _ => rfl, rfl⟩,
    fun _ _ _ ht hstatus hlegal hcode => exec_statusWell ⟨hstatus, hlegal, hcode⟩ ht⟩

/-! ### The inbound line -/

/-- An arrival writes what waits on the line and nothing else of the state; the bytes are behind what waited, the first
of them in one chunk with the last of that or not (R58, R209). -/
theorem arrive_changes (bytes : List Byte) (s : State) :
    ∃ (before : List ReadAnswer) (chunks : List (List Byte)),
      arrive bytes s =
        { s with readAnswers := before ++ chunks.map ReadAnswer.chunk, draws := (arrive bytes s).draws } ∧
      ((s.readAnswers = before ∧ chunks.flatten = bytes) ∨
        ∃ c, s.readAnswers = before ++ [.chunk c] ∧ chunks.flatten = c ++ bytes) := by
  obtain ⟨before, chunks, hanswers, hjoins⟩ := arrive_answers bytes s
  refine ⟨before, chunks, ?_, hjoins⟩
  rw [← hanswers]
  rfl

/-- FRAME is the arrival of its frame's bytes (R80, R209, log 9). -/
theorem exec_frame {payload : List Byte} (hlen : payload.length < 2 ^ 32) (seqno crcField : Bits16) (s : State) :
    exec (.frame seqno payload crcField) s = .next (arrive (frameBytes seqno payload crcField) s) :=
  if_pos (fitsPayload_iff.2 hlen)

/-- What is left of the agenda once bytes of its first event have arrived: those that have not, if any, stand first. -/
theorem advance_of_wire {s : State} {e : Event} {later : List Event} (ha : s.agenda = e :: later) (more : List Byte) :
    s.advance (if more = [] then none else some (.wire more)) =
      { s with agenda := if more = [] then later else .wire more :: later } := by
  rw [State.advance, ha]
  split <;> rfl

/-- The step of a wire event is an arrival, a RECEIVE waiting or not: of the whole frame at its start, or, where there
is none, of all its bytes (R58, R209, log 9). -/
theorem step_wire {s : State} {bytes : List Byte} {later : List Event} (ha : s.agenda = .wire bytes :: later) :
    ∃ arrived more, bytes = arrived ++ more ∧ (arrived = [] → bytes = []) ∧
      (decodeEvent (.wire bytes) = none → more = []) ∧
      step s = .next (arrive arrived { s with agenda := if more = [] then later else .wire more :: later }) := by
  have hstep : step s = stepEvent (.wire bytes) s := step_of_agenda ha (.inr rfl)
  cases hwire : decodeWire bytes with
  | none =>
    have hnone : decodeEvent (.wire bytes) = none := by simp only [decodeEvent, hwire]
    refine ⟨bytes, [], (List.append_nil bytes).symm, id, fun _ => rfl, ?_⟩
    rw [hstep, stepEvent, stepWire, hnone, ← advance_of_wire ha]
    rfl
  | some found =>
    obtain ⟨i, more⟩ := found
    obtain ⟨seqno, payload, crcField, rfl, hlen, hbytes⟩ := decodeWire_some hwire
    have hdecode := decodeEvent_of_decodeWire hwire
    refine ⟨frameBytes seqno payload crcField, more, hbytes, fun hnil => ?_, fun hnone => ?_, ?_⟩
    · rw [frameBytes_cons] at hnil
      cases hnil
    · rw [hnone] at hdecode
      cases hdecode
    · rw [hstep, stepEvent_of_decodeEvent hdecode, advance_of_wire ha, exec_frame hlen]

/-- The step of a timeout is a read error behind what waits, a RECEIVE waiting or not (R59). -/
theorem step_timeout {s : State} {later : List Event} (ha : s.agenda = .timeout :: later) :
    step s = .next { s with agenda := later, readAnswers := s.readAnswers ++ [.error] } := by
  rw [step_of_agenda ha (.inr rfl), stepEvent, readError, State.advance, ha]
  rfl

/-- Settles O51: FRAME and a wire event are arrivals, a timeout is a read error. -/
theorem arrivalsWaitOnTheInboundLine : Obligations.ArrivalsWaitOnTheInboundLine := by
  refine ⟨fun s seqno payload crcField hlen => ?_, fun s bytes later ha => ?_, fun s later => step_timeout⟩
  · obtain ⟨before, chunks, hchanges, hjoins⟩ := arrive_changes (frameBytes seqno payload crcField) s
    exact ⟨_, before, chunks, exec_frame hlen seqno crcField s, hchanges, hjoins⟩
  · obtain ⟨arrived, more, hbytes, hempty, hnone, hstep⟩ := step_wire ha
    obtain ⟨before, chunks, hchanges, hjoins⟩ := arrive_changes arrived
      { s with agenda := if more = [] then later else .wire more :: later }
    exact ⟨_, arrived, more, before, chunks, hstep, hbytes, hempty, hnone, hchanges, hjoins⟩

end Sys2Proof.Proofs
end

section
/-! PROOFS. Reset (spec/70_reset_and_hazards.md R230): the block waits while nothing is presented to it; the creation of a
session gives the registers the values of spec/10_state.md R36, and sends and reads nothing. -/

namespace Sys2Proof.Proofs

open Sys2Proof Sys2Proof.Machine

/-! ### The wait for the host -/

/-- Settles O7: of the three things that a step can be, one needs an event and one a waiting RECEIVE. -/
theorem blockWaitsForTheHost : Obligations.BlockWaitsForTheHost := by
  intro s ha hp
  obtain hidle | ⟨e, -, hevent, -⟩ | ⟨task, htask, -⟩ := step_cases s
  · exact hidle
  · rw [ha] at hevent
    cases hevent
  · rw [hp] at htask
    cases htask

/-! ### The reset event: the values of R36 -/

@[simp] theorem newSession_seq (s : State) : (newSession s).seq = 0x0000#16 := rfl
@[simp] theorem newSession_crcValid (s : State) : (newSession s).crcValid = false := rfl
@[simp] theorem newSession_status (s : State) : (newSession s).status = 0x00#8 := rfl
@[simp] theorem newSession_txLen (s : State) : (newSession s).txLen = 0#33 := rfl

/-! ### The reset event: what it leaves -/

@[simp] theorem newSession_params (s : State) : (newSession s).params = s.params := rfl
@[simp] theorem newSession_sent (s : State) : (newSession s).sent = s.sent := rfl
@[simp] theorem newSession_readAnswers (s : State) : (newSession s).readAnswers = s.readAnswers := rfl
@[simp] theorem newSession_writeAnswers (s : State) : (newSession s).writeAnswers = s.writeAnswers := rfl
@[simp] theorem newSession_agenda (s : State) : (newSession s).agenda = s.agenda := rfl

/-- While no RECEIVE waits, the step of the reset event is the reset, on the rest of the agenda. -/
theorem step_newSession {s : State} {later : List Event} (ha : s.agenda = .newSession :: later)
    (hp : s.pending = none) : step s = .next (newSession { s with agenda := later }) := by
  rw [step_of_agenda ha (.inl hp), stepEvent, State.advance, ha]
  rfl

/-- Settles O11: the step is `newSession`, whose fields the lemmas above read off. -/
theorem newSessionResetsTheBlock : Obligations.NewSessionResetsTheBlock := by
  intro s later ha hp
  refine ⟨newSession { s with agenda := later }, step_newSession ha hp, ?_⟩
  simp

end Sys2Proof.Proofs
end
